-- ==== Sys2Proof/Word.lean ====
section
/-! DEFINITION. The word types of the engine: bytes, the floating-point values of the default `Num`
on the data ports, complex values (00_scope R10, R12; 30_encoding R83). -/

namespace Sys2Proof

/-- A byte (00_scope R10). -/
abbrev Byte := BitVec 8

/-- A floating-point value of the default `Num`, as the 64 bits it has on the data ports
(40_complex_alu R110, R111: `enc` and `dec` are inverse to each other, so a value is its encoding). -/
abbrev F64 := BitVec 64

/-- A complex value over any type of components (00_scope R12). -/
structure Cplx (F : Type) where
  /-- the real part, bits `FPW-1:0` on a port -/
  re : F
  /-- the imaginary part, bits `2*FPW-1:FPW` on a port -/
  im : F
deriving DecidableEq, Repr

/-- A complex value of the engine. -/
abbrev C64 := Cplx F64

/-- `CZERO = (+0, +0)` of the engine (00_scope R12). -/
def czero : C64 := ⟨0#64, 0#64⟩

/-- The number of a complex scalar register, `0 ≤ i < NZ = 4` (10_state R21). -/
abbrev ZReg := Fin 4

end Sys2Proof
end

