-- ==== Sys2Proof/Config.lean ====
section
/-! DEFINITION. What an implementation fixes (00_scope R8) and the values the spec leaves free.
Every opaque constant here has no body: nothing can be proved about its value. -/

namespace Sys2Proof.Config

/-- `log2 NMAX`. -/
opaque nmaxLog2 : Fin 63

/-- `NMAX`, the capacity of `X`: any power of two from 1 to `2^62` (00_scope R8, decision D11). -/
def NMAX : Nat := 2 ^ nmaxLog2.val

/-- `BUFMAX - 44`. -/
opaque bufmaxExcess : Fin (4611686018427387904 - 44 + 1)

/-- `BUFMAX`, the capacity of `BUF` and of `PAY`: any number from 44 to `2^62`
(00_scope R8, decision D11). -/
def BUFMAX : Nat := 44 + bufmaxExcess.val

/-- `SAMPLE_SIGNED`: whether a payload byte is a signed sample (00_scope R8, decision D20). -/
opaque sampleSigned : Bool

/-- `HDRLEN`, the header length in bytes (00_scope R8). -/
def HDRLEN : Nat := 44

/-- The operations of `Num` that can produce a NaN (40_complex_alu R113). -/
inductive FpOp where
  | add | sub | mul | div | cos | sin
deriving DecidableEq, Repr

/-- Free value: the sign of the NaN that an operation produces on the given operands
(40_complex_alu R113, U6); a function of the operands alone (R110). -/
opaque nanSign : FpOp → F64 → F64 → Bool

/-- Free value: the payload of the NaN that an operation produces on the given operands
(40_complex_alu R113, U6); the all-zero payload, which is no NaN, stands for payload 1. -/
opaque nanPayload : FpOp → F64 → F64 → BitVec 52

end Sys2Proof.Config
end

