-- ==== Sys2Proof/Syntax.lean ====
section
/-! DEFINITION. The commands of SEM3FFT, one constructor per row of the opcode map
(30_encoding R85). Register operands are numbers `0..3`, `ARG` operands 64-bit words. -/

namespace Sys2Proof

/-- A decoded command. `DIN` and `ENV` are data, not part of the command (30_encoding R83). -/
inductive Instr where
  /-- `RST` (44_system R215) -/
  | rst
  /-- `RDCSR csr` (44_system R216) -/
  | rdcsr (n : BitVec 64)
  /-- `ZWR zd, (re, im)` (40_complex_alu R119) -/
  | zwr (zd : ZReg)
  /-- `ZRD za` (40_complex_alu R120) -/
  | zrd (za : ZReg)
  /-- `ZLD zd, idx` (40_complex_alu R121) -/
  | zld (zd : ZReg) (idx : BitVec 64)
  /-- `ZST za, idx` (40_complex_alu R122) -/
  | zst (za : ZReg) (idx : BitVec 64)
  /-- `CADD zd, za, zb` (40_complex_alu R123) -/
  | cadd (zd za zb : ZReg)
  /-- `CMUL zd, za, zb` (40_complex_alu R124) -/
  | cmul (zd za zb : ZReg)
  /-- `CDIVR zd, za, n` (40_complex_alu R125) -/
  | cdivr (zd za : ZReg) (n : BitVec 64)
  /-- `TWID zd, i, sz` (40_complex_alu R126): `i = ARG[31:0]`, `sz = ARG[63:32]` -/
  | twid (zd : ZReg) (i sz : BitVec 32)
  /-- `XSETLEN n` (41_transform R141) -/
  | xsetlen (n : BitVec 64)
  /-- `XWR idx, (re, im)` (41_transform R142) -/
  | xwr (idx : BitVec 64)
  /-- `XRD idx` (41_transform R144) -/
  | xrd (idx : BitVec 64)
  /-- `PAD` (41_transform R145) -/
  | pad
  /-- `FFT` (41_transform R149) -/
  | fft
  /-- `IFFT` (41_transform R151) -/
  | ifft
  /-- `ZTAIL k` (41_transform R153) -/
  | ztail (k : BitVec 64)
  /-- `LOAD` (42_container R175) -/
  | load
  /-- `SAVE` (42_container R180) -/
  | save
  /-- `EXTRACT` (42_container R183) -/
  | extract
  /-- `UPDATE` (42_container R184) -/
  | update
  /-- `PSETLEN n` (42_container R185) -/
  | psetlen (n : BitVec 64)
  /-- `PWR idx, byte` (42_container R186) -/
  | pwr (idx : BitVec 64)
  /-- `PRD idx` (42_container R187) -/
  | prd (idx : BitVec 64)
  /-- `LIFT` (43_quantizer R202) -/
  | lift
  /-- `QUANT count` (43_quantizer R204) -/
  | quant (count : BitVec 64)
deriving DecidableEq, Repr

end Sys2Proof
end

