-- ==== Sys2Proof/Machine/State.lean ====
section
/-! DEFINITION. The state of the engine as plain data (10_state R20), the host's side of the
interface beside it (30_encoding R80, 44_system R219), the state after reset (10_state R42), and
the reasons for which a step could stop. -/

namespace Sys2Proof.Machine

/-- The thirteen header registers (10_state R33), in header order. -/
structure Header where
  chunkId : BitVec 32
  chunkSize : BitVec 32
  format : BitVec 32
  subchunk1Id : BitVec 32
  subchunk1Size : BitVec 32
  audioFormat : BitVec 16
  numChannels : BitVec 16
  sampleRate : BitVec 32
  byteRate : BitVec 32
  blockAlign : BitVec 16
  bitsPerSample : BitVec 16
  subchunk2Id : BitVec 32
  subchunk2Size : BitVec 32
deriving DecidableEq, Repr

/-- The three duration registers (10_state R34). -/
structure Duration where
  hours : BitVec 32
  minutes : BitVec 32
  seconds : BitVec 32
deriving DecidableEq, Repr

/-- What a successful `LOAD` derives (10_state R31). -/
structure Derived where
  hdr : Header
  dur : Duration
deriving DecidableEq, Repr

/-- `ENV.source` (42_container R176). -/
inductive Source where
  /-- the source cannot be opened for reading -/
  | absent
  /-- the whole content of the source -/
  | present (bytes : List Byte)
deriving DecidableEq, Repr

/-- The part of a request that is data, not command (30_encoding R80, R83): `DIN` and `ENV`. -/
structure Inputs where
  /-- `DIN`, `2*FPW` bits -/
  din : BitVec 128
  /-- `ENV.source`, used by `LOAD` -/
  source : Source
  /-- `ENV.sink_ok`, used by `SAVE` -/
  sinkOk : Bool
deriving DecidableEq, Repr

/-- A request of the host (30_encoding R80). -/
structure Request where
  cmd : BitVec 32
  arg : BitVec 64
  inputs : Inputs
deriving DecidableEq, Repr

/-- What the host can do between two commands (44_system R220, 70_reset R260). -/
inductive HostMove where
  | request (r : Request)
  | hardwareReset
deriving DecidableEq, Repr

/-- The completion codes (30_encoding R84). -/
inductive Rsp where
  | ok
  | error
  | refused
deriving DecidableEq, Repr

/-- The response to a request (30_encoding R80). -/
structure Response where
  rsp : Rsp
  dout : BitVec 128
  /-- the bytes delivered to the external sink, for a successful `SAVE` only -/
  sink : Option (List Byte)
deriving DecidableEq, Repr

/-- The error codes by name (60_exceptions R226). -/
inductive ErrCode where
  | notFound | unwritable | invalidArg | divZero | short
  | qRange | cap | illegal | index | noHdr
deriving DecidableEq, Repr

/-- The machine. The fields down to `err` are the engine's architectural state (10_state R20);
the last three are the model's own (log entry 1). `X`, `BUF` and `PAY` list their cells by
address, and a cell that is not listed holds zero (Machine/Memory.lean). -/
structure State where
  /-- the complex scalar registers `Z[0..3]` (10_state R21) -/
  z : Vector C64 4
  /-- the sequence memory `X` (10_state R25) -/
  x : List (Nat × C64)
  /-- `XLEN` -/
  xLen : BitVec 64
  /-- the container memory `BUF` (10_state R28) -/
  buf : List Host.Cell
  /-- `BUFLEN` -/
  bufLen : BitVec 64
  /-- the payload memory `PAY` (10_state R30) -/
  pay : List Host.Cell
  /-- `PAYLEN` -/
  payLen : BitVec 64
  /-- `HDR` and `DUR`, which hold no value while `STATUS.HDRV = 0` (10_state R37) -/
  derived : Option Derived
  /-- `STATUS.HALT` (10_state R35) -/
  halt : Bool
  /-- `ERR` (10_state R36) -/
  err : BitVec 8
  /-- the moves the host has still to make, the next one first -/
  host : List HostMove
  /-- the data inputs of the request being executed, or of the last one -/
  inputs : Inputs
  /-- the responses given, the oldest first -/
  responses : List Response
deriving DecidableEq, Repr

/-- Reasons for which a step stops with a fault: none. Every error of the engine is a next state
(60_exceptions R227), and `step` is total (44_system R219). -/
inductive Fault where
deriving DecidableEq, Repr

/-- Reasons for which a step has no meaning. -/
inductive Refusal where
  /-- Raised by `exec` for a command that has no meaning in the model: safe. No arm raises it. -/
  | notModelled (mnemonic : String)
deriving DecidableEq, Repr

/-- The data inputs before the first request: the model's choice (log entry 1). -/
def noInputs : Inputs := ⟨0#128, .absent, false⟩

/-- The state after hardware reset (10_state R42, 70_reset R261). -/
def State.reset : State where
  z := Vector.replicate 4 czero
  x := []
  xLen := 0#64
  buf := []
  bufLen := 0#64
  pay := []
  payLen := 0#64
  derived := none
  halt := false
  err := 0#8
  host := []
  inputs := noInputs
  responses := []

end Sys2Proof.Machine
end

