-- ==== Sys2Proof/Machine/Flags.lean ====
section
/-! DEFINITION. The flags and the error register (10_state R35, R36; 60_exceptions R226). No
arithmetic command has a flag (10_state R35). -/

namespace Sys2Proof.Machine

/-- The number of an error (60_exceptions R226). -/
def ErrCode.code : ErrCode → BitVec 8
  | .notFound => 1#8
  | .unwritable => 2#8
  | .invalidArg => 3#8
  | .divZero => 4#8
  | .short => 5#8
  | .qRange => 6#8
  | .cap => 7#8
  | .illegal => 8#8
  | .index => 9#8
  | .noHdr => 10#8

/-- The number of a completion code (30_encoding R84). -/
def Rsp.code : Rsp → BitVec 8
  | .ok => 0#8
  | .error => 1#8
  | .refused => 2#8

/-- `STATUS.HDRV`: `HDR` and `DUR` hold the result of a successful `LOAD` (10_state R35). -/
def State.hdrv (s : State) : Bool := s.derived.isSome

/-- `STATUS`, zero-extended: bit 0 `HALT`, bit 1 `HDRV`, all other bits 0 (10_state R35). -/
def State.status (s : State) : BitVec 64 :=
  (if s.halt then 1#64 else 0#64) ||| (if s.hdrv then 2#64 else 0#64)

end Sys2Proof.Machine
end

