-- ==== Sys2Proof/Machine/Memory.lean ====
section
/-! DEFINITION. The indexed memories of the engine (20_memory R60) as lists of cells, addresses
strictly rising, no cell listed that holds the value `z` of an unlisted one: `CZERO` in `X`,
0x00 in `BUF` and `PAY` (10_state R25; 42_container R185). A whole-sequence command reads a memory
as the sequence of its current length and writes a sequence back. -/

namespace Sys2Proof.Machine

variable {α : Type}

/-- The cell at address `a`. -/
def Memory.read (z : α) : List (Nat × α) → Nat → α
  | [], _ => z
  | (b, v) :: m, a => if a = b then v else Memory.read z m a

/-- Write `v` at address `a`, keeping the canonical form. -/
def Memory.write [DecidableEq α] (z : α) : List (Nat × α) → Nat → α → List (Nat × α)
  | [], a, v => if v = z then [] else [(a, v)]
  | (b, w) :: m, a, v =>
    if a < b then (if v = z then (b, w) :: m else (a, v) :: (b, w) :: m)
    else if a = b then (if v = z then m else (a, v) :: m)
    else (b, w) :: Memory.write z m a v

/-- Keep the cells below address `n`; all others hold `z` afterwards. -/
def Memory.below (m : List (Nat × α)) (n : Nat) : List (Nat × α) := m.filter fun c => c.1 < n

/-- The cells of a sequence laid out from address `a`. -/
def Memory.ofListFrom [DecidableEq α] (z : α) (a : Nat) : List α → List (Nat × α)
  | [] => []
  | v :: vs =>
    if v = z then Memory.ofListFrom z (a + 1) vs else (a, v) :: Memory.ofListFrom z (a + 1) vs

/-- The memory that holds exactly a sequence, from address 0. -/
def Memory.ofList [DecidableEq α] (z : α) (vs : List α) : List (Nat × α) :=
  Memory.ofListFrom z 0 vs

/-- `m[0..n)` as a sequence (00_scope R11, R13). -/
def Memory.toList (z : α) (m : List (Nat × α)) (n : Nat) : List α :=
  (List.range n).map (Memory.read z m)

/-- The canonical form: addresses strictly rising, no cell equal to what an unlisted one holds. -/
abbrev Memory.wf (z : α) (m : List (Nat × α)) : Prop :=
  (m.map Prod.fst).Pairwise (· < ·) ∧ ∀ c ∈ m, c.2 ≠ z

/-- Every listed address is below the length `n`. -/
abbrev Memory.within (m : List (Nat × α)) (n : Nat) : Prop := ∀ c ∈ m, c.1 < n

end Sys2Proof.Machine
end

