-- ==== Sys2Proof/Machine/Operands.lean ====
section
/-! DEFINITION. The operand forms: values on the data ports (30_encoding R83), registers, elements,
bytes and whole sequences of the memories (00_scope R13, 20_memory R60), control and status
registers (10_state R40). -/

namespace Sys2Proof.Machine

/-- The complex value on `DIN`: `re` in the low half, `im` in the high half (30_encoding R83). -/
def dinComplex (din : BitVec 128) : C64 := ⟨din.extractLsb' 0 64, din.extractLsb' 64 64⟩

/-- The byte on `DIN`: bits 7:0, the higher bits ignored (30_encoding R83). -/
def dinByte (din : BitVec 128) : Byte := din.extractLsb' 0 8

/-- A complex value on `DOUT`, `{im, re}` (30_encoding R83). -/
def doutComplex (v : C64) : BitVec 128 := v.im ++ v.re

/-- A byte on `DOUT`, higher bits zero (30_encoding R83). -/
def doutByte (b : Byte) : BitVec 128 := b.setWidth 128

/-- A 64-bit register value on `DOUT`, higher bits zero (30_encoding R83). -/
def doutWord (v : BitVec 64) : BitVec 128 := v.setWidth 128

/-- `Z[i]` (10_state R21). -/
def State.zReg (s : State) (i : ZReg) : C64 := s.z[i]

/-- The cell of `X` at an index (10_state R25). -/
def State.xElem (s : State) (i : Nat) : C64 := Memory.read czero s.x i

/-- The cell of `BUF` at an address (10_state R28). -/
def State.bufByte (s : State) (a : Nat) : Byte := Memory.read 0#8 s.buf a

/-- The cell of `PAY` at an index (10_state R30). -/
def State.payByte (s : State) (i : Nat) : Byte := Memory.read 0#8 s.pay i

/-- `X[0..XLEN)` (41_transform R140). -/
def State.xSeq (s : State) : List C64 := Memory.toList czero s.x s.xLen.toNat

/-- `BUF[0..BUFLEN)` (10_state R28). -/
def State.bufBytes (s : State) : List Byte := Memory.toList 0#8 s.buf s.bufLen.toNat

/-- `PAY[0..PAYLEN)` (10_state R30). -/
def State.payBytes (s : State) : List Byte := Memory.toList 0#8 s.pay s.payLen.toNat

/-- A header or duration register, which has no value while `HDRV = 0` (10_state R37). -/
def State.readDerived {w : Nat} (s : State) (field : Derived → BitVec w) :
    Except ErrCode (BitVec 64) :=
  match s.derived with
  | none => .error .noHdr
  | some d => .ok ((field d).setWidth 64)

/-- `CSR[n]`, zero-extended to 64 bits (10_state R33, R34, R40; 44_system R216). -/
def State.readCsr (s : State) (n : Nat) : Except ErrCode (BitVec 64) :=
  match n with
  | 0x00 => .ok s.status
  | 0x01 => .ok (s.err.setWidth 64)
  | 0x02 => .ok s.xLen
  | 0x03 => .ok s.payLen
  | 0x04 => .ok s.bufLen
  | 0x10 => s.readDerived fun d => d.hdr.chunkId
  | 0x11 => s.readDerived fun d => d.hdr.chunkSize
  | 0x12 => s.readDerived fun d => d.hdr.format
  | 0x13 => s.readDerived fun d => d.hdr.subchunk1Id
  | 0x14 => s.readDerived fun d => d.hdr.subchunk1Size
  | 0x15 => s.readDerived fun d => d.hdr.audioFormat
  | 0x16 => s.readDerived fun d => d.hdr.numChannels
  | 0x17 => s.readDerived fun d => d.hdr.sampleRate
  | 0x18 => s.readDerived fun d => d.hdr.byteRate
  | 0x19 => s.readDerived fun d => d.hdr.blockAlign
  | 0x1A => s.readDerived fun d => d.hdr.bitsPerSample
  | 0x1B => s.readDerived fun d => d.hdr.subchunk2Id
  | 0x1C => s.readDerived fun d => d.hdr.subchunk2Size
  | 0x20 => s.readDerived fun d => d.dur.hours
  | 0x21 => s.readDerived fun d => d.dur.minutes
  | 0x22 => s.readDerived fun d => d.dur.seconds
  | _ => .error .illegal

end Sys2Proof.Machine
end

