-- ==== Sys2Proof/Machine/Ops.lean ====
section
/-! DEFINITION. The shared operations: responding, raising an error, refusing, resetting
(00_scope R13; 60_exceptions R227 to R229), the updates of registers and memories, and the frame
of a command (30_encoding R95, 60_exceptions R236). -/

namespace Sys2Proof.Machine

/-- What a step answers. -/
abbrev StepResult := Host.Outcome State Fault Refusal

/-- Give a response (30_encoding R80). -/
def State.answer (s : State) (rsp : Rsp) (dout : BitVec 128) (sink : Option (List Byte)) : State :=
  { s with responses := s.responses ++ [⟨rsp, dout, sink⟩] }

/-- `respond(v)`: complete with `RSP = 0` and `DOUT = v` (00_scope R13). -/
def State.respond (s : State) (dout : BitVec 128) : State := s.answer .ok dout none

/-- `raise E(code)` on the state before the command: `ERR` latched, `STATUS.HALT` set, `RSP = 1`,
the code on `DOUT`, no `SINK` (60_exceptions R227). -/
def State.raise (s : State) (e : ErrCode) : State :=
  { s with err := e.code, halt := true }.answer .error (e.code.setWidth 128) none

/-- A request refused by the halted engine (60_exceptions R228). -/
def State.refuse (s : State) : State := s.answer .refused 0#128 none

/-- Reset: every piece of engine state at its reset value (10_state R42, 70_reset R260); the only
way out of the halted state (60_exceptions R229). -/
def State.resetEngine (s : State) : State :=
  { State.reset with host := s.host, inputs := s.inputs, responses := s.responses }

/-- `Z[i] <- v`. -/
def State.setZ (s : State) (i : ZReg) (v : C64) : State := { s with z := s.z.set i v }

/-- `X[i] <- v`. -/
def State.setX (s : State) (i : Nat) (v : C64) : State :=
  { s with x := Memory.write czero s.x i v }

/-- `X` and `XLEN` become a sequence. -/
def State.setXSeq (s : State) (xs : List C64) : State :=
  { s with x := Memory.ofList czero xs, xLen := BitVec.ofNat 64 xs.length }

/-- `X[i] <- CZERO` for every `i` from `k` on. -/
def State.zeroXFrom (s : State) (k : Nat) : State := { s with x := Memory.below s.x k }

/-- `XLEN <- n`: elements cut off are lost, elements exposed are `CZERO` (41_transform R141). -/
def State.setXLen (s : State) (n : BitVec 64) : State :=
  { s with x := Memory.below s.x (min n.toNat s.xLen.toNat), xLen := n }

/-- `BUF` and `BUFLEN` become a sequence. -/
def State.setBuf (s : State) (bytes : List Byte) : State :=
  { s with buf := Memory.ofList 0#8 bytes, bufLen := BitVec.ofNat 64 bytes.length }

/-- `PAY[i] <- b`. -/
def State.setPay (s : State) (i : Nat) (b : Byte) : State :=
  { s with pay := Memory.write 0#8 s.pay i b }

/-- `PAY` and `PAYLEN` become a sequence. -/
def State.setPaySeq (s : State) (bytes : List Byte) : State :=
  { s with pay := Memory.ofList 0#8 bytes, payLen := BitVec.ofNat 64 bytes.length }

/-- `PAYLEN <- n`: bytes cut off are lost, bytes exposed are 0x00 (42_container R185). -/
def State.setPayLen (s : State) (n : BitVec 64) : State :=
  { s with pay := Memory.below s.pay (min n.toNat s.payLen.toNat), payLen := n }

/-- What a command does when it raises no error: its state writes, `DOUT` and `SINK`. -/
structure Effect where
  state : State
  dout : BitVec 128
  sink : Option (List Byte)

/-- Writes state and answers nothing. -/
def wrote (t : State) : Except ErrCode Effect := .ok ⟨t, 0#128, none⟩

/-- Answers on `DOUT` and writes nothing. -/
def answered (s : State) (dout : BitVec 128) : Except ErrCode Effect := .ok ⟨s, dout, none⟩

/-- The end of a command that is executed: its effect, or the error it raises on the state as it
was before the command (60_exceptions R227). -/
def State.finish (s : State) : Except ErrCode Effect → State
  | .ok e => e.state.answer .ok e.dout e.sink
  | .error c => s.raise c

/-- A command other than `RST` and `RDCSR`: refused while halted (60_exceptions R228, R236). -/
def State.command (s : State) (r : Except ErrCode Effect) : StepResult :=
  .next (if s.halt then s.refuse else s.finish r)

/-- `RDCSR`: executed while halted too, but refused there instead of raising an error
(44_system R216, 60_exceptions R230). -/
def State.readCommand (s : State) (r : Except ErrCode Effect) : StepResult :=
  match r with
  | .ok e => .next (e.state.answer .ok e.dout e.sink)
  | .error c => .next (if s.halt then s.refuse else s.raise c)

/-- A request that selects no command (30_encoding R95, 60_exceptions R228, R237). -/
def State.illegalRequest (s : State) : State := if s.halt then s.refuse else s.raise .illegal

end Sys2Proof.Machine
end

