-- ==== Sys2Proof/Machine/Num.lean ====
section
/-! DEFINITION. The numerics record `Num` (40_complex_alu R110). Every numeric rule of the engine is
written over an arbitrary `Num`; the machine uses the default one (Machine/Binary64.lean). -/

namespace Sys2Proof.Machine

/-- The record `Num` over a type `F` of floating-point values (40_complex_alu R110). `zero` is the
value the spec writes `+0`. `enc` and `dec` are not fields: over the port bits they are the
identity (log entry 4). -/
structure Num (F : Type) where
  fadd : F → F → F
  fsub : F → F → F
  fmul : F → F → F
  fdiv : F → F → F
  fcos : F → F
  fsin : F → F
  ffloor : F → F
  ofNat : Nat → F
  ofInt : Int → F
  toInt : F → Option Int
  zero : F
  pi : F
  half : F

variable {F : Type}

/-- `TWO_PI = fmul(of_nat(2), PI)` (40_complex_alu R110). -/
def Num.twoPi (N : Num F) : F := N.fmul (N.ofNat 2) N.pi

/-- `CZERO = (+0, +0)` (00_scope R12). -/
def Num.czero (N : Num F) : Cplx F := ⟨N.zero, N.zero⟩

end Sys2Proof.Machine
end

