-- ==== Sys2Proof/Machine/Binary64.lean ====
section
/-! DEFINITION. IEEE 754 binary64, the default `F` of `Num` (40_complex_alu R111): classification,
exact values, the one rounding function (to nearest, ties to even), the four operations, floor
and the integer conversions. Each operation computes its exact result and rounds it once. -/

namespace Sys2Proof.Machine

/-- The sign, bit 63 (30_encoding R83). -/
def f64Sign (x : F64) : Bool := decide (2 ^ 63 ≤ x.toNat)

/-- The biased exponent, bits 62:52 (30_encoding R83). -/
def f64Exp (x : F64) : Nat := x.toNat / 2 ^ 52 % 2 ^ 11

/-- The fraction, bits 51:0 (30_encoding R83). -/
def f64Frac (x : F64) : Nat := x.toNat % 2 ^ 52

/-- The value is a NaN. -/
def f64IsNaN (x : F64) : Bool := f64Exp x == 2047 && f64Frac x != 0

/-- The value is an infinity. -/
def f64IsInf (x : F64) : Bool := f64Exp x == 2047 && f64Frac x == 0

/-- The value is a finite number. -/
def f64IsFinite (x : F64) : Bool := f64Exp x != 2047

/-- The value is `+0` or `-0`. -/
def f64IsZero (x : F64) : Bool := f64Exp x == 0 && f64Frac x == 0

/-- The magnitude of a finite value, in units of `2^-1074`. -/
def f64Mag (x : F64) : Nat :=
  if f64Exp x = 0 then f64Frac x else (2 ^ 52 + f64Frac x) * 2 ^ (f64Exp x - 1)

/-- A finite value, in units of `2^-1074`. -/
def f64Scaled (x : F64) : Int := if f64Sign x then -(f64Mag x : Int) else f64Mag x

/-- The value with the given sign and the given bits 62:0. -/
def f64Pack (neg : Bool) (low : Nat) : F64 := BitVec.ofNat 64 (if neg then 2 ^ 63 + low else low)

/-- Bits 62:0 of an infinity. -/
def f64InfLow : Nat := 2047 * 2 ^ 52

/-- An infinity. -/
def f64Inf (neg : Bool) : F64 := f64Pack neg f64InfLow

/-- `m` or `m + 1`, whichever is nearer to `m + r/d`; the even one of the two at half way. -/
def roundTiesEven (m r d : Nat) : Nat :=
  if d < 2 * r ∨ (2 * r = d ∧ m % 2 = 1) then m + 1 else m

/-- Bits 62:0 of `num/den` rounded to nearest, ties to even; an infinity on overflow
(40_complex_alu R111). With `q` the binade's exponent above the least one, the result has
`m < 2^53` units of `2^(q-1074)` and its bits are `q * 2^52 + m`. -/
def roundMag (num den : Nat) : Nat :=
  let scaled := num * 2 ^ 1074
  let q := Nat.log2 (scaled / den) - 52
  let d := den * 2 ^ q
  min (q * 2 ^ 52 + roundTiesEven (scaled / d) (scaled % d) d) f64InfLow

/-- `num/den` with a sign, rounded. -/
def roundRatio (neg : Bool) (num den : Nat) : F64 := f64Pack neg (roundMag num den)

/-- The NaN that an operation produces: sign and payload are free (40_complex_alu R113, U6). -/
def producedNaN (op : Config.FpOp) (a b : F64) : F64 :=
  let p := (Config.nanPayload op a b).toNat
  f64Pack (Config.nanSign op a b) (f64InfLow + (if p = 0 then 1 else p))

/-- The value with its sign changed. -/
def f64Neg (x : F64) : F64 := f64Pack (!f64Sign x) (x.toNat % 2 ^ 63)

/-- The sum of two values, with the NaN to give where the sum is one (40_complex_alu R111). -/
def f64Sum (nan a b : F64) : F64 :=
  if f64IsNaN a || f64IsNaN b then nan
  else if f64IsInf a then (if f64IsInf b && f64Sign a != f64Sign b then nan else a)
  else if f64IsInf b then b
  else
    let s := f64Scaled a + f64Scaled b
    if s = 0 then f64Pack (f64Sign a && f64Sign b) 0
    else roundRatio (decide (s < 0)) s.natAbs (2 ^ 1074)

/-- `fadd` (40_complex_alu R111). -/
def f64Add (a b : F64) : F64 := f64Sum (producedNaN .add a b) a b

/-- `fsub` (40_complex_alu R111). -/
def f64Sub (a b : F64) : F64 := f64Sum (producedNaN .sub a b) a (f64Neg b)

/-- `fmul` (40_complex_alu R111). -/
def f64Mul (a b : F64) : F64 :=
  let neg := f64Sign a != f64Sign b
  if f64IsNaN a || f64IsNaN b then producedNaN .mul a b
  else if f64IsInf a || f64IsInf b then
    (if f64IsZero a || f64IsZero b then producedNaN .mul a b else f64Inf neg)
  else roundRatio neg (f64Mag a * f64Mag b) (2 ^ 2148)

/-- `fdiv` (40_complex_alu R111). -/
def f64Div (a b : F64) : F64 :=
  let neg := f64Sign a != f64Sign b
  if f64IsNaN a || f64IsNaN b then producedNaN .div a b
  else if f64IsInf a then (if f64IsInf b then producedNaN .div a b else f64Inf neg)
  else if f64IsInf b then f64Pack neg 0
  else if f64IsZero b then (if f64IsZero a then producedNaN .div a b else f64Inf neg)
  else roundRatio neg (f64Mag a) (f64Mag b)

/-- `of_nat` (40_complex_alu R111). -/
def f64OfNat (n : Nat) : F64 := roundRatio false n 1

/-- `of_int` (40_complex_alu R111). -/
def f64OfInt (v : Int) : F64 := roundRatio (decide (v < 0)) v.natAbs 1

/-- `to_int` (40_complex_alu R110). -/
def f64ToInt (x : F64) : Option Int :=
  if f64IsFinite x && f64Mag x % 2 ^ 1074 == 0 then some (f64Scaled x / 2 ^ 1074) else none

/-- `ffloor` (40_complex_alu R111): an integral value, an infinity or a NaN is its own floor. -/
def f64Floor (x : F64) : F64 :=
  if f64IsFinite x && f64Mag x % 2 ^ 1074 != 0 then f64OfInt (f64Scaled x / 2 ^ 1074) else x

end Sys2Proof.Machine
end

