-- ==== Sys2Proof/Machine/Trig.lean ====
section
/-! DEFINITION. `fcos` and `fsin` of the default `Num`: the correctly rounded cosine and sine
(40_complex_alu R111), and the default `Num` itself. The exact value is enclosed between two
rational numbers, ever closer, until both ends round to the same binary64 value: first by three
enclosures of a fixed number of fractional bits, which the kernel can evaluate, then by an unbounded
search (log entry 8). -/

namespace Sys2Proof.Machine

/-- `π` times `2^1536`, rounded down. -/
def piScaled : Nat :=
  0x3243f6a8885a308d313198a2e03707344a4093822299f31d0082efa98ec4e6c89452821e638d01377be5466cf34e90c6cc0ac29b7c97c50dd3f84d5b5b54709179216d5d98979fb1bd1310ba698dfb5ac2ffd72dbd01adfb7b8e1afed6a267e96ba7c9045f12c7f9924a19947b3916cf70801f2e2858efc16636920d871574e69a458fea3f4933d7e0d95748f728eb658718bcd5882154aee7b54a41dc25a59b59c30d5392af26013c5d1b023286085f0ca417918b8db38ef8e79dcb0603a180e

/-- The quadrant of a non-negative number of `mag * 2^-1074` radians: how many times `π/2` fits. -/
def quadrant (mag : Nat) : Nat := mag * 2 ^ 463 / piScaled

/-- Twice the rest after the quadrants, in units of `2^-1536`. The true value is at most this and
at least this less the number of quadrants. -/
def restTwice (mag : Nat) : Nat := mag * 2 ^ 463 % piScaled

/-- A lower bound of the rest, in units of `2^-p`. -/
def restLow (mag p : Nat) : Nat := (restTwice mag - quadrant mag) / 2 ^ (1537 - p)

/-- An upper bound of the rest, in units of `2^-p`. -/
def restHigh (mag p : Nat) : Nat := restTwice mag / 2 ^ (1537 - p) + 1

/-- The alternating series `term - term*c²/((k+1)(k+2)) + ...` in units of `2^-p`, each term
rounded down; `c2` is `c²` in units of `2^-2p`. -/
def alternatingSeries (p c2 : Nat) : Nat → Nat → Nat → Int
  | 0, _, _ => 0
  | fuel + 1, k, term =>
    if term = 0 then 0
    else (term : Int) -
      alternatingSeries p c2 fuel (k + 2) (term * c2 / (2 ^ (2 * p) * ((k + 1) * (k + 2))))

/-- The sine of `c * 2^-p`, in units of `2^-p`. -/
def sineSeries (p c : Nat) : Int := alternatingSeries p (c * c) (p / 4) 1 c

/-- The cosine of `c * 2^-p`, in units of `2^-p`. -/
def cosineSeries (p c : Nat) : Int := alternatingSeries p (c * c) (p / 4) 0 (2 ^ p)

/-- The sine of `mag * 2^-1074` turned by `turns` quadrants, in units of `2^-p`:
`turns = 0` gives the sine, `turns = 1` the cosine. -/
def turnedSine (mag turns p : Nat) : Int :=
  let c := restLow mag p
  match (quadrant mag + turns) % 4 with
  | 0 => sineSeries p c
  | 1 => cosineSeries p c
  | 2 => -sineSeries p c
  | _ => -cosineSeries p c

/-- A bound of the error of `turnedSine`: the width of the rest's enclosure, and less than 2 for
each of at most 128 terms of the series. -/
def turnedSineError (mag p : Nat) : Nat := 256 + (restHigh mag p - restLow mag p)

/-- The binary64 value that both ends of an enclosure, two fractions, round to, if one. -/
def resolve (low : Int) (lowDen : Nat) (high : Int) (highDen : Nat) : Option F64 :=
  if 0 < low then
    (if roundMag low.toNat lowDen = roundMag high.toNat highDen
     then some (roundRatio false low.toNat lowDen) else none)
  else if high < 0 then
    (if roundMag (-low).toNat lowDen = roundMag (-high).toNat highDen
     then some (roundRatio true (-low).toNat lowDen) else none)
  else none

/-- What the enclosure with `p` fractional bits decides. -/
def seriesRounded (mag turns p : Nat) : Option F64 :=
  let v := turnedSine mag turns p
  let e : Int := turnedSineError mag p
  resolve (v - e) (2 ^ p) (v + e) (2 ^ p)

/-- What the first of the given precisions that decides the rounding gives. -/
def roundedSine (mag turns : Nat) (ps : List Nat) : Option F64 :=
  ps.findSome? (seriesRounded mag turns)

/-- The precisions tried. -/
def trigPrecisions : List Nat := [128, 256, 448]

/-- The first `n` terms of the power series of the sine (`turns = 0`) or the cosine (`turns = 1`). -/
def taylorSum (x : ℚ) (turns n : Nat) : ℚ :=
  ((List.range n).map fun j =>
    (-1) ^ j * (x ^ (2 * j + (1 - turns)) / (2 * j + (1 - turns)).factorial)).sum

/-- A bound of the terms of either series from the `n`-th on: `x^2n/(2n)!` times `3^⌈x⌉ ≥ e^x`. -/
def taylorError (x : ℚ) (n : Nat) : ℚ := x ^ (2 * n) / (2 * n).factorial * 3 ^ ⌈x⌉₊

/-- What `n` terms of the series decide. -/
def taylorRounded (x : ℚ) (turns n : Nat) : Option F64 :=
  let low := taylorSum x turns n - taylorError x n
  let high := taylorSum x turns n + taylorError x n
  resolve low.num low.den high.num high.den

/-- The first number of terms, from `n` on, that decides the rounding. The search ends for every
rational `x > 0`, because its sine and cosine are irrational. -/
def searchSine (x : ℚ) (turns n : Nat) : F64 :=
  match taylorRounded x turns n with
  | some r => r
  | none => searchSine x turns (n + 1)
partial_fixpoint

/-- The sine (`turns = 0`) or cosine (`turns = 1`) of `mag * 2^-1074`, correctly rounded. -/
def nearestSine (mag turns : Nat) : F64 :=
  (roundedSine mag turns trigPrecisions).getD (searchSine (mag / 2 ^ 1074) turns 0)

/-- Below `2^-27` a cosine rounds to 1 and a sine to its argument. -/
def f64IsTiny (x : F64) : Bool := decide (f64Mag x < 2 ^ 1047)

/-- `fcos` (40_complex_alu R111): an even function. -/
def f64Cos (x : F64) : F64 :=
  if !f64IsFinite x then producedNaN .cos x x
  else if f64IsTiny x then f64OfNat 1
  else nearestSine (f64Mag x) 1

/-- `fsin` (40_complex_alu R111): an odd function. -/
def f64Sin (x : F64) : F64 :=
  if !f64IsFinite x then producedNaN .sin x x
  else if f64IsTiny x then x
  else if f64Sign x then f64Neg (nearestSine (f64Mag x) 0)
  else nearestSine (f64Mag x) 0

/-- The default instantiation of `Num` (40_complex_alu R111; 00_scope R8), which the machine uses. -/
def num : Num F64 where
  fadd := f64Add
  fsub := f64Sub
  fmul := f64Mul
  fdiv := f64Div
  fcos := f64Cos
  fsin := f64Sin
  ffloor := f64Floor
  ofNat := f64OfNat
  ofInt := f64OfInt
  toInt := f64ToInt
  zero := 0#64
  pi := 0x400921FB54442D18#64
  half := 0x3FE0000000000000#64

end Sys2Proof.Machine
end

