-- ==== Sys2Proof/Machine/Units.lean ====
section
/-! DEFINITION. The complex functional units over any `Num`: adder, multiplier, divider, twiddle
generator (40_complex_alu R115 to R118). The order and grouping of the rounded operations is the
spec's (R114, 70_reset R270). -/

namespace Sys2Proof.Machine

variable {F : Type}

/-- `cadd` (40_complex_alu R115). -/
def cadd (N : Num F) (a b : Cplx F) : Cplx F := ⟨N.fadd a.re b.re, N.fadd a.im b.im⟩

/-- `cmul` (40_complex_alu R116): four products, one difference, one sum. -/
def cmul (N : Num F) (a b : Cplx F) : Cplx F :=
  ⟨N.fsub (N.fmul a.re b.re) (N.fmul a.im b.im), N.fadd (N.fmul a.re b.im) (N.fmul a.im b.re)⟩

/-- `cdivr` (40_complex_alu R117). -/
def cdivr (N : Num F) (a : Cplx F) (r : F) : Cplx F := ⟨N.fdiv a.re r, N.fdiv a.im r⟩

/-- The angle of a twiddle, `2π` times `i` first, divided by `sz` second (40_complex_alu R118). -/
def twiddleAngle (N : Num F) (i sz : Nat) : F := N.fdiv (N.fmul N.twoPi (N.ofNat i)) (N.ofNat sz)

/-- `TW(i, sz)` (40_complex_alu R118): the positive-exponent twiddle. -/
def twiddle (N : Num F) (i sz : Nat) : Cplx F :=
  ⟨N.fcos (twiddleAngle N i sz), N.fsin (twiddleAngle N i sz)⟩

end Sys2Proof.Machine
end

