-- ==== Sys2Proof/Machine/ComplexAlu.lean ====
section
/-! DEFINITION. The commands on the complex scalar registers (40_complex_alu R119 to R126). Sources
are read before the destination is written (10_state R23). -/

namespace Sys2Proof.Machine

/-- `ZWR zd` (40_complex_alu R119): every bit pattern is stored unchanged. -/
def execZwr (zd : ZReg) (s : State) : StepResult :=
  s.command (wrote (s.setZ zd (dinComplex s.inputs.din)))

/-- `ZRD za` (40_complex_alu R120). -/
def execZrd (za : ZReg) (s : State) : StepResult :=
  s.command (answered s (doutComplex (s.zReg za)))

/-- `ZLD zd, idx` (40_complex_alu R121). -/
def execZld (zd : ZReg) (idx : BitVec 64) (s : State) : StepResult :=
  s.command (if s.xLen.toNat ≤ idx.toNat then .error .index
    else wrote (s.setZ zd (s.xElem idx.toNat)))

/-- `ZST za, idx` (40_complex_alu R122): never extends the sequence. -/
def execZst (za : ZReg) (idx : BitVec 64) (s : State) : StepResult :=
  s.command (if s.xLen.toNat ≤ idx.toNat then .error .index
    else wrote (s.setX idx.toNat (s.zReg za)))

/-- `CADD zd, za, zb` (40_complex_alu R123). -/
def execCadd (zd za zb : ZReg) (s : State) : StepResult :=
  s.command (wrote (s.setZ zd (cadd num (s.zReg za) (s.zReg zb))))

/-- `CMUL zd, za, zb` (40_complex_alu R124). -/
def execCmul (zd za zb : ZReg) (s : State) : StepResult :=
  s.command (wrote (s.setZ zd (cmul num (s.zReg za) (s.zReg zb))))

/-- `CDIVR zd, za, n` (40_complex_alu R125): a zero divisor is no error. -/
def execCdivr (zd za : ZReg) (n : BitVec 64) (s : State) : StepResult :=
  s.command (wrote (s.setZ zd (cdivr num (s.zReg za) (num.ofNat n.toNat))))

/-- `TWID zd, i, sz` (40_complex_alu R126): `i ≥ sz` and `sz = 0` are no errors. -/
def execTwid (zd : ZReg) (i sz : BitVec 32) (s : State) : StepResult :=
  s.command (wrote (s.setZ zd (twiddle num i.toNat sz.toNat)))

end Sys2Proof.Machine
end

