-- ==== Sys2Proof/Machine/Container.lean ====
section
/-! DEFINITION. The Container Model: header parsing, duration, and the commands on the file and the
payload (42_container R172 to R187). -/

namespace Sys2Proof.Machine

/-- Little-endian assembly of a byte sequence (00_scope R13, 20_memory R61). -/
def leNat : List Byte → Nat
  | [] => 0
  | b :: bs => b.toNat + 2 ^ 8 * leNat bs

/-- `le_32` of the four bytes of `b` at an offset (20_memory R61). -/
def le32At (b : List Byte) (o : Nat) : BitVec 32 := BitVec.ofNat 32 (leNat ((b.drop o).take 4))

/-- `le_16` of the two bytes of `b` at an offset (20_memory R61). -/
def le16At (b : List Byte) (o : Nat) : BitVec 16 := BitVec.ofNat 16 (leNat ((b.drop o).take 2))

/-- `ParseHeader` (42_container R172, 30_encoding R90): fixed offsets, nothing is checked. -/
def parseHeader (b : List Byte) : Header where
  chunkId := le32At b 0
  chunkSize := le32At b 4
  format := le32At b 8
  subchunk1Id := le32At b 12
  subchunk1Size := le32At b 16
  audioFormat := le16At b 20
  numChannels := le16At b 22
  sampleRate := le32At b 24
  byteRate := le32At b 28
  blockAlign := le16At b 32
  bitsPerSample := le16At b 34
  subchunk2Id := le32At b 36
  subchunk2Size := le32At b 40

/-- Whole seconds as hours, minutes and seconds, hours not reduced (42_container R173). -/
def splitSeconds (t : Nat) : Duration where
  hours := BitVec.ofNat 32 (t / 3600)
  minutes := BitVec.ofNat 32 (t % 3600 / 60)
  seconds := BitVec.ofNat 32 (t % 60)

/-- `Duration` (42_container R173, R174): integer divisions, a zero divisor is an error. -/
def duration (h : Header) : Except ErrCode Duration :=
  let bps := h.bitsPerSample.toNat / 8
  if bps = 0 ∨ h.numChannels.toNat = 0 ∨ h.sampleRate.toNat = 0 then .error .divZero
  else .ok (splitSeconds
    (h.subchunk2Size.toNat / bps / h.numChannels.toNat / h.sampleRate.toNat))

/-- What `LOAD` derives from a source's content, or the error it raises, in the order of
42_container R175. -/
def deriveFile (bytes : List Byte) : Except ErrCode Derived :=
  if Config.BUFMAX < bytes.length then .error .cap
  else if bytes.length < Config.HDRLEN then .error .short
  else
    let h := parseHeader (bytes.take Config.HDRLEN)
    (duration h).map fun d => ⟨h, d⟩

/-- `LOAD` (42_container R175). -/
def execLoad (s : State) : StepResult :=
  s.command (match s.inputs.source with
    | .absent => .error .notFound
    | .present bytes =>
      (deriveFile bytes).bind fun d => wrote { s.setBuf bytes with derived := some d })

/-- `SAVE` (42_container R180): the buffer verbatim, no state changes. -/
def execSave (s : State) : StepResult :=
  s.command (if s.inputs.sinkOk then .ok ⟨s, 0#128, some s.bufBytes⟩ else .error .unwritable)

/-- `EXTRACT` (42_container R183). -/
def execExtract (s : State) : StepResult :=
  s.command (if s.bufLen.toNat < Config.HDRLEN then .error .short
    else wrote (s.setPaySeq (s.bufBytes.drop Config.HDRLEN)))

/-- `UPDATE` (42_container R184): `BUF[44..BUFLEN)` becomes `PAY[0..PAYLEN)`. -/
def execUpdate (s : State) : StepResult :=
  s.command (if s.bufLen.toNat < Config.HDRLEN then .error .short
    else if s.payLen.toNat ≠ s.bufLen.toNat - Config.HDRLEN then .error .invalidArg
    else wrote (s.setBuf (s.bufBytes.take Config.HDRLEN ++ s.payBytes)))

/-- `PSETLEN n` (42_container R185). -/
def execPsetlen (n : BitVec 64) (s : State) : StepResult :=
  s.command (if Config.BUFMAX < n.toNat then .error .cap else wrote (s.setPayLen n))

/-- `PWR idx` (42_container R186): `DIN[7:0]` only. -/
def execPwr (idx : BitVec 64) (s : State) : StepResult :=
  s.command (if s.payLen.toNat ≤ idx.toNat then .error .index
    else wrote (s.setPay idx.toNat (dinByte s.inputs.din)))

/-- `PRD idx` (42_container R187). -/
def execPrd (idx : BitVec 64) (s : State) : StepResult :=
  s.command (if s.payLen.toNat ≤ idx.toNat then .error .index
    else answered s (doutByte (s.payByte idx.toNat)))

end Sys2Proof.Machine
end

