-- ==== Sys2Proof/Machine/Quantizer.lean ====
section
/-! DEFINITION. Lifting payload bytes to complex samples and quantizing real parts back to bytes
(43_quantizer R201 to R204). -/

namespace Sys2Proof.Machine

variable {F : Type}

/-- `byteval` (43_quantizer R201). -/
def byteval (signed : Bool) (b : Byte) : Int := if signed then b.toInt else (b.toNat : Int)

/-- `Lift` (43_quantizer R201). -/
def liftBytes (N : Num F) (signed : Bool) (bytes : List Byte) : List (Cplx F) :=
  bytes.map fun b => ⟨N.ofInt (byteval signed b), N.zero⟩

/-- The least integer a sample can be (43_quantizer R203). -/
def sampleLow (signed : Bool) : Int := if signed then -128 else 0

/-- The greatest integer a sample can be (43_quantizer R203). -/
def sampleHigh (signed : Bool) : Int := if signed then 127 else 255

/-- `Quant` (43_quantizer R203): `floor(x + 0.5)` of the real part, narrowed to a byte; a value that
does not fit, an infinity or a NaN is an error. -/
def quantize (N : Num F) (signed : Bool) (v : Cplx F) : Except ErrCode Byte :=
  match N.toInt (N.ffloor (N.fadd v.re N.half)) with
  | none => .error .qRange
  | some n =>
    if n < sampleLow signed ∨ sampleHigh signed < n then .error .qRange else .ok (BitVec.ofInt 8 n)

/-- `Quant` of each element in order; any error is the error of the whole (43_quantizer R204). -/
def quantizeAll (N : Num F) (signed : Bool) : List (Cplx F) → Except ErrCode (List Byte)
  | [] => .ok []
  | v :: vs => (quantize N signed v).bind fun b =>
      (quantizeAll N signed vs).map fun bs => b :: bs

/-- `LIFT` (43_quantizer R202): no padding. -/
def execLift (s : State) : StepResult :=
  s.command (if Config.NMAX < s.payLen.toNat then .error .cap
    else wrote (s.setXSeq (liftBytes num Config.sampleSigned s.payBytes)))

/-- `QUANT count` (43_quantizer R204): only the first `count` elements are read. -/
def execQuant (count : BitVec 64) (s : State) : StepResult :=
  s.command (if s.xLen.toNat < count.toNat then .error .index
    else if Config.BUFMAX < count.toNat then .error .cap
    else (quantizeAll num Config.sampleSigned (Memory.toList czero s.x count.toNat)).bind
      fun bytes => wrote (s.setPaySeq bytes))

end Sys2Proof.Machine
end

