-- ==== Sys2Proof/Machine/System.lean ====
section
/-! DEFINITION. The system commands `RST` and `RDCSR` (44_system R215, R216). -/

namespace Sys2Proof.Machine

/-- `RST` (44_system R215): executed whether or not the engine is halted. -/
def execRst (s : State) : StepResult := .next (s.resetEngine.respond 0#128)

/-- `RDCSR n` (44_system R216). -/
def execRdcsr (n : BitVec 64) (s : State) : StepResult :=
  s.readCommand ((s.readCsr n.toNat).bind fun v => answered s (doutWord v))

end Sys2Proof.Machine
end

