-- ==== Sys2Proof/Machine/Sequences.lean ====
section
/-! DEFINITION. The pure sequence functions `Pad`, `T` and `IT` over any `Num`
(41_transform R143, R146, R150). -/

namespace Sys2Proof.Machine

variable {F : Type}

/-- `len(Pad(x))` for a sequence of length `n`: 0 for 0, else the least power of two at or above
`n` (41_transform R143). -/
def padLength (n : Nat) : Nat :=
  if n = 0 then 0 else if n = 1 then 1 else 2 ^ (Nat.log2 (n - 1) + 1)

/-- `Pad` (41_transform R143). -/
def pad (N : Num F) (x : List (Cplx F)) : List (Cplx F) :=
  x ++ List.replicate (padLength x.length - x.length) N.czero

/-- `[p[2*j] | j in 0 .. half-1]` (41_transform R146). -/
def evens (N : Num F) (p : List (Cplx F)) : List (Cplx F) :=
  (List.range (p.length / 2)).map fun j => p.getD (2 * j) N.czero

/-- `[p[2*j + 1] | j in 0 .. half-1]` (41_transform R146). -/
def odds (N : Num F) (p : List (Cplx F)) : List (Cplx F) :=
  (List.range (p.length / 2)).map fun j => p.getD (2 * j + 1) N.czero

/-- One output of the combine step: `E[i mod half] + TW(i, sz) * O[i mod half]`
(41_transform R146). -/
def butterfly (N : Num F) (sz : Nat) (ev od : List (Cplx F)) (i : Nat) : Cplx F :=
  cadd N (ev.getD (i % (sz / 2)) N.czero)
    (cmul N (twiddle N i sz) (od.getD (i % (sz / 2)) N.czero))

/-- The combine step over the full range `0 .. sz-1` (41_transform R146; 70_reset R271). -/
def combine (N : Num F) (sz : Nat) (ev od : List (Cplx F)) : List (Cplx F) :=
  (List.range sz).map (butterfly N sz ev od)

/-- `T` with a bound on the depth of the recursion. -/
def transformFuel (N : Num F) : Nat → List (Cplx F) → List (Cplx F)
  | 0, x => x
  | fuel + 1, x =>
    if x.length < 2 then x
    else combine N (pad N x).length (transformFuel N fuel (evens N (pad N x)))
      (transformFuel N fuel (odds N (pad N x)))

/-- `T`, the core transform (41_transform R146). The depth of the recursion is below the length
(R147 (a), (d)), so the bound is never met. -/
def transform (N : Num F) (x : List (Cplx F)) : List (Cplx F) := transformFuel N x.length x

/-- Index 0 stays, indices `1 .. n-1` are reversed (41_transform R150). -/
def reverseTail {α : Type} : List α → List α
  | [] => []
  | d :: ds => d :: ds.reverse

/-- `IT` (41_transform R150): transform, divide by the padded length, then reverse the tail. -/
def inverseTransform (N : Num F) (x : List (Cplx F)) : List (Cplx F) :=
  let y := transform N x
  reverseTail (y.map fun v => cdivr N v (N.ofNat y.length))

end Sys2Proof.Machine
end

