-- ==== Sys2Proof/Machine/Transform.lean ====
section
/-! DEFINITION. The commands on the sequence memory (41_transform R141 to R153). -/

namespace Sys2Proof.Machine

/-- `XSETLEN n` (41_transform R141). -/
def execXsetlen (n : BitVec 64) (s : State) : StepResult :=
  s.command (if Config.NMAX < n.toNat then .error .cap else wrote (s.setXLen n))

/-- `XWR idx` (41_transform R142): every bit pattern is stored unchanged. -/
def execXwr (idx : BitVec 64) (s : State) : StepResult :=
  s.command (if s.xLen.toNat ≤ idx.toNat then .error .index
    else wrote (s.setX idx.toNat (dinComplex s.inputs.din)))

/-- `XRD idx` (41_transform R144). -/
def execXrd (idx : BitVec 64) (s : State) : StepResult :=
  s.command (if s.xLen.toNat ≤ idx.toNat then .error .index
    else answered s (doutComplex (s.xElem idx.toNat)))

/-- `PAD` (41_transform R145). -/
def execPad (s : State) : StepResult := s.command (wrote (s.setXSeq (pad num s.xSeq)))

/-- `FFT` (41_transform R149). -/
def execFft (s : State) : StepResult := s.command (wrote (s.setXSeq (transform num s.xSeq)))

/-- `IFFT` (41_transform R151). -/
def execIfft (s : State) : StepResult :=
  s.command (wrote (s.setXSeq (inverseTransform num s.xSeq)))

/-- `ZTAIL k` (41_transform R153): `k = XLEN` is legal and zeroes nothing. -/
def execZtail (k : BitVec 64) (s : State) : StepResult :=
  s.command (if s.xLen.toNat < k.toNat then .error .index else wrote (s.zeroXFrom k.toNat))

end Sys2Proof.Machine
end

