-- ==== Sys2Proof/Machine/Dispatch.lean ====
section
/-! DEFINITION. The meaning of every command: one arm per constructor of `Instr`. -/

namespace Sys2Proof.Machine

def exec (i : Instr) (s : State) : Host.Outcome State Fault Refusal :=
  match i with
  | .rst => Sys2Proof.Machine.execRst s
  | .rdcsr n => Sys2Proof.Machine.execRdcsr n s
  | .zwr zd => Sys2Proof.Machine.execZwr zd s
  | .zrd za => Sys2Proof.Machine.execZrd za s
  | .zld zd idx => Sys2Proof.Machine.execZld zd idx s
  | .zst za idx => Sys2Proof.Machine.execZst za idx s
  | .cadd zd za zb => Sys2Proof.Machine.execCadd zd za zb s
  | .cmul zd za zb => Sys2Proof.Machine.execCmul zd za zb s
  | .cdivr zd za n => Sys2Proof.Machine.execCdivr zd za n s
  | .twid zd k sz => Sys2Proof.Machine.execTwid zd k sz s
  | .xsetlen n => Sys2Proof.Machine.execXsetlen n s
  | .xwr idx => Sys2Proof.Machine.execXwr idx s
  | .xrd idx => Sys2Proof.Machine.execXrd idx s
  | .pad => Sys2Proof.Machine.execPad s
  | .fft => Sys2Proof.Machine.execFft s
  | .ifft => Sys2Proof.Machine.execIfft s
  | .ztail k => Sys2Proof.Machine.execZtail k s
  | .load => Sys2Proof.Machine.execLoad s
  | .save => Sys2Proof.Machine.execSave s
  | .extract => Sys2Proof.Machine.execExtract s
  | .update => Sys2Proof.Machine.execUpdate s
  | .psetlen n => Sys2Proof.Machine.execPsetlen n s
  | .pwr idx => Sys2Proof.Machine.execPwr idx s
  | .prd idx => Sys2Proof.Machine.execPrd idx s
  | .lift => Sys2Proof.Machine.execLift s
  | .quant count => Sys2Proof.Machine.execQuant count s

end Sys2Proof.Machine
end

