-- ==== Sys2Proof/WellFormed.lean ====
section
/-! DEFINITION. When a request is well-formed (30_encoding R85, R86, R87, R95): its opcode is
assigned and every field its command does not use is zero. The terms of `Instr` need no check of
their own: their operands' types hold exactly what the fields hold. -/

namespace Sys2Proof

/-- One row of the opcode map: the opcode and the fields the command uses (30_encoding R85). -/
structure OpcodeRow where
  op : Nat
  usesZd : Bool
  usesZa : Bool
  usesZb : Bool
  usesArg : Bool
deriving DecidableEq, Repr

/-- Rows of the opcode map whose command uses no field, or `ARG` alone. -/
def plainRow (op : Nat) (usesArg : Bool) : OpcodeRow := ⟨op, false, false, false, usesArg⟩

/-- The opcode map (30_encoding R85), in its order. -/
def opcodeMap : List OpcodeRow :=
  [ plainRow 0x01 false, plainRow 0x02 true,
    ⟨0x10, true, false, false, false⟩, ⟨0x11, false, true, false, false⟩,
    ⟨0x12, true, false, false, true⟩, ⟨0x13, false, true, false, true⟩,
    ⟨0x14, true, true, true, false⟩, ⟨0x15, true, true, true, false⟩,
    ⟨0x16, true, true, false, true⟩, ⟨0x17, true, false, false, true⟩ ] ++
  [ plainRow 0x20 true, plainRow 0x21 true, plainRow 0x22 true, plainRow 0x23 false,
    plainRow 0x24 false, plainRow 0x25 false, plainRow 0x26 true ] ++
  [ plainRow 0x30 false, plainRow 0x31 false, plainRow 0x32 false, plainRow 0x33 false,
    plainRow 0x34 true, plainRow 0x35 true, plainRow 0x36 true,
    plainRow 0x40 false, plainRow 0x41 true ]

/-- The request has the row's opcode and zero in every field the row does not use: the fields are
`op` 7:0, `zd` 9:8, `za` 11:10, `zb` 13:12, reserved 31:14 (30_encoding R81). -/
def OpcodeRow.selects (r : OpcodeRow) (cmd : BitVec 32) (arg : BitVec 64) : Bool :=
  cmd.extractLsb' 14 18 == 0#18 && cmd.extractLsb' 0 8 == BitVec.ofNat 8 r.op &&
  (r.usesZd || cmd.extractLsb' 8 2 == 0#2) && (r.usesZa || cmd.extractLsb' 10 2 == 0#2) &&
  (r.usesZb || cmd.extractLsb' 12 2 == 0#2) && (r.usesArg || arg == 0#64)

/-- A well-formed request: some row of the opcode map selects it (30_encoding R86, R87, R95). -/
def wellFormedRequest (cmd : BitVec 32) (arg : BitVec 64) : Bool :=
  opcodeMap.any fun r => r.selects cmd arg

/-- The row's "mask" of opcode_table.json: ones in the bits of `CMD` the row fixes. -/
def OpcodeRow.mask (r : OpcodeRow) : Nat :=
  0xFFFFC0FF + (if r.usesZd then 0 else 0x300) + (if r.usesZa then 0 else 0xC00) +
  (if r.usesZb then 0 else 0x3000)

end Sys2Proof
end

