-- ==== Sys2Proof/Decode.lean ====
section
/-! DEFINITION. Decoding a request into a command, total and rejecting by name, and the encoder
(30_encoding R81, R82, R85, R86, R87, R93, R95). -/

namespace Sys2Proof

/-- Why a request is no command; each raises `E_ILLEGAL` (30_encoding R86, R87). -/
inductive DecodeError where
  /-- `CMD[31:14]` is not 0 -/
  | reservedBits
  /-- `CMD[7:0]` is not in the opcode map -/
  | unassignedOpcode
  /-- a register field that the command does not use is not 0 -/
  | unusedRegister
  /-- `ARG` is not 0 and the command does not use it -/
  | unusedArg
deriving DecidableEq, Repr

/-- `w[lo+n-1 : lo]` as a natural number (00_scope R10). -/
def slice {w : Nat} (v : BitVec w) (lo n : Nat) : Nat := v.toNat / 2 ^ lo % 2 ^ n

/-- `CMD[7:0]` (30_encoding R81). -/
def fieldOp (cmd : BitVec 32) : Nat := slice cmd 0 8
/-- `CMD[9:8]` (30_encoding R81). -/
def fieldZd (cmd : BitVec 32) : Nat := slice cmd 8 2
/-- `CMD[11:10]` (30_encoding R81). -/
def fieldZa (cmd : BitVec 32) : Nat := slice cmd 10 2
/-- `CMD[13:12]` (30_encoding R81). -/
def fieldZb (cmd : BitVec 32) : Nat := slice cmd 12 2
/-- `CMD[31:14]` (30_encoding R81). -/
def fieldReserved (cmd : BitVec 32) : Nat := slice cmd 14 18

/-- A register field as a register number. -/
def regOf (field : Nat) : ZReg := Fin.ofNat 4 field

/-- Accept `i` if the fields its command does not use are zero (30_encoding R86). -/
def requireZero (unusedRegisters : List Nat) (unusedArg : Option (BitVec 64)) (i : Instr) :
    Except DecodeError Instr :=
  if unusedRegisters.any (· != 0) then .error .unusedRegister
  else if unusedArg.any (· != 0#64) then .error .unusedArg
  else .ok i

/-- The command of an opcode with its operands, or why there is none (30_encoding R85). -/
def decodeOp (op zd za zb : Nat) (arg : BitVec 64) : Except DecodeError Instr :=
  match op with
  | 0x01 => requireZero [zd, za, zb] (some arg) .rst
  | 0x02 => requireZero [zd, za, zb] none (.rdcsr arg)
  | 0x10 => requireZero [za, zb] (some arg) (.zwr (regOf zd))
  | 0x11 => requireZero [zd, zb] (some arg) (.zrd (regOf za))
  | 0x12 => requireZero [za, zb] none (.zld (regOf zd) arg)
  | 0x13 => requireZero [zd, zb] none (.zst (regOf za) arg)
  | 0x14 => requireZero [] (some arg) (.cadd (regOf zd) (regOf za) (regOf zb))
  | 0x15 => requireZero [] (some arg) (.cmul (regOf zd) (regOf za) (regOf zb))
  | 0x16 => requireZero [zb] none (.cdivr (regOf zd) (regOf za) arg)
  | 0x17 => requireZero [za, zb] none
      (.twid (regOf zd) (BitVec.ofNat 32 (slice arg 0 32)) (BitVec.ofNat 32 (slice arg 32 32)))
  | 0x20 => requireZero [zd, za, zb] none (.xsetlen arg)
  | 0x21 => requireZero [zd, za, zb] none (.xwr arg)
  | 0x22 => requireZero [zd, za, zb] none (.xrd arg)
  | 0x23 => requireZero [zd, za, zb] (some arg) .pad
  | 0x24 => requireZero [zd, za, zb] (some arg) .fft
  | 0x25 => requireZero [zd, za, zb] (some arg) .ifft
  | 0x26 => requireZero [zd, za, zb] none (.ztail arg)
  | 0x30 => requireZero [zd, za, zb] (some arg) .load
  | 0x31 => requireZero [zd, za, zb] (some arg) .save
  | 0x32 => requireZero [zd, za, zb] (some arg) .extract
  | 0x33 => requireZero [zd, za, zb] (some arg) .update
  | 0x34 => requireZero [zd, za, zb] none (.psetlen arg)
  | 0x35 => requireZero [zd, za, zb] none (.pwr arg)
  | 0x36 => requireZero [zd, za, zb] none (.prd arg)
  | 0x40 => requireZero [zd, za, zb] (some arg) .lift
  | 0x41 => requireZero [zd, za, zb] none (.quant arg)
  | _ => .error .unassignedOpcode

/-- The decoder (30_encoding R95 step 2): total on every `CMD` and `ARG`. -/
def decode (cmd : BitVec 32) (arg : BitVec 64) : Except DecodeError Instr :=
  if fieldReserved cmd ≠ 0 then .error .reservedBits
  else decodeOp (fieldOp cmd) (fieldZd cmd) (fieldZa cmd) (fieldZb cmd) arg

/-- Format C (30_encoding R81): the command word of an opcode and its register fields. -/
def formatC (op : Nat) (zd za zb : ZReg) : BitVec 32 :=
  BitVec.ofNat 32 (op + 2 ^ 8 * zd.val + 2 ^ 10 * za.val + 2 ^ 12 * zb.val)

/-- The `CMD` and `ARG` of a command (30_encoding R81, R82, R85). -/
def encode : Instr → BitVec 32 × BitVec 64
  | .rst => (formatC 0x01 0 0 0, 0)
  | .rdcsr n => (formatC 0x02 0 0 0, n)
  | .zwr zd => (formatC 0x10 zd 0 0, 0)
  | .zrd za => (formatC 0x11 0 za 0, 0)
  | .zld zd idx => (formatC 0x12 zd 0 0, idx)
  | .zst za idx => (formatC 0x13 0 za 0, idx)
  | .cadd zd za zb => (formatC 0x14 zd za zb, 0)
  | .cmul zd za zb => (formatC 0x15 zd za zb, 0)
  | .cdivr zd za n => (formatC 0x16 zd za 0, n)
  | .twid zd i sz => (formatC 0x17 zd 0 0, BitVec.ofNat 64 (sz.toNat * 2 ^ 32 + i.toNat))
  | .xsetlen n => (formatC 0x20 0 0 0, n)
  | .xwr idx => (formatC 0x21 0 0 0, idx)
  | .xrd idx => (formatC 0x22 0 0 0, idx)
  | .pad => (formatC 0x23 0 0 0, 0)
  | .fft => (formatC 0x24 0 0 0, 0)
  | .ifft => (formatC 0x25 0 0 0, 0)
  | .ztail k => (formatC 0x26 0 0 0, k)
  | .load => (formatC 0x30 0 0 0, 0)
  | .save => (formatC 0x31 0 0 0, 0)
  | .extract => (formatC 0x32 0 0 0, 0)
  | .update => (formatC 0x33 0 0 0, 0)
  | .psetlen n => (formatC 0x34 0 0 0, n)
  | .pwr idx => (formatC 0x35 0 0 0, idx)
  | .prd idx => (formatC 0x36 0 0 0, idx)
  | .lift => (formatC 0x40 0 0 0, 0)
  | .quant count => (formatC 0x41 0 0 0, count)

/-- `CMD` of an instruction given as one number of `nbits` bits: its lowest 32 bits. -/
def tableCmd (nbits w : Nat) : BitVec 32 := BitVec.ofNat 32 (w % 2 ^ nbits)

/-- `ARG` of an instruction given as one number of `nbits` bits: the 64 bits above `CMD`,
zero where the number ends before. -/
def tableArg (nbits w : Nat) : BitVec 64 := BitVec.ofNat 64 (w % 2 ^ nbits / 2 ^ 32)

/-- What the decoder reads from an instruction given as one number of `nbits` bits. -/
def decodeTableWord (nbits w : Nat) : Option Instr :=
  (decode (tableCmd nbits w) (tableArg nbits w)).toOption

end Sys2Proof
end

