-- ==== Sys2Proof/Machine/Transaction.lean ====
section
/-! DEFINITION. The engine's side of a transaction (30_encoding R80, 44_system R219, R220): taking
the host's next move, and decoding a request. -/

namespace Sys2Proof.Machine

/-- What the host does next, with the state in which the engine meets it. -/
inductive Incoming where
  /-- the host has no move left: the engine stays idle (60_exceptions R248) -/
  | nothing
  /-- hardware reset (70_reset R260) -/
  | hardwareReset (s : State)
  /-- a request that selects a command (30_encoding R95) -/
  | command (i : Instr) (s : State)
  /-- a request that selects none (30_encoding R95) -/
  | illegal (s : State)

/-- Present a request: its data inputs are on the ports while it is executed. -/
def State.present (s : State) (r : Request) (rest : List HostMove) : State :=
  { s with host := rest, inputs := r.inputs }

/-- Take the host's next move and decode it. -/
def State.receive (s : State) : Incoming :=
  match s.host with
  | [] => .nothing
  | .hardwareReset :: rest => .hardwareReset { s with host := rest }
  | .request r :: rest =>
    match decode r.cmd r.arg with
    | .ok i => .command i (s.present r rest)
    | .error _ => .illegal (s.present r rest)

/-- The request that carries an instruction given as one number: `CMD` in its low 32 bits, `ARG`
above, and the data inputs that stand on the ports. -/
def State.tableRequest (s : State) (nbits w : Nat) : Request :=
  ⟨tableCmd nbits w, tableArg nbits w, s.inputs⟩

end Sys2Proof.Machine
end

