-- ==== Sys2Proof/Machine/Step.lean ====
section
/-! DEFINITION. One step of the machine: the engine meets the host's next move
(44_system R219, R220). -/

namespace Sys2Proof.Machine

/-- One step. With no move left, nothing happens (log entry 3). -/
def step (s : State) : Host.Outcome State Fault Refusal :=
  match s.receive with
  | .nothing => .next s
  | .hardwareReset t => .next t.resetEngine
  | .command i t => exec i t
  | .illegal t => .next t.illegalRequest

/-- The state in which the host's next request carries the instruction `w` (log entry 2). -/
def State.withFetchWord (s : State) (nbits w : Nat) : State :=
  { s with host := .request (s.tableRequest nbits w) :: s.host }

end Sys2Proof.Machine
end

