-- ==== Sys2Proof/Exact.lean ====
section
/-! DEFINITION. The record `Num` of exact arithmetic, for the statements the spec makes about it
(40_complex_alu R127; 41_transform R147 (e), R152): the real numbers with exact cosine and sine; and
the real numbers that binary64 values stand for. No part of the machine uses it. -/

namespace Sys2Proof.Machine

/-- Exact arithmetic as a `Num`. -/
noncomputable def exactNum : Num ℝ where
  fadd := fun a b => a + b
  fsub := fun a b => a - b
  fmul := fun a b => a * b
  fdiv := fun a b => a / b
  fcos := Real.cos
  fsin := Real.sin
  ffloor := fun a => (⌊a⌋ : ℝ)
  ofNat := fun n => (n : ℝ)
  ofInt := fun v => (v : ℝ)
  toInt := fun a => if (⌊a⌋ : ℝ) = a then some ⌊a⌋ else none
  zero := 0
  pi := Real.pi
  half := 1 / 2

/-- A pair of real numbers as a complex number. -/
noncomputable def pairToComplex (v : Cplx ℝ) : ℂ := ⟨v.re, v.im⟩

/-- `e^(+2πi·j·k/sz)`. -/
noncomputable def rootOfUnity (j k sz : ℕ) : ℂ :=
  Complex.exp (2 * Real.pi * Complex.I * j * k / sz)

/-- The real number that a finite binary64 value stands for. -/
noncomputable def f64Real (x : F64) : ℝ := (f64Scaled x : ℝ) / 2 ^ 1074

/-- `r` is a finite binary64 value nearest to `y`, the one with an even last bit where two are
equally near: the rounding of a `y` too small to overflow (40_complex_alu R111). -/
def RoundsToReal (r : F64) (y : ℝ) : Prop :=
  f64IsFinite r = true ∧ ∀ v : F64, f64IsFinite v = true →
    |f64Real r - y| ≤ |f64Real v - y| ∧
    (|f64Real r - y| = |f64Real v - y| → f64Scaled v ≠ f64Scaled r → r.toNat % 2 = 0)

end Sys2Proof.Machine
end

