-- ==== Sys2Proof/Safety.lean ====
section
/-! DEFINITION. The terms in which claims about the machine are stated: the invariant of the engine,
what it means that a step leaves the engine alone, and which errors a command can raise. -/

namespace Sys2Proof.Machine

/-- The two states have the same architectural state (10_state R20); what the host has still to do,
the data inputs and the responses may differ. -/
structure State.SameEngine (s t : State) : Prop where
  z : t.z = s.z
  x : t.x = s.x
  xLen : t.xLen = s.xLen
  buf : t.buf = s.buf
  bufLen : t.bufLen = s.bufLen
  pay : t.pay = s.pay
  payLen : t.payLen = s.payLen
  derived : t.derived = s.derived
  halt : t.halt = s.halt
  err : t.err = s.err

/-- The invariant of the engine. -/
structure State.Inv (s : State) : Prop where
  /-- the memories keep their canonical form -/
  xWf : Memory.wf czero s.x
  bufWf : Memory.wf 0#8 s.buf
  payWf : Memory.wf 0#8 s.pay
  /-- no cell exists at or beyond a length (10_state R25, R28, R30) -/
  xWithin : Memory.within s.x s.xLen.toNat
  bufWithin : Memory.within s.buf s.bufLen.toNat
  payWithin : Memory.within s.pay s.payLen.toNat
  /-- the lengths stay within the capacities (10_state R20) -/
  xCap : s.xLen.toNat ≤ Config.NMAX
  bufCap : s.bufLen.toNat ≤ Config.BUFMAX
  payCap : s.payLen.toNat ≤ Config.BUFMAX
  /-- `BUFLEN` is 0 or at least 44, and 0 exactly while `HDRV = 0` (42_container R178) -/
  fileLoaded : s.bufLen.toNat = 0 ∧ s.derived = none ∨
    Config.HDRLEN ≤ s.bufLen.toNat ∧ s.derived.isSome
  /-- `HDR` is the parse of `BUF[0..44)` and `DUR` its duration (10_state R32) -/
  derivedOfBuf : ∀ d, s.derived = some d →
    d.hdr = parseHeader (s.bufBytes.take Config.HDRLEN) ∧ duration d.hdr = .ok d.dur
  /-- `ERR` is 0 exactly while `STATUS.HALT = 0` (10_state R36) -/
  errOfHalt : s.halt = false ↔ s.err = 0#8
  /-- codes 11 to 255 never occur (60_exceptions R226) -/
  errCode : s.err.toNat ≤ 10

/-- Every response of the run so far is `OK` (44_system R219). -/
def State.CompletedWithoutError (s : State) : Prop := ∀ r ∈ s.responses, r.rsp = .ok

/-- The errors a command can raise once it is decoded, in the order in which it checks for them
(60_exceptions R231). -/
def errorsOf : Instr → List ErrCode
  | .rst => []
  | .rdcsr _ => [.illegal, .noHdr]
  | .zwr _ | .zrd _ | .cadd _ _ _ | .cmul _ _ _ | .cdivr _ _ _ | .twid _ _ _ => []
  | .zld _ _ | .zst _ _ | .xwr _ | .xrd _ => [.index]
  | .xsetlen _ => [.cap]
  | .pad | .fft | .ifft => []
  | .ztail _ => [.index]
  | .load => [.notFound, .cap, .short, .divZero]
  | .save => [.unwritable]
  | .extract => [.short]
  | .update => [.short, .invalidArg]
  | .psetlen _ => [.cap]
  | .pwr _ | .prd _ => [.index]
  | .lift => [.cap]
  | .quant _ => [.index, .cap, .qRange]

/-- The next request of the host is a well-formed `RST`, or its next move is hardware reset: the
only ways out of the halted state (60_exceptions R229). -/
def State.resetComes (s : State) : Prop :=
  ∃ rest, s.host = .hardwareReset :: rest ∨
    ∃ r, s.host = .request r :: rest ∧ decode r.cmd r.arg = .ok .rst

/-- `r` is the binary64 value to which the exact value `num/den` (in units of `2^-1074`, `den > 0`)
rounds: an infinity of its sign from `2^1024 - 2^970` on, else a nearest finite value, the one
with an even last bit where two are equally near (40_complex_alu R111). -/
def RoundsTo (r : F64) (num : Int) (den : Nat) : Prop :=
  ((2 ^ 54 - 1) * 2 ^ 2044 * den ≤ num.natAbs → r = f64Inf (decide (num < 0))) ∧
  (num.natAbs < (2 ^ 54 - 1) * 2 ^ 2044 * den → f64IsFinite r = true ∧
    ∀ v : F64, f64IsFinite v = true →
      (f64Scaled r * den - num).natAbs ≤ (f64Scaled v * den - num).natAbs ∧
      ((f64Scaled r * den - num).natAbs = (f64Scaled v * den - num).natAbs →
        f64Scaled v ≠ f64Scaled r → r.toNat % 2 = 0))

/-- The finite, non-zero binary64 values whose exponent is not the least: the normal numbers. -/
def f64IsNormal (x : F64) : Bool := f64IsFinite x && f64Exp x != 0

end Sys2Proof.Machine
end

