-- ==== Sys2Proof/Certificates/Slice0/Obligations.lean ====
section
/-! DEFINITION. The statements for the provers. Each docstring names the rule of spec/ that the
statement formalises, or says what it derives from. -/

open Sys2Proof Sys2Proof.Machine

/-! ### Encoding -/

/-- 30_encoding R81, R82, R85, R93: decoding the request that carries a command gives the command,
for every command and every value of its operands. -/
def Obligations.DecodeOfEncodeIsTheCommand : Prop :=
  ∀ i : Instr, decode (encode i).1 (encode i).2 = .ok i

/-- 30_encoding R86, R87, R95, decision D2: a request selects a command exactly when it is
well-formed, and then it is the encoding of that command: the decoder is injective. -/
def Obligations.EachWellFormedRequestSelectsOneCommand : Prop :=
  ∀ (cmd : BitVec 32) (arg : BitVec 64),
    ((∃ i, decode cmd arg = .ok i) ↔ wellFormedRequest cmd arg = true) ∧
    ∀ i, decode cmd arg = .ok i → encode i = (cmd, arg)

/-- Words of 95_test_vectors (V-E1 to V-E12), decoded. -/
def Obligations.SpecWordsDecodeAsListed : Prop :=
  decode 0x00000024#32 0#64 = .ok .fft ∧
  decode 0x00001B15#32 0#64 = .ok (.cmul 3 2 1) ∧
  decode 0x00003F14#32 0#64 = .ok (.cadd 3 3 3) ∧
  decode 0x00000217#32 0x0000000200000001#64 = .ok (.twid 2 1#32 2#32) ∧
  decode 0x00000116#32 4#64 = .ok (.cdivr 1 0 4#64) ∧
  decode 0x00000000#32 0#64 = .error .unassignedOpcode ∧
  decode 0x00000024#32 1#64 = .error .unusedArg ∧
  decode 0x00000124#32 0#64 = .error .unusedRegister ∧
  decode 0x00004024#32 0#64 = .error .reservedBits ∧
  decode 0x00000042#32 0#64 = .error .unassignedOpcode ∧
  decode 0x00000111#32 0#64 = .error .unusedRegister ∧
  decode 0x80000001#32 0#64 = .error .reservedBits

/-! ### Steps, requests, reset -/

/-- 44_system R219: a step runs the decoded command. With a request at the head of the host's moves
that decodes to `i`, the step is `exec` of `i` in the state in which that request is on the ports
and is no longer waiting. -/
def Obligations.StepRunsTheDecodedCommand : Prop :=
  ∀ (s : State) (r : Request) (rest : List HostMove) (i : Instr),
    s.host = .request r :: rest → decode r.cmd r.arg = .ok i →
    step s = exec i { s with host := rest, inputs := r.inputs }

/-- 30_encoding R86: a request that is not well-formed raises `E_ILLEGAL` on an engine that is not
halted, and changes nothing else; a halted engine refuses it (60_exceptions R228). -/
def Obligations.StepAnswersAnIllegalRequest : Prop :=
  ∀ (s : State) (r : Request) (rest : List HostMove),
    s.host = .request r :: rest → wellFormedRequest r.cmd r.arg = false →
    (s.halt = false → step s = .next { s with
      host := rest, inputs := r.inputs, halt := true, err := 8#8,
      responses := s.responses ++ [⟨.error, 8#128, none⟩] }) ∧
    (s.halt = true → step s = .next { s with
      host := rest, inputs := r.inputs,
      responses := s.responses ++ [⟨.refused, 0#128, none⟩] })

/-- 10_state R42: after hardware reset and after `RST`, in every state, every piece of engine state
has its reset value. -/
def Obligations.ResetLeavesTheResetValues : Prop :=
  ∀ s : State,
    (∃ t, exec .rst s = .next t ∧ State.reset.SameEngine t) ∧
    (∀ rest, s.host = .hardwareReset :: rest →
      ∃ t, step s = .next t ∧ State.reset.SameEngine t) ∧
    (∀ i : ZReg, State.reset.zReg i = ⟨0#64, 0#64⟩) ∧
    State.reset.xLen = 0#64 ∧ State.reset.x = [] ∧ State.reset.bufLen = 0#64 ∧
    State.reset.buf = [] ∧ State.reset.payLen = 0#64 ∧ State.reset.pay = [] ∧
    State.reset.derived = none ∧ State.reset.halt = false ∧ State.reset.hdrv = false ∧
    State.reset.err = 0#8

/-- 44_system R219: a step is total, no run stops. With no move of the host left a step changes
nothing, and hardware reset takes one move and gives no response: these two clauses are the model's
choices (log entries 3 and 15). -/
def Obligations.EveryStepHasANextState : Prop :=
  ∀ s : State, ∃ t, step s = .next t ∧ (s.host = [] → t = s) ∧
    ∀ rest, s.host = .hardwareReset :: rest →
      t.host = rest ∧ t.inputs = s.inputs ∧ t.responses = s.responses

/-- 30_encoding R80, R83, R84: a request gets exactly one response. An error's `DOUT` is the code
latched, a refusal's is 0, only a `SAVE` that completes delivers bytes to the sink, and `RST` is
answered `OK` in every state (44_system R215). That moves, inputs and responses stand in the state is
the model's choice (log entry 1). -/
def Obligations.EveryRequestGetsOneResponse : Prop :=
  ∀ (s : State) (r : Request) (rest : List HostMove), s.host = .request r :: rest →
    ∃ t a, step s = .next t ∧ t.host = rest ∧ t.responses = s.responses ++ [a] ∧
      (a.rsp = .error → s.halt = false ∧ t.halt = true ∧ a.dout = t.err.setWidth 128) ∧
      (a.rsp = .refused → s.halt = true ∧ a.dout = 0#128 ∧ s.SameEngine t) ∧
      (a.sink.isSome → a.rsp = .ok ∧ decode r.cmd r.arg = .ok .save) ∧
      (decode r.cmd r.arg = .ok .rst → a = ⟨.ok, 0#128, none⟩)

/-! ### Errors and the halted state -/

/-- 60_exceptions R227: an error is precise. A command that halts the engine has left every piece of
state as it was but `ERR` and `STATUS.HALT`; `ERR` and `DOUT` hold the code; no `SINK`. A command
that does not halt it answers `OK`. -/
def Obligations.ErrorsArePrecise : Prop :=
  ∀ (i : Instr) (s t : State), s.halt = false → exec i s = .next t →
    (t.halt = true → ∃ e : ErrCode, t = { s with
      err := e.code, halt := true,
      responses := s.responses ++ [⟨.error, e.code.setWidth 128, none⟩] }) ∧
    (t.halt = false → ∃ d k, t.responses = s.responses ++ [⟨.ok, d, k⟩])

/-- 60_exceptions R231: a command raises no error but those of its row of the table. -/
def Obligations.CommandsRaiseOnlyTheirErrors : Prop :=
  ∀ (i : Instr) (s t : State), s.halt = false → exec i s = .next t → t.halt = true →
    ∃ e ∈ errorsOf i, t = s.raise e

/-- 60_exceptions R228: while halted the engine executes only a well-formed `RST` and a well-formed
`RDCSR` that raises no error; every other request, legal or illegal, is refused and changes
nothing. -/
def Obligations.HaltedEngineRefusesTheRest : Prop :=
  ∀ s : State, s.halt = true →
    (∃ t, exec .rst s = .next t ∧ State.reset.SameEngine t) ∧
    (∀ (n v : BitVec 64), s.readCsr n.toNat = .ok v → exec (.rdcsr n) s =
      .next { s with responses := s.responses ++ [⟨.ok, v.setWidth 128, none⟩] }) ∧
    (∀ (n : BitVec 64) (e : ErrCode), s.readCsr n.toNat = .error e → exec (.rdcsr n) s =
      .next { s with responses := s.responses ++ [⟨.refused, 0#128, none⟩] }) ∧
    (∀ i : Instr, i ≠ .rst → (∀ n, i ≠ .rdcsr n) → exec i s =
      .next { s with responses := s.responses ++ [⟨.refused, 0#128, none⟩] }) ∧
    (∀ (r : Request) (rest : List HostMove), s.host = .request r :: rest →
      wellFormedRequest r.cmd r.arg = false → step s = .next { s with
        host := rest, inputs := r.inputs,
        responses := s.responses ++ [⟨.refused, 0#128, none⟩] })

/-- 60_exceptions R229: the only exits from the halted state are hardware reset and `RST`, and both
discard the whole state. Any other step of a halted engine leaves its state alone. -/
def Obligations.OnlyResetLeavesTheHaltedState : Prop :=
  ∀ s t : State, s.halt = true → step s = .next t →
    (s.resetComes → State.reset.SameEngine t) ∧ (¬ s.resetComes → s.SameEngine t)

/-- 44_system R219: along a run without reset, the engine is not halted exactly when every response
so far is `OK`. -/
def Obligations.NotHaltedExactlyWhileEveryResponseIsOk : Prop :=
  ∀ s t : State, (s.halt = false ↔ s.CompletedWithoutError) → ¬ s.resetComes →
    step s = .next t → (t.halt = false ↔ t.CompletedWithoutError)

/-! ### The invariant -/

/-- Every step keeps the invariant of the engine: canonical memories within their lengths, lengths
within the capacities, `HDR` and `DUR` derived from `BUF`, `ERR` as `STATUS.HALT` says
(10_state R20, R25, R28, R30, R32, R36; 42_container R178; 60_exceptions R226). -/
def Obligations.EveryStepKeepsTheInvariant : Prop :=
  ∀ s t : State, s.Inv → step s = .next t → t.Inv

/-- The state after reset has the invariant. -/
def Obligations.ResetHasTheInvariant : Prop := State.reset.Inv

/-! ### Who writes what -/

/-- 10_state R22, R26, R28, R30, R32, R35, R36, R40: each memory, length register and status register
is written only by the commands its rule lists; `HALT` and `ERR` by `RST` and by a command that
raises an error. -/
def Obligations.OnlyTheListedCommandsWriteEachMemory : Prop :=
  ∀ (i : Instr) (s t : State), exec i s = .next t →
    (t.z ≠ s.z → i = .rst ∨ (∃ d, i = .zwr d) ∨ (∃ d k, i = .zld d k) ∨
      (∃ d a b, i = .cadd d a b) ∨ (∃ d a b, i = .cmul d a b) ∨ (∃ d a n, i = .cdivr d a n) ∨
      ∃ d k n, i = .twid d k n) ∧
    (t.x ≠ s.x → i = .rst ∨ (∃ n, i = .xsetlen n) ∨ (∃ k, i = .xwr k) ∨
      (∃ a k, i = .zst a k) ∨ i = .pad ∨ i = .fft ∨ i = .ifft ∨ (∃ k, i = .ztail k) ∨ i = .lift) ∧
    (t.xLen ≠ s.xLen → i = .rst ∨ (∃ n, i = .xsetlen n) ∨ i = .pad ∨ i = .fft ∨ i = .ifft ∨
      i = .lift) ∧
    (t.buf ≠ s.buf → i = .rst ∨ i = .load ∨ i = .update) ∧
    (t.bufLen ≠ s.bufLen → i = .rst ∨ i = .load) ∧
    (t.pay ≠ s.pay → i = .rst ∨ i = .extract ∨ (∃ n, i = .quant n) ∨ (∃ n, i = .psetlen n) ∨
      ∃ k, i = .pwr k) ∧
    (t.payLen ≠ s.payLen → i = .rst ∨ i = .extract ∨ (∃ n, i = .quant n) ∨ ∃ n, i = .psetlen n) ∧
    (t.derived ≠ s.derived ∨ t.hdrv ≠ s.hdrv → i = .rst ∨ i = .load) ∧
    (t.halt ≠ s.halt ∨ t.err ≠ s.err → i = .rst ∨ ∃ e : ErrCode, s.halt = false ∧ t = s.raise e) ∧
    t.host = s.host ∧ t.inputs = s.inputs

/-- 20_memory R67: a read command that completes changes nothing, and the same command on the state
after it gives the same answer. -/
def Obligations.ReadsChangeNothingAndRepeat : Prop :=
  ∀ (i : Instr) (s t : State) (d : BitVec 128),
    ((∃ k, i = .xrd k) ∨ (∃ k, i = .prd k) ∨ (∃ a, i = .zrd a) ∨ ∃ n, i = .rdcsr n) →
    exec i s = .next t → t.responses = s.responses ++ [⟨.ok, d, none⟩] →
    s.SameEngine t ∧
    ∃ u, exec i t = .next u ∧ s.SameEngine u ∧ u.responses = t.responses ++ [⟨.ok, d, none⟩]

/-- 00_scope R2: the container commands have no knowledge of the transform side. On two states that
differ only in `Z`, `X` and `XLEN` they do the same to everything else and answer the same. -/
def Obligations.ContainerCommandsIgnoreTheTransformSide : Prop :=
  ∀ (i : Instr) (s t : State) (z : Vector C64 4) (x : List (Nat × C64)) (n : BitVec 64),
    (i = .load ∨ i = .save ∨ i = .extract ∨ i = .update ∨ (∃ k, i = .psetlen k) ∨
      (∃ k, i = .pwr k) ∨ ∃ k, i = .prd k) →
    exec i s = .next t →
    exec i { s with z := z, x := x, xLen := n } = .next { t with z := z, x := x, xLen := n }

/-! ### System commands

Each statement about one command begins with the words that encode it (30_encoding R81, R82, R85). -/

/-- 44_system R216, 10_state R40: `RDCSR` of each register of the map answers its value,
zero-extended, and changes nothing else, halted or not; a header or duration register without a
value raises `E_NOHDR`, a number outside the map `E_ILLEGAL`; a halted engine refuses where it
would raise. -/
def Obligations.RdcsrReadsTheRegisterMap : Prop :=
  ∀ (s : State) (n : BitVec 64),
    encode (.rdcsr n) = (0x02#32, n) ∧
    (∀ v : BitVec 64,
      (n, v) ∈ [(0x00#64, BitVec.ofNat 64 (s.halt.toNat + 2 * s.hdrv.toNat)),
        (0x01#64, s.err.setWidth 64), (0x02#64, s.xLen), (0x03#64, s.payLen),
        (0x04#64, s.bufLen)] →
      exec (.rdcsr n) s =
        .next { s with responses := s.responses ++ [⟨.ok, v.setWidth 128, none⟩] }) ∧
    (∀ d, s.derived = some d → ∀ v : Nat,
      (n, v) ∈ [(0x10#64, d.hdr.chunkId.toNat), (0x11#64, d.hdr.chunkSize.toNat),
        (0x12#64, d.hdr.format.toNat), (0x13#64, d.hdr.subchunk1Id.toNat),
        (0x14#64, d.hdr.subchunk1Size.toNat), (0x15#64, d.hdr.audioFormat.toNat),
        (0x16#64, d.hdr.numChannels.toNat), (0x17#64, d.hdr.sampleRate.toNat),
        (0x18#64, d.hdr.byteRate.toNat), (0x19#64, d.hdr.blockAlign.toNat),
        (0x1A#64, d.hdr.bitsPerSample.toNat), (0x1B#64, d.hdr.subchunk2Id.toNat),
        (0x1C#64, d.hdr.subchunk2Size.toNat), (0x20#64, d.dur.hours.toNat),
        (0x21#64, d.dur.minutes.toNat), (0x22#64, d.dur.seconds.toNat)] →
      exec (.rdcsr n) s =
        .next { s with responses := s.responses ++ [⟨.ok, BitVec.ofNat 128 v, none⟩] }) ∧
    (s.derived = none → (0x10 ≤ n.toNat ∧ n.toNat ≤ 0x1C ∨ 0x20 ≤ n.toNat ∧ n.toNat ≤ 0x22) →
      exec (.rdcsr n) s = .next (if s.halt then s.refuse else s.raise .noHdr)) ∧
    (¬ (n.toNat ≤ 4 ∨ 0x10 ≤ n.toNat ∧ n.toNat ≤ 0x1C ∨ 0x20 ≤ n.toNat ∧ n.toNat ≤ 0x22) →
      exec (.rdcsr n) s = .next (if s.halt then s.refuse else s.raise .illegal))

/-! ### Complex registers -/

/-- 40_complex_alu R119: `ZWR zd` stores the value on `DIN` unchanged in `Z[zd]`, and changes
nothing else. -/
def Obligations.ZwrStoresTheDataInput : Prop :=
  ∀ (s : State) (zd : ZReg), s.halt = false →
    encode (.zwr zd) = (BitVec.ofNat 32 (0x10 + 0x100 * zd.val), 0#64) ∧
    exec (.zwr zd) s = .next { s with
      z := s.z.set zd ⟨s.inputs.din.extractLsb' 0 64, s.inputs.din.extractLsb' 64 64⟩,
      responses := s.responses ++ [⟨.ok, 0#128, none⟩] }

/-- 40_complex_alu R120: `ZRD za` answers `{im, re}` of `Z[za]`; no state changes. -/
def Obligations.ZrdAnswersTheRegister : Prop :=
  ∀ (s : State) (za : ZReg), s.halt = false →
    encode (.zrd za) = (BitVec.ofNat 32 (0x11 + 0x400 * za.val), 0#64) ∧
    exec (.zrd za) s = .next { s with
      responses := s.responses ++ [⟨.ok, s.z[za].im ++ s.z[za].re, none⟩] }

/-- 40_complex_alu R121: `ZLD zd, idx` copies `X[idx]` to `Z[zd]`, or raises `E_INDEX` when
`idx ≥ XLEN`; nothing else changes. -/
def Obligations.ZldLoadsTheElement : Prop :=
  ∀ (s : State) (zd : ZReg) (idx : BitVec 64), s.halt = false →
    encode (.zld zd idx) = (BitVec.ofNat 32 (0x12 + 0x100 * zd.val), idx) ∧
    (idx.toNat < s.xLen.toNat → exec (.zld zd idx) s = .next { s with
      z := s.z.set zd (s.xElem idx.toNat),
      responses := s.responses ++ [⟨.ok, 0#128, none⟩] }) ∧
    (s.xLen.toNat ≤ idx.toNat → exec (.zld zd idx) s = .next (s.raise .index))

/-- 40_complex_alu R122: `ZST za, idx` copies `Z[za]` to `X[idx]`, or raises `E_INDEX` when
`idx ≥ XLEN`; every other element, `XLEN`, `Z` and all else is unchanged. -/
def Obligations.ZstStoresTheElement : Prop :=
  ∀ (s : State) (za : ZReg) (idx : BitVec 64), s.halt = false → Memory.wf czero s.x →
    encode (.zst za idx) = (BitVec.ofNat 32 (0x13 + 0x400 * za.val), idx) ∧
    (idx.toNat < s.xLen.toNat → ∃ t, exec (.zst za idx) s = .next t ∧
      (∀ j, t.xElem j = if j = idx.toNat then s.z[za] else s.xElem j) ∧
      t = { s with x := t.x, responses := s.responses ++ [⟨.ok, 0#128, none⟩] }) ∧
    (s.xLen.toNat ≤ idx.toNat → exec (.zst za idx) s = .next (s.raise .index))

/-- 40_complex_alu R123: `CADD zd, za, zb` writes the component sums, both sources read first. -/
def Obligations.CaddWritesTheSum : Prop :=
  ∀ (s : State) (zd za zb : ZReg), s.halt = false →
    encode (.cadd zd za zb) =
      (BitVec.ofNat 32 (0x14 + 0x100 * zd.val + 0x400 * za.val + 0x1000 * zb.val), 0#64) ∧
    exec (.cadd zd za zb) s = .next { s with
      z := s.z.set zd ⟨num.fadd s.z[za].re s.z[zb].re, num.fadd s.z[za].im s.z[zb].im⟩,
      responses := s.responses ++ [⟨.ok, 0#128, none⟩] }

/-- 40_complex_alu R124, R116: `CMUL zd, za, zb` writes the product of four multiplications, one
subtraction and one addition, each rounded on its own, both sources read first. -/
def Obligations.CmulWritesTheProduct : Prop :=
  ∀ (s : State) (zd za zb : ZReg), s.halt = false →
    encode (.cmul zd za zb) =
      (BitVec.ofNat 32 (0x15 + 0x100 * zd.val + 0x400 * za.val + 0x1000 * zb.val), 0#64) ∧
    exec (.cmul zd za zb) s = .next { s with
      z := s.z.set zd
        ⟨num.fsub (num.fmul s.z[za].re s.z[zb].re) (num.fmul s.z[za].im s.z[zb].im),
         num.fadd (num.fmul s.z[za].re s.z[zb].im) (num.fmul s.z[za].im s.z[zb].re)⟩,
      responses := s.responses ++ [⟨.ok, 0#128, none⟩] }

/-- 40_complex_alu R125: `CDIVR zd, za, n` divides both components by `of_nat(n)`; a zero divisor is
no error. -/
def Obligations.CdivrWritesTheQuotient : Prop :=
  ∀ (s : State) (zd za : ZReg) (n : BitVec 64), s.halt = false →
    encode (.cdivr zd za n) = (BitVec.ofNat 32 (0x16 + 0x100 * zd.val + 0x400 * za.val), n) ∧
    exec (.cdivr zd za n) s = .next { s with
      z := s.z.set zd
        ⟨num.fdiv s.z[za].re (num.ofNat n.toNat), num.fdiv s.z[za].im (num.ofNat n.toNat)⟩,
      responses := s.responses ++ [⟨.ok, 0#128, none⟩] }

/-- 40_complex_alu R126, R118: `TWID zd, i, sz` writes the cosine and the positive sine of
`fdiv(fmul(TWO_PI, of_nat(i)), of_nat(sz))`, whatever `i` and `sz` are. -/
def Obligations.TwidWritesTheTwiddle : Prop :=
  ∀ (s : State) (zd : ZReg) (i sz : BitVec 32), s.halt = false →
    encode (.twid zd i sz) = (BitVec.ofNat 32 (0x17 + 0x100 * zd.val), sz ++ i) ∧
    ∃ angle, angle = num.fdiv (num.fmul (num.fmul (num.ofNat 2) num.pi) (num.ofNat i.toNat))
        (num.ofNat sz.toNat) ∧
    exec (.twid zd i sz) s = .next { s with
      z := s.z.set zd ⟨num.fcos angle, num.fsin angle⟩,
      responses := s.responses ++ [⟨.ok, 0#128, none⟩] }

/-! ### The default arithmetic -/

/-- 40_complex_alu R111: sums and differences of finite values are rounded to nearest, ties to even;
an exact zero is `+0` unless both terms are `-0`. With one infinite term, or two of one sign in the
sum, the result is the infinity of that sign. -/
def Obligations.SumsAndDifferencesAreRounded : Prop :=
  (∀ a b : F64, f64IsFinite a = true → f64IsFinite b = true →
    RoundsTo (num.fadd a b) (f64Scaled a + f64Scaled b) 1 ∧
    RoundsTo (num.fsub a b) (f64Scaled a - f64Scaled b) 1 ∧
    (f64Scaled a + f64Scaled b = 0 →
      f64Sign (num.fadd a b) = (f64Sign a && f64Sign b)) ∧
    (f64Scaled a - f64Scaled b = 0 →
      f64Sign (num.fsub a b) = (f64Sign a && !f64Sign b))) ∧
  (∀ a b : F64, f64IsInf a = true → f64IsFinite b = true →
    num.fadd a b = f64Inf (f64Sign a) ∧ num.fadd b a = f64Inf (f64Sign a) ∧
    num.fsub a b = f64Inf (f64Sign a) ∧ num.fsub b a = f64Inf (!f64Sign a)) ∧
  (∀ a b : F64, f64IsInf a = true → f64IsInf b = true →
    (f64Sign a = f64Sign b → num.fadd a b = f64Inf (f64Sign a)) ∧
    (f64Sign a ≠ f64Sign b → num.fsub a b = f64Inf (f64Sign a)))

/-- 40_complex_alu R111, R113: products of finite values, and quotients with a finite non-zero
divisor, are rounded to nearest, ties to even, with the sign of the exact result, a zero's too. The
product of an infinity, the quotient of an infinity and of a non-zero value by a zero are
infinities, the quotient by an infinity is a zero, each with the sign of the result. -/
def Obligations.ProductsAndQuotientsAreRounded : Prop :=
  (∀ a b : F64, f64IsFinite a = true → f64IsFinite b = true →
    RoundsTo (num.fmul a b) (f64Scaled a * f64Scaled b) (2 ^ 1074) ∧
    f64Sign (num.fmul a b) = (f64Sign a != f64Sign b) ∧
    (f64Scaled b ≠ 0 →
      RoundsTo (num.fdiv a b) (f64Scaled a * 2 ^ 1074 * (f64Scaled b).sign) (f64Scaled b).natAbs ∧
      f64Sign (num.fdiv a b) = (f64Sign a != f64Sign b))) ∧
  (∀ a b : F64, f64IsInf a = true → f64IsNaN b = false → f64IsZero b = false →
    num.fmul a b = f64Inf (f64Sign a != f64Sign b) ∧
    num.fmul b a = f64Inf (f64Sign a != f64Sign b)) ∧
  (∀ a b : F64, f64IsInf a = true → f64IsFinite b = true →
    num.fdiv a b = f64Inf (f64Sign a != f64Sign b) ∧
    f64IsZero (num.fdiv b a) = true ∧ f64Sign (num.fdiv b a) = (f64Sign a != f64Sign b)) ∧
  (∀ a b : F64, f64IsFinite a = true → f64IsZero a = false → f64IsZero b = true →
    num.fdiv a b = f64Inf (f64Sign a != f64Sign b))

/-- 40_complex_alu R111, R113: which operands give a NaN, and that no others do. -/
def Obligations.NaNsAreProducedExactlyByInvalidOperations : Prop :=
  ∀ a b : F64,
    (f64IsNaN (num.fadd a b) = true ↔ f64IsNaN a = true ∨ f64IsNaN b = true ∨
      f64IsInf a = true ∧ f64IsInf b = true ∧ f64Sign a ≠ f64Sign b) ∧
    (f64IsNaN (num.fsub a b) = true ↔ f64IsNaN a = true ∨ f64IsNaN b = true ∨
      f64IsInf a = true ∧ f64IsInf b = true ∧ f64Sign a = f64Sign b) ∧
    (f64IsNaN (num.fmul a b) = true ↔ f64IsNaN a = true ∨ f64IsNaN b = true ∨
      f64IsInf a = true ∧ f64IsZero b = true ∨ f64IsZero a = true ∧ f64IsInf b = true) ∧
    (f64IsNaN (num.fdiv a b) = true ↔ f64IsNaN a = true ∨ f64IsNaN b = true ∨
      f64IsInf a = true ∧ f64IsInf b = true ∨ f64IsZero a = true ∧ f64IsZero b = true) ∧
    (f64IsFinite a = false → f64IsNaN (num.fcos a) = true ∧ f64IsNaN (num.fsin a) = true)

/-- 40_complex_alu R111: the cosine and the sine of every finite value are the binary64 values
nearest to the exact cosine and sine of its exact value, ties to even. -/
def Obligations.CosineAndSineAreRounded : Prop :=
  ∀ x : F64, f64IsFinite x = true →
    RoundsToReal (num.fcos x) (Real.cos (f64Real x)) ∧
    RoundsToReal (num.fsin x) (Real.sin (f64Real x))

/-- 40_complex_alu R111 and R112, NP1, NP2, NP4, NP5, NP6, NP9: sums and products commute unless the
result is a NaN, the laws of zero and one, and the exact doubling of `PI`; with them,
`TW(0, sz) = (of_nat(1), +0)` for every `sz ≥ 1` (R118). `0x8000000000000000` is `-0`. -/
def Obligations.SumsCommuteAndZeroAndOneAreNeutral : Prop :=
  (∀ a b : F64,
    (f64IsNaN (num.fadd a b) = false → f64IsNaN (num.fadd b a) = false →
      num.fadd a b = num.fadd b a) ∧
    (f64IsNaN (num.fmul a b) = false → f64IsNaN (num.fmul b a) = false →
      num.fmul a b = num.fmul b a)) ∧
  num.fcos 0#64 = num.ofNat 1 ∧ num.fsin 0#64 = 0#64 ∧
  num.fcos 0x8000000000000000#64 = num.ofNat 1 ∧
  num.fsin 0x8000000000000000#64 = 0x8000000000000000#64 ∧ num.ofNat 0 = 0#64 ∧
  (∀ y : F64, f64IsFinite y = true → 0 < f64Scaled y →
    num.fdiv 0#64 y = 0#64 ∧ num.fmul y 0#64 = 0#64) ∧
  (∀ x z : F64, f64IsFinite x = true → f64IsZero z = true →
    f64IsZero (num.fmul x z) = true ∧ (f64IsZero x = false → num.fadd x z = x)) ∧
  num.fadd 0#64 0#64 = 0#64 ∧ num.fadd 0#64 0x8000000000000000#64 = 0#64 ∧
  num.fadd 0x8000000000000000#64 0#64 = 0#64 ∧
  num.fadd 0x8000000000000000#64 0x8000000000000000#64 = 0x8000000000000000#64 ∧
  (∀ y z : F64, f64IsZero y = true → f64IsZero z = true → f64IsZero (num.fsub y z) = true) ∧
  (∀ x : F64, f64IsNaN x = false →
    num.fmul (num.ofNat 1) x = x ∧ num.fdiv x (num.ofNat 1) = x) ∧
  f64Scaled num.twoPi = 2 * f64Scaled num.pi ∧
  ∀ sz : Nat, 1 ≤ sz → twiddle num 0 sz = ⟨num.ofNat 1, 0#64⟩

/-- 40_complex_alu R111; R112, NP3 and, for `v < 2^52`, NP10 (log entry 12): every integer converts
to the nearest value, ties to even, and to an infinity where it is too large (log entry 14);
integers of at most 53 bits convert exactly, and adding `HALF` to one of at most 52 bits is exact. -/
def Obligations.IntegersAreRoundedAndSmallOnesExact : Prop :=
  (∀ n : Nat, RoundsTo (num.ofNat n) (n * 2 ^ 1074) 1) ∧
  (∀ v : Int, RoundsTo (num.ofInt v) (v * 2 ^ 1074) 1) ∧
  (∀ n : Nat, n ≤ 2 ^ 53 →
    f64IsFinite (num.ofNat n) = true ∧ f64Scaled (num.ofNat n) = n * 2 ^ 1074) ∧
  (∀ v : Int, -2 ^ 53 ≤ v → v ≤ 2 ^ 53 →
    f64IsFinite (num.ofInt v) = true ∧ f64Scaled (num.ofInt v) = v * 2 ^ 1074 ∧
    num.toInt (num.ofInt v) = some v) ∧
  (∀ v : Int, -2 ^ 52 ≤ v → v < 2 ^ 52 →
    f64IsFinite (num.fadd (num.ofInt v) num.half) = true ∧
    f64Scaled (num.fadd (num.ofInt v) num.half) = (2 * v + 1) * 2 ^ 1073)

/-- 40_complex_alu R112, NP7, for a divisor that is finite in binary64 (log entry 12): dividing by a
power of two is exact when the exact quotient is a normal number or zero. -/
def Obligations.DivisionByAPowerOfTwoIsExact : Prop :=
  ∀ (x q : F64) (k : Nat), k ≤ 1023 → f64IsFinite x = true →
    (f64IsNormal q = true ∨ f64IsZero q = true) → f64Sign q = f64Sign x →
    f64Scaled q * 2 ^ k = f64Scaled x → num.fdiv x (num.ofNat (2 ^ k)) = q

/-- 40_complex_alu R112, NP8: the floor of a finite value is the largest integral value at or below
it, exactly. R111 says that an infinity and a NaN are preserved, R110 that they convert to no
integer. -/
def Obligations.FloorIsExact : Prop :=
  ∀ x : F64,
    (f64IsFinite x = true → f64IsFinite (num.ffloor x) = true ∧
      f64Scaled (num.ffloor x) = f64Scaled x / 2 ^ 1074 * 2 ^ 1074 ∧
      num.toInt (num.ffloor x) = some (f64Scaled x / 2 ^ 1074)) ∧
    (f64IsFinite x = false → num.ffloor x = x ∧ num.toInt x = none)

/-! ### The sequence functions, over every `Num` -/

/-- 41_transform R143: `Pad` appends zeros up to the least power of two at or above the length, and
leaves the empty sequence empty. -/
def Obligations.PadReachesTheLeastPowerOfTwo : Prop :=
  ∀ (F : Type) (N : Num F) (x : List (Cplx F)),
    (x = [] → pad N x = []) ∧
    (x ≠ [] → ∃ k, x.length ≤ 2 ^ k ∧ (∀ j, x.length ≤ 2 ^ j → k ≤ j) ∧
      pad N x = x ++ List.replicate (2 ^ k - x.length) ⟨N.zero, N.zero⟩ ∧
      (pad N x).length < 2 * x.length) ∧
    x.length ≤ (pad N x).length ∧ pad N (pad N x) = pad N x ∧
    [0, 1, 2, 3, 4, 5, 8, 9].map padLength = [0, 1, 2, 4, 4, 8, 8, 16]

/-- 41_transform R146: the recursion of `T`, padding, even and odd halves, and the combination over
the full range with a fresh twiddle for each output. -/
def Obligations.TransformSatisfiesItsRecursion : Prop :=
  ∀ (F : Type) (N : Num F) (x : List (Cplx F)),
    (x.length < 2 → transform N x = x) ∧
    (2 ≤ x.length → ∃ p ev od, p = pad N x ∧
      ev = transform N ((List.range (p.length / 2)).map fun j => p.getD (2 * j) N.czero) ∧
      od = transform N ((List.range (p.length / 2)).map fun j => p.getD (2 * j + 1) N.czero) ∧
      ev.length = p.length / 2 ∧ od.length = p.length / 2 ∧
      transform N x = (List.range p.length).map fun i =>
        cadd N (ev.getD (i % (p.length / 2)) N.czero)
          (cmul N (twiddle N i p.length) (od.getD (i % (p.length / 2)) N.czero)))

/-- 41_transform R150: `IT` divides by the padded length, keeps index 0 and exchanges index `j` with
`n - j`. -/
def Obligations.InverseDividesThenReversesTheTail : Prop :=
  ∀ (F : Type) (N : Num F) (x : List (Cplx F)) (d : Cplx F),
    (inverseTransform N x).length = (transform N x).length ∧
    (∀ j, j < (transform N x).length →
      (inverseTransform N x).getD j d =
        cdivr N ((transform N x).getD
          (if j = 0 then 0 else (transform N x).length - j) d)
          (N.ofNat (transform N x).length))

/-- 41_transform R147 (e): in exact arithmetic `T` is the unnormalised discrete Fourier transform
with a positive exponent, of the padded sequence. -/
def Obligations.ExactTransformIsTheFourierSum : Prop :=
  ∀ (x : List (Cplx ℝ)) (k : Nat), k < (pad exactNum x).length →
    (transform exactNum x).length = (pad exactNum x).length ∧
    pairToComplex ((transform exactNum x).getD k exactNum.czero) =
      ∑ j ∈ Finset.range (pad exactNum x).length,
        pairToComplex ((pad exactNum x).getD j exactNum.czero) *
          rootOfUnity j k (pad exactNum x).length

/-- 41_transform R152: in exact arithmetic `IT` undoes `T`; for any length, on the padded
sequence. -/
def Obligations.ExactInverseUndoesTheTransform : Prop :=
  ∀ x : List (Cplx ℝ),
    inverseTransform exactNum (transform exactNum x) = pad exactNum x ∧
    (inverseTransform exactNum (transform exactNum (pad exactNum x))).take x.length = x

/-! ### Sequence commands -/

/-- 41_transform R141: `XSETLEN n` keeps the elements below both lengths, exposes zeros, and raises
`E_CAP` above the capacity; nothing else changes. -/
def Obligations.XsetlenKeepsAndZeroes : Prop :=
  ∀ (s : State) (n : BitVec 64), s.halt = false →
    encode (.xsetlen n) = (0x20#32, n) ∧
    (n.toNat ≤ Config.NMAX → ∃ t, exec (.xsetlen n) s = .next t ∧
      (∀ j, j < n.toNat → j < s.xLen.toNat → t.xElem j = s.xElem j) ∧
      (∀ j, j < n.toNat → s.xLen.toNat ≤ j → t.xElem j = ⟨0#64, 0#64⟩) ∧
      t = { s with x := t.x, xLen := n, responses := s.responses ++ [⟨.ok, 0#128, none⟩] }) ∧
    (Config.NMAX < n.toNat → exec (.xsetlen n) s = .next (s.raise .cap))

/-- 41_transform R142: `XWR idx` stores the value on `DIN` unchanged in `X[idx]`, or raises
`E_INDEX` when `idx ≥ XLEN`; nothing else changes. -/
def Obligations.XwrStoresTheDataInput : Prop :=
  ∀ (s : State) (idx : BitVec 64), s.halt = false → Memory.wf czero s.x →
    encode (.xwr idx) = (0x21#32, idx) ∧
    (idx.toNat < s.xLen.toNat → ∃ t, exec (.xwr idx) s = .next t ∧
      (∀ j, t.xElem j = if j = idx.toNat
        then ⟨s.inputs.din.extractLsb' 0 64, s.inputs.din.extractLsb' 64 64⟩ else s.xElem j) ∧
      t = { s with x := t.x, responses := s.responses ++ [⟨.ok, 0#128, none⟩] }) ∧
    (s.xLen.toNat ≤ idx.toNat → exec (.xwr idx) s = .next (s.raise .index))

/-- 41_transform R144: `XRD idx` answers `{im, re}` of `X[idx]`, or raises `E_INDEX` when
`idx ≥ XLEN`; no state changes. -/
def Obligations.XrdAnswersTheElement : Prop :=
  ∀ (s : State) (idx : BitVec 64), s.halt = false →
    encode (.xrd idx) = (0x22#32, idx) ∧
    (idx.toNat < s.xLen.toNat → exec (.xrd idx) s = .next { s with
      responses := s.responses ++
        [⟨.ok, (s.xElem idx.toNat).im ++ (s.xElem idx.toNat).re, none⟩] }) ∧
    (s.xLen.toNat ≤ idx.toNat → exec (.xrd idx) s = .next (s.raise .index))

/-- 41_transform R145: `PAD` replaces `X` and `XLEN` by `Pad(X)` and its length; nothing else
changes. -/
def Obligations.PadCommandPadsTheSequence : Prop :=
  ∀ s : State, s.halt = false → s.xLen.toNat ≤ Config.NMAX →
    encode .pad = (0x23#32, 0#64) ∧
    ∃ t, exec .pad s = .next t ∧ t.xSeq = pad num s.xSeq ∧
      t.xLen.toNat = (pad num s.xSeq).length ∧ t.xLen.toNat ≤ Config.NMAX ∧
      t = { s with x := t.x, xLen := t.xLen,
                   responses := s.responses ++ [⟨.ok, 0#128, none⟩] }

/-- 41_transform R149: `FFT` replaces `X` and `XLEN` by `T(X)` and its length, the padded one (a
sequence of length 0 or 1 is unchanged); it raises no error and nothing else changes. -/
def Obligations.FftCommandTransformsTheSequence : Prop :=
  ∀ s : State, s.halt = false → s.xLen.toNat ≤ Config.NMAX →
    encode .fft = (0x24#32, 0#64) ∧
    ∃ t, exec .fft s = .next t ∧ t.xSeq = transform num s.xSeq ∧
      t.xLen.toNat = (pad num s.xSeq).length ∧ t.xLen.toNat ≤ Config.NMAX ∧
      (s.xLen.toNat < 2 → t.xSeq = s.xSeq) ∧
      t = { s with x := t.x, xLen := t.xLen,
                   responses := s.responses ++ [⟨.ok, 0#128, none⟩] }

/-- 41_transform R151: `IFFT` replaces `X` and `XLEN` by `IT(X)` and its length; it raises no error
and nothing else changes. -/
def Obligations.IfftCommandInvertsTheSequence : Prop :=
  ∀ s : State, s.halt = false → s.xLen.toNat ≤ Config.NMAX →
    encode .ifft = (0x25#32, 0#64) ∧
    ∃ t, exec .ifft s = .next t ∧ t.xSeq = inverseTransform num s.xSeq ∧
      t.xLen.toNat = (pad num s.xSeq).length ∧ t.xLen.toNat ≤ Config.NMAX ∧
      t = { s with x := t.x, xLen := t.xLen,
                   responses := s.responses ++ [⟨.ok, 0#128, none⟩] }

/-- 41_transform R153: `ZTAIL k` writes `CZERO` from `k` to `XLEN` and nothing else; `k = XLEN` is
legal, `k > XLEN` raises `E_INDEX`; `XLEN` and all else is unchanged. -/
def Obligations.ZtailZeroesTheTail : Prop :=
  ∀ (s : State) (k : BitVec 64), s.halt = false → Memory.within s.x s.xLen.toNat →
    encode (.ztail k) = (0x26#32, k) ∧
    (k.toNat ≤ s.xLen.toNat → ∃ t, exec (.ztail k) s = .next t ∧
      (∀ j, t.xElem j =
        if k.toNat ≤ j ∧ j < s.xLen.toNat then ⟨0#64, 0#64⟩ else s.xElem j) ∧
      t = { s with x := t.x, responses := s.responses ++ [⟨.ok, 0#128, none⟩] }) ∧
    (s.xLen.toNat < k.toNat → exec (.ztail k) s = .next (s.raise .index))

/-! ### Container -/

/-- 20_memory R61, 42_container R172: every header field is the little-endian number of its bytes at
its fixed offset. -/
def Obligations.HeaderFieldsAreLittleEndian : Prop :=
  ∀ (b : List Byte) (at4 at2 : Nat → Nat), 44 ≤ b.length →
    (∀ o, at2 o = (b.getD o 0#8).toNat + 2 ^ 8 * (b.getD (o + 1) 0#8).toNat) →
    (∀ o, at4 o = at2 o + 2 ^ 16 * at2 (o + 2)) →
    (parseHeader b).chunkId.toNat = at4 0 ∧ (parseHeader b).chunkSize.toNat = at4 4 ∧
    (parseHeader b).format.toNat = at4 8 ∧ (parseHeader b).subchunk1Id.toNat = at4 12 ∧
    (parseHeader b).subchunk1Size.toNat = at4 16 ∧ (parseHeader b).audioFormat.toNat = at2 20 ∧
    (parseHeader b).numChannels.toNat = at2 22 ∧ (parseHeader b).sampleRate.toNat = at4 24 ∧
    (parseHeader b).byteRate.toNat = at4 28 ∧ (parseHeader b).blockAlign.toNat = at2 32 ∧
    (parseHeader b).bitsPerSample.toNat = at2 34 ∧ (parseHeader b).subchunk2Id.toNat = at4 36 ∧
    (parseHeader b).subchunk2Size.toNat = at4 40

/-- 42_container R173: the duration, or `E_DIVZERO` exactly for a zero divisor. The parts are
in range, and the divisions may be done at once. -/
def Obligations.DurationIsTheWholeSeconds : Prop :=
  ∀ h : Header,
    (h.bitsPerSample.toNat / 8 = 0 ∨ h.numChannels.toNat = 0 ∨ h.sampleRate.toNat = 0 →
      duration h = .error .divZero) ∧
    (0 < h.bitsPerSample.toNat / 8 → 0 < h.numChannels.toNat → 0 < h.sampleRate.toNat →
      ∃ d t, duration h = .ok d ∧
        t = h.subchunk2Size.toNat / (h.bitsPerSample.toNat / 8) / h.numChannels.toNat /
          h.sampleRate.toNat ∧
        t = h.subchunk2Size.toNat /
          (h.bitsPerSample.toNat / 8 * h.numChannels.toNat * h.sampleRate.toNat) ∧
        d.hours.toNat = t / 3600 ∧ d.minutes.toNat = t % 3600 / 60 ∧ d.seconds.toNat = t % 60 ∧
        t ≤ 2 ^ 32 - 1 ∧ d.hours.toNat ≤ 1193046 ∧ d.minutes.toNat ≤ 59 ∧ d.seconds.toNat ≤ 59)

/-- 42_container R175: `LOAD` checks in order that the source can be opened, its capacity, its
length and the duration's divisors; on success it replaces the file and derives `HDR` and `DUR`,
and nothing else changes. -/
def Obligations.LoadReplacesTheFileOrRaises : Prop :=
  ∀ s : State, s.halt = false →
    encode .load = (0x30#32, 0#64) ∧
    (s.inputs.source = .absent → exec .load s = .next (s.raise .notFound)) ∧
    (∀ bytes, s.inputs.source = .present bytes →
      (Config.BUFMAX < bytes.length → exec .load s = .next (s.raise .cap)) ∧
      (bytes.length < 44 → exec .load s = .next (s.raise .short)) ∧
      (44 ≤ bytes.length → bytes.length ≤ Config.BUFMAX →
        ∀ h, h = parseHeader (bytes.take 44) →
        (duration h = .error .divZero → exec .load s = .next (s.raise .divZero)) ∧
        (∀ d, duration h = .ok d → ∃ t, exec .load s = .next t ∧
          t.bufBytes = bytes ∧ t.bufLen.toNat = bytes.length ∧ t.derived = some ⟨h, d⟩ ∧
          t.hdrv = true ∧
          t = { s with buf := t.buf, bufLen := t.bufLen, derived := t.derived,
                       responses := s.responses ++ [⟨.ok, 0#128, none⟩] })))

/-- 42_container R180: `SAVE` delivers the buffer verbatim, or raises `E_UNWRITABLE`; no state
changes. -/
def Obligations.SaveDeliversTheBuffer : Prop :=
  ∀ s : State, s.halt = false →
    encode .save = (0x31#32, 0#64) ∧
    (s.inputs.sinkOk = true → ∃ bytes, exec .save s = .next { s with
        responses := s.responses ++ [⟨.ok, 0#128, some bytes⟩] } ∧
      bytes.length = s.bufLen.toNat ∧
      ∀ a, a < s.bufLen.toNat → bytes.getD a 0#8 = s.bufByte a) ∧
    (s.inputs.sinkOk = false → exec .save s = .next (s.raise .unwritable))

/-- 42_container R188: what a `SAVE` delivers while `BUF` is as a successful `LOAD` left it is the
loaded source; while it is as a successful `UPDATE` after that left it, the header bytes and the
payload at the update. -/
def Obligations.SaveReproducesTheLoadedSource : Prop :=
  ∀ (s t u w : State) (bytes : List Byte), s.halt = false →
    s.inputs.source = .present bytes → exec .load s = .next t → t.halt = false →
    u.buf = t.buf → u.bufLen = t.bufLen → u.halt = false →
    (u.inputs.sinkOk = true → exec .save u = .next { u with
      responses := u.responses ++ [⟨.ok, 0#128, some bytes⟩] }) ∧
    (∀ v, exec .update u = .next v → v.halt = false →
      w.buf = v.buf → w.bufLen = v.bufLen → w.halt = false → w.inputs.sinkOk = true →
      exec .save w = .next { w with responses := w.responses ++
        [⟨.ok, 0#128, some (bytes.take 44 ++ u.payBytes)⟩] })

/-- 42_container R183: `EXTRACT` copies the bytes after the header to `PAY`, or raises `E_SHORT`;
nothing else changes. -/
def Obligations.ExtractCopiesThePayload : Prop :=
  ∀ s : State, s.halt = false →
    encode .extract = (0x32#32, 0#64) ∧
    (44 ≤ s.bufLen.toNat → ∃ t, exec .extract s = .next t ∧
      t.payLen.toNat = s.bufLen.toNat - 44 ∧
      (∀ a, a < s.bufLen.toNat - 44 → t.payByte a = s.bufByte (44 + a)) ∧
      t = { s with pay := t.pay, payLen := t.payLen,
                   responses := s.responses ++ [⟨.ok, 0#128, none⟩] }) ∧
    (s.bufLen.toNat < 44 → exec .extract s = .next (s.raise .short))

/-- 42_container R184: `UPDATE` overwrites the payload bytes of `BUF` by `PAY`, or raises `E_SHORT`
or `E_INVALIDARG`; the header bytes, `BUFLEN`, `HDR`, `DUR`, `PAY` and all else is unchanged. -/
def Obligations.UpdateOverwritesThePayloadInPlace : Prop :=
  ∀ s : State, s.halt = false → Memory.within s.buf s.bufLen.toNat →
    encode .update = (0x33#32, 0#64) ∧
    (44 ≤ s.bufLen.toNat → s.payLen.toNat = s.bufLen.toNat - 44 →
      ∃ t, exec .update s = .next t ∧
        (∀ a, t.bufByte a = if 44 ≤ a ∧ a < s.bufLen.toNat then s.payByte (a - 44)
          else s.bufByte a) ∧
        t = { s with buf := t.buf, responses := s.responses ++ [⟨.ok, 0#128, none⟩] }) ∧
    (s.bufLen.toNat < 44 → exec .update s = .next (s.raise .short)) ∧
    (44 ≤ s.bufLen.toNat → s.payLen.toNat ≠ s.bufLen.toNat - 44 →
      exec .update s = .next (s.raise .invalidArg))

/-- 42_container R185: `PSETLEN n` keeps the bytes below both lengths, exposes 0x00, and raises
`E_CAP` above the capacity; nothing else changes. -/
def Obligations.PsetlenKeepsAndZeroes : Prop :=
  ∀ (s : State) (n : BitVec 64), s.halt = false →
    encode (.psetlen n) = (0x34#32, n) ∧
    (n.toNat ≤ Config.BUFMAX → ∃ t, exec (.psetlen n) s = .next t ∧
      (∀ j, j < n.toNat → j < s.payLen.toNat → t.payByte j = s.payByte j) ∧
      (∀ j, j < n.toNat → s.payLen.toNat ≤ j → t.payByte j = 0#8) ∧
      t = { s with pay := t.pay, payLen := n,
                   responses := s.responses ++ [⟨.ok, 0#128, none⟩] }) ∧
    (Config.BUFMAX < n.toNat → exec (.psetlen n) s = .next (s.raise .cap))

/-- 42_container R186: `PWR idx` stores `DIN[7:0]` in `PAY[idx]`, or raises `E_INDEX` when
`idx ≥ PAYLEN`; nothing else changes. -/
def Obligations.PwrStoresTheLowByte : Prop :=
  ∀ (s : State) (idx : BitVec 64), s.halt = false → Memory.wf 0#8 s.pay →
    encode (.pwr idx) = (0x35#32, idx) ∧
    (idx.toNat < s.payLen.toNat → ∃ t, exec (.pwr idx) s = .next t ∧
      (∀ j, t.payByte j =
        if j = idx.toNat then BitVec.ofNat 8 s.inputs.din.toNat else s.payByte j) ∧
      t = { s with pay := t.pay, responses := s.responses ++ [⟨.ok, 0#128, none⟩] }) ∧
    (s.payLen.toNat ≤ idx.toNat → exec (.pwr idx) s = .next (s.raise .index))

/-- 42_container R187: `PRD idx` answers the byte, zero-extended, or raises `E_INDEX` when
`idx ≥ PAYLEN`; no state changes. -/
def Obligations.PrdAnswersTheByte : Prop :=
  ∀ (s : State) (idx : BitVec 64), s.halt = false →
    encode (.prd idx) = (0x36#32, idx) ∧
    (idx.toNat < s.payLen.toNat → exec (.prd idx) s = .next { s with
      responses := s.responses ++
        [⟨.ok, BitVec.ofNat 128 (s.payByte idx.toNat).toNat, none⟩] }) ∧
    (s.payLen.toNat ≤ idx.toNat → exec (.prd idx) s = .next (s.raise .index))

/-! ### Lifting and quantizing -/

/-- 43_quantizer R202, R201: `LIFT` replaces `X` by the bytes of `PAY` as real numbers, signed or
unsigned as `SAMPLE_SIGNED` says, with zero imaginary parts, unpadded; it raises `E_CAP` above the
capacity; nothing else changes. -/
def Obligations.LiftMakesRealSamples : Prop :=
  ∀ s : State, s.halt = false →
    encode .lift = (0x40#32, 0#64) ∧
    (s.payLen.toNat ≤ Config.NMAX → ∃ t, exec .lift s = .next t ∧ t.xLen = s.payLen ∧
      (∀ j, j < s.payLen.toNat → t.xElem j =
        ⟨num.ofInt (if Config.sampleSigned = true ∧ 128 ≤ (s.payByte j).toNat
          then (s.payByte j).toNat - 256 else (s.payByte j).toNat), 0#64⟩) ∧
      t = { s with x := t.x, xLen := t.xLen,
                   responses := s.responses ++ [⟨.ok, 0#128, none⟩] }) ∧
    (Config.NMAX < s.payLen.toNat → exec .lift s = .next (s.raise .cap))

/-- 43_quantizer R204: `QUANT count` replaces `PAY` by the quantized real parts of the first `count`
elements; it raises, in this order, `E_INDEX`, `E_CAP`, and `E_QRANGE` when one of them does not
fit; nothing else changes. -/
def Obligations.QuantWritesTheSampleBytes : Prop :=
  ∀ (s : State) (count : BitVec 64), s.halt = false →
    encode (.quant count) = (0x41#32, count) ∧
    (s.xLen.toNat < count.toNat → exec (.quant count) s = .next (s.raise .index)) ∧
    (count.toNat ≤ s.xLen.toNat → Config.BUFMAX < count.toNat →
      exec (.quant count) s = .next (s.raise .cap)) ∧
    (count.toNat ≤ s.xLen.toNat → count.toNat ≤ Config.BUFMAX →
      (∀ j e, j < count.toNat → quantize num Config.sampleSigned (s.xElem j) = .error e →
        exec (.quant count) s = .next (s.raise .qRange)) ∧
      (∀ byte : Nat → Byte,
        (∀ j, j < count.toNat → quantize num Config.sampleSigned (s.xElem j) = .ok (byte j)) →
        ∃ t, exec (.quant count) s = .next t ∧ t.payLen = count ∧
          (∀ j, j < count.toNat → t.payByte j = byte j) ∧
          t = { s with pay := t.pay, payLen := t.payLen,
                       responses := s.responses ++ [⟨.ok, 0#128, none⟩] }))

/-- 43_quantizer R203: `Quant` is `floor(x + 0.5)` of the real part where that fits the sample type,
and an error where it does not or is no integer; and it brings every lifted byte back, whatever
the imaginary part. -/
def Obligations.QuantizeInvertsLifting : Prop :=
  (∀ (signed : Bool) (v : C64),
    (num.toInt (num.ffloor (num.fadd v.re num.half)) = none →
      quantize num signed v = .error .qRange) ∧
    (∀ n, num.toInt (num.ffloor (num.fadd v.re num.half)) = some n →
      (signed = true ∧ -128 ≤ n ∧ n ≤ 127 ∨ signed = false ∧ 0 ≤ n ∧ n ≤ 255 →
        ∃ b, quantize num signed v = .ok b ∧ (b.toNat : Int) = n % 256) ∧
      (signed = true ∧ (n < -128 ∨ 127 < n) ∨ signed = false ∧ (n < 0 ∨ 255 < n) →
        quantize num signed v = .error .qRange))) ∧
  (∀ (signed : Bool) (b : Byte) (y : F64),
    quantize num signed ⟨num.ofInt (byteval signed b), y⟩ = .ok b)
end

