-- ==== Sys2Proof/Laws/Decode.lean ====
section
/-! SUPPORT. The fields of a command word: what `formatC` puts in and what the decoder takes out. -/

namespace Sys2Proof

/-- Every field of a word made by `formatC` is what was put there. -/
theorem fields_formatC (op : Nat) (h : op < 256) (zd za zb : ZReg) :
    fieldReserved (formatC op zd za zb) = 0 ∧ fieldOp (formatC op zd za zb) = op ∧
    fieldZd (formatC op zd za zb) = zd ∧ fieldZa (formatC op zd za zb) = za ∧
    fieldZb (formatC op zd za zb) = zb := by
  have := zd.isLt; have := za.isLt; have := zb.isLt
  simp only [fieldReserved, fieldOp, fieldZd, fieldZa, fieldZb, slice, formatC,
    BitVec.toNat_ofNat]
  omega

/-- The word is made of its fields. -/
theorem formatC_fields (cmd : BitVec 32) (op : Nat) (zd za zb : ZReg)
    (h0 : fieldReserved cmd = 0) (h1 : fieldOp cmd = op) (h2 : fieldZd cmd = zd)
    (h3 : fieldZa cmd = za) (h4 : fieldZb cmd = zb) : formatC op zd za zb = cmd := by
  apply BitVec.eq_of_toNat_eq
  have := cmd.isLt
  simp only [fieldReserved, fieldOp, fieldZd, fieldZa, fieldZb, slice, formatC,
    BitVec.toNat_ofNat] at *
  omega

/-- Decoding a word made by `formatC`. -/
theorem decode_formatC (op : Nat) (h : op < 256) (zd za zb : ZReg) (arg : BitVec 64) :
    decode (formatC op zd za zb) arg = decodeOp op zd za zb arg := by
  obtain ⟨h0, h1, h2, h3, h4⟩ := fields_formatC op h zd za zb
  simp only [decode, h0, h1, h2, h3, h4, ne_eq, not_true_eq_false, if_false]

@[simp] theorem regOf_val (r : ZReg) : regOf r.val = r := by simp [regOf]

theorem val_regOf (n : Nat) (h : n < 4) : (regOf n : ZReg).val = n := by
  simp [regOf, Nat.mod_eq_of_lt h]

/-- All that `requireZero` can accept. -/
theorem requireZero_ok {l : List Nat} {a : Option (BitVec 64)} {i j : Instr}
    (h : requireZero l a i = .ok j) :
    i = j ∧ (∀ n ∈ l, n = 0) ∧ (∀ b, a = some b → b = 0#64) := by
  simp only [requireZero] at h
  split at h
  · cases h
  · split at h
    · cases h
    · rename_i h1 h2
      cases h
      refine ⟨rfl, by simpa using h1, ?_⟩
      rintro b rfl
      simpa using h2

end Sys2Proof
end

