-- ==== Sys2Proof/Laws/Rounding.lean ====
section
/-! SUPPORT. What the one rounding function does: `roundRatio` gives the correctly rounded value of a
fraction, an infinity on overflow included (40_complex_alu R111). -/

namespace Sys2Proof.Machine

/-! ### The fields of a packed value -/

theorem f64Pack_toNat (neg : Bool) {low : Nat} (h : low < 2 ^ 63) :
    (f64Pack neg low).toNat = (if neg then 2 ^ 63 else 0) + low := by
  simp only [f64Pack, BitVec.toNat_ofNat]
  cases neg <;> simp <;> omega

theorem f64Sign_pack (neg : Bool) {low : Nat} (h : low < 2 ^ 63) :
    f64Sign (f64Pack neg low) = neg := by
  simp only [f64Sign, f64Pack_toNat neg h]
  cases neg <;> simp <;> omega

theorem f64Exp_pack (neg : Bool) {low : Nat} (h : low < 2 ^ 63) :
    f64Exp (f64Pack neg low) = low / 2 ^ 52 := by
  simp only [f64Exp, f64Pack_toNat neg h]
  cases neg <;> simp <;> omega

theorem f64Frac_pack (neg : Bool) {low : Nat} (h : low < 2 ^ 63) :
    f64Frac (f64Pack neg low) = low % 2 ^ 52 := by
  simp only [f64Frac, f64Pack_toNat neg h]
  cases neg <;> simp <;> omega

theorem f64Mag_pack (neg : Bool) {q m : Nat} (hm : m ≤ 2 ^ 53) (hq : 0 < q → 2 ^ 52 ≤ m)
    (hl : q * 2 ^ 52 + m < f64InfLow) : f64Mag (f64Pack neg (q * 2 ^ 52 + m)) = m * 2 ^ q := by
  have hl' : q * 2 ^ 52 + m < 2 ^ 63 := by simp only [f64InfLow] at hl; omega
  simp only [f64Mag, f64Exp_pack neg hl', f64Frac_pack neg hl']
  by_cases h1 : m < 2 ^ 52
  · have hq0 : q = 0 := by omega
    subst hq0
    have : m / 2 ^ 52 = 0 := by omega
    rw [Nat.zero_mul, Nat.zero_add, if_pos this, Nat.mod_eq_of_lt h1, pow_zero, Nat.mul_one]
  · by_cases h2 : m = 2 ^ 53
    · subst h2
      have e1 : (q * 2 ^ 52 + 2 ^ 53) / 2 ^ 52 = q + 2 := by omega
      have e2 : (q * 2 ^ 52 + 2 ^ 53) % 2 ^ 52 = 0 := by omega
      rw [e1, e2, if_neg (by omega), Nat.add_zero, show q + 2 - 1 = q + 1 by omega, pow_succ]
      ring
    · have e1 : (q * 2 ^ 52 + m) / 2 ^ 52 = q + 1 := by omega
      have e2 : (q * 2 ^ 52 + m) % 2 ^ 52 = m - 2 ^ 52 := by omega
      rw [e1, e2, if_neg (by omega), Nat.add_sub_cancel' (by omega), Nat.add_sub_cancel]

/-- No finite value lies between two neighbours `m * 2^q` and `(m + 1) * 2^q`. -/
theorem f64Mag_grid (v : F64) {q m : Nat} (hq : 0 < q → 2 ^ 52 ≤ m) :
    f64Mag v ≤ m * 2 ^ q ∨ (m + 1) * 2 ^ q ≤ f64Mag v := by
  have hf : f64Frac v < 2 ^ 52 := Nat.mod_lt _ (by decide)
  rcases Nat.eq_zero_or_pos q with rfl | hpos
  · simp; omega
  have hm := hq hpos
  unfold f64Mag
  split
  · left
    have : 1 ≤ 2 ^ q := Nat.one_le_two_pow
    nlinarith
  · rename_i he
    generalize f64Exp v - 1 = e at *
    rcases Nat.lt_or_ge e q with h | h
    · left
      obtain ⟨k, rfl⟩ := Nat.exists_eq_add_of_lt h
      have h1 : (2 ^ 52 + f64Frac v) * 2 ^ e ≤ 2 ^ 53 * 2 ^ e := Nat.mul_le_mul_right _ (by omega)
      have h2 : 2 ^ 52 * 2 ^ (e + k + 1) ≤ m * 2 ^ (e + k + 1) := Nat.mul_le_mul_right _ hm
      have h3 : 2 ^ 53 * 2 ^ e ≤ 2 ^ 52 * 2 ^ (e + k + 1) := by
        rw [← pow_add, ← pow_add]; exact Nat.pow_le_pow_right (by decide) (by omega)
      omega
    · obtain ⟨k, rfl⟩ := Nat.exists_eq_add_of_le h
      rw [pow_add, mul_comm (2 ^ q), ← mul_assoc]
      rcases Nat.lt_or_ge ((2 ^ 52 + f64Frac v) * 2 ^ k) (m + 1) with h | h
      · exact .inl (Nat.mul_le_mul_right _ (by omega))
      · exact .inr (Nat.mul_le_mul_right _ h)

theorem roundTiesEven_bounds (m r d : Nat) :
    m ≤ roundTiesEven m r d ∧ roundTiesEven m r d ≤ m + 1 := by
  unfold roundTiesEven; split <;> omega

/-- The parts of a rounding: the exact value is `m` units of the binade and a rest `r`. -/
theorem roundMag_parts {num den N : Nat} (hd : 0 < den) (hNum : num * 2 ^ 1074 = N) :
    ∃ q m r, m < 2 ^ 53 ∧ (0 < q → 2 ^ 52 ≤ m) ∧ r < den * 2 ^ q ∧ N = m * (den * 2 ^ q) + r ∧
      roundMag num den = min (q * 2 ^ 52 + roundTiesEven m r (den * 2 ^ q)) f64InfLow := by
  refine ⟨Nat.log2 (N / den) - 52, N / (den * 2 ^ (Nat.log2 (N / den) - 52)),
    N % (den * 2 ^ (Nat.log2 (N / den) - 52)), ?_, ?_, Nat.mod_lt _ (by positivity),
    (Nat.div_add_mod' _ _).symm, ?_⟩
  · rw [← Nat.div_div_eq_div_mul, Nat.div_lt_iff_lt_mul (by positivity), ← pow_add]
    refine Nat.lt_of_lt_of_le Nat.lt_log2_self (Nat.pow_le_pow_right (by decide) (by omega))
  · intro h
    rw [← Nat.div_div_eq_div_mul, Nat.le_div_iff_mul_le (by positivity), ← pow_add]
    have hne : N / den ≠ 0 := by
      intro h0; rw [h0] at h; simp at h
    refine Nat.le_trans (Nat.pow_le_pow_right (by decide) (by omega)) (Nat.log2_self_le hne)
  · rw [← hNum]; rfl

/-- The result is an infinity exactly from `2^1024 - 2^970` on. -/
theorem roundMag_overflow {q m r m' N den : Nat} (hd : 0 < den) (hm : m < 2 ^ 53)
    (hq : 0 < q → 2 ^ 52 ≤ m) (hr : r < den * 2 ^ q)
    (hN : N = m * (den * 2 ^ q) + r) (hm' : m' = roundTiesEven m r (den * 2 ^ q)) :
    f64InfLow ≤ q * 2 ^ 52 + m' ↔ (2 ^ 54 - 1) * 2 ^ 2044 * den ≤ N := by
  have hmm := roundTiesEven_bounds m r (den * 2 ^ q)
  rw [← hm'] at hmm
  subst hN
  have hp : 0 < 2 ^ q := by positivity
  rcases Nat.lt_trichotomy q 2045 with h | h | h
  · refine iff_of_false ?_ ?_
    · simp only [f64InfLow]; omega
    · have h1 : m * (den * 2 ^ q) + r < 2 ^ 53 * (den * 2 ^ q) := by
        calc m * (den * 2 ^ q) + r < (m + 1) * (den * 2 ^ q) := by rw [Nat.add_mul]; omega
          _ ≤ _ := Nat.mul_le_mul_right _ hm
      have h2 : 2 ^ 53 * (den * 2 ^ q) ≤ (2 ^ 54 - 1) * 2 ^ 2044 * den := by
        calc 2 ^ 53 * (den * 2 ^ q) = 2 ^ (53 + q) * den := by rw [pow_add]; ring
          _ ≤ 2 ^ (53 + 2044) * den :=
              Nat.mul_le_mul_right _ (Nat.pow_le_pow_right (by decide) (by omega))
          _ ≤ _ := by rw [pow_add]; exact Nat.mul_le_mul_right _ (Nat.mul_le_mul_right _ (by decide))
      omega
  · subst h
    generalize hu : den * 2 ^ 2044 = u at *
    have hden : den * 2 ^ 2045 = 2 * u := by rw [← hu, pow_succ]; ring
    have hu0 : 0 < u := by rw [← hu]; positivity
    rw [hden] at hr hm' ⊢
    rw [show (2 ^ 54 - 1) * 2 ^ 2044 * den = (2 ^ 54 - 1) * u by rw [← hu]; ring]
    by_cases hmax : m = 2 ^ 53 - 1
    · subst hmax
      have : roundTiesEven (2 ^ 53 - 1) r (2 * u) = if u ≤ r then 2 ^ 53 else 2 ^ 53 - 1 := by
        unfold roundTiesEven; split <;> split <;> omega
      rw [hm', this]
      simp only [f64InfLow]
      split <;> omega
    · refine iff_of_false ?_ ?_
      · simp only [f64InfLow]; omega
      · have h1 : m * (2 * u) ≤ (2 ^ 53 - 2) * (2 * u) := Nat.mul_le_mul_right _ (by omega)
        omega
  · refine iff_of_true ?_ ?_
    · have := hq (by omega)
      simp only [f64InfLow]; omega
    · have h1 := hq (by omega)
      have h2 : 2 ^ 52 * (den * 2 ^ 2046) ≤ m * (den * 2 ^ q) :=
        Nat.mul_le_mul h1 (Nat.mul_le_mul_left _ (Nat.pow_le_pow_right (by decide) (by omega)))
      have h3 : (2 ^ 54 - 1) * 2 ^ 2044 * den ≤ 2 ^ 52 * (den * 2 ^ 2046) := by
        calc (2 ^ 54 - 1) * 2 ^ 2044 * den ≤ (2 ^ 54) * 2 ^ 2044 * den :=
              Nat.mul_le_mul_right _ (Nat.mul_le_mul_right _ (by decide))
          _ = _ := by rw [← pow_add, show (2046 : Nat) = 2044 + 2 from rfl, pow_add 2 2044 2, pow_add]; ring
      omega

/-- A finite result is as near to the exact value `N/den` as any finite value. -/
theorem roundMag_nearest {num den N : Nat} (hd : 0 < den) (hNum : num * 2 ^ 1074 = N)
    (h : roundMag num den < f64InfLow) :
    ∃ mag, (∀ neg, f64Mag (f64Pack neg (roundMag num den)) = mag) ∧
      ∀ v : F64, ((mag * den : Nat) - (N : Int)).natAbs ≤
          ((f64Mag v * den : Nat) - (N : Int)).natAbs ∧
        (((mag * den : Nat) - (N : Int)).natAbs = ((f64Mag v * den : Nat) - (N : Int)).natAbs →
          f64Mag v ≠ mag → roundMag num den % 2 = 0) := by
  obtain ⟨q, m, r, hm, hq, hr, hN, hR⟩ := roundMag_parts hd hNum
  clear hNum
  have hmm := roundTiesEven_bounds m r (den * 2 ^ q)
  generalize hm' : roundTiesEven m r (den * 2 ^ q) = m' at *
  have hlow : q * 2 ^ 52 + m' < f64InfLow := by
    rcases Nat.lt_or_ge (q * 2 ^ 52 + m') f64InfLow with h1 | h1
    · exact h1
    · rw [Nat.min_eq_right h1] at hR; exact absurd h (by rw [hR]; exact Nat.lt_irrefl _)
  have hR' : roundMag num den = q * 2 ^ 52 + m' := by rw [hR, Nat.min_eq_left hlow.le]
  refine ⟨m' * 2 ^ q, fun neg => by
    rw [hR']; exact f64Mag_pack neg (Nat.le_trans hmm.2 hm) (fun hp => Nat.le_trans (hq hp) hmm.1) hlow, fun v => ?_⟩
  rw [hR']
  have hgrid := f64Mag_grid v hq
  generalize hd' : den * 2 ^ q = d at *
  have hmag : m' * 2 ^ q * den = m' * d := by rw [← hd']; ring
  rw [hmag]
  generalize f64Mag v = M at *
  have hM : M * den ≤ m * d ∨ m * d + d ≤ M * den := by
    rw [← hd']
    rcases hgrid with h | h
    · left; calc M * den ≤ m * 2 ^ q * den := Nat.mul_le_mul_right _ h
        _ = _ := by ring
    · right; calc m * (den * 2 ^ q) + den * 2 ^ q = (m + 1) * 2 ^ q * den := by ring
        _ ≤ _ := Nat.mul_le_mul_right _ h
  have hMeq : M * den = m' * d → M = m' * 2 ^ q := by
    intro h
    rw [← hd'] at h
    exact Nat.eq_of_mul_eq_mul_right hd (by rw [h]; ring)
  have hodd : (q * 2 ^ 52 + m') % 2 = m' % 2 := by omega
  rw [hodd]
  clear hR hlow hR' hgrid hmag hq hodd h hd'
  have hne : M ≠ m' * 2 ^ q → M * den ≠ m' * d := fun h1 h2 => h1 (hMeq h2)
  clear hMeq
  replace hm' := hm'.symm
  unfold roundTiesEven at hm'
  have hz : m' * d = if m' = m then m * d else m * d + d := by
    split
    · rw [‹m' = m›]
    · rw [show m' = m + 1 by omega]; ring
  generalize m' * d = z' at *
  generalize m * d = z at *
  generalize M * den = w at *
  generalize m' * 2 ^ q = M' at *
  subst hN
  split at hm'
  · rw [if_neg (by omega)] at hz
    subst hz
    refine ⟨by omega, fun h1 h2 => ?_⟩
    have := hne h2
    omega
  · rw [if_pos hm'] at hz
    subst hz
    refine ⟨by omega, fun h1 h2 => ?_⟩
    have := hne h2
    omega

/-- `roundMag` is an infinity exactly on overflow. -/
theorem roundMag_overflow_iff {num den N : Nat} (hd : 0 < den) (hNum : num * 2 ^ 1074 = N) :
    f64InfLow ≤ roundMag num den ↔ (2 ^ 54 - 1) * 2 ^ 2044 * den ≤ N := by
  obtain ⟨q, m, r, hm, hq, hr, hN, hR⟩ := roundMag_parts hd hNum
  rw [← roundMag_overflow hd hm hq hr hN rfl, hR, le_min_iff, and_iff_left (Nat.le_refl _)]

/-- Everything that rounding does: `roundRatio` is the correctly rounded value of `num/den`. -/
theorem roundRatio_roundsTo (neg : Bool) {num den N : Nat} (hd : 0 < den)
    (hNum : num * 2 ^ 1074 = N) :
    RoundsTo (roundRatio neg num den) (if neg then -(N : Int) else N) den ∧
    f64Sign (roundRatio neg num den) = neg := by
  have hle : roundMag num den ≤ f64InfLow := Nat.min_le_right _ _
  have hlt : roundMag num den < 2 ^ 63 := by simp only [f64InfLow] at hle; omega
  refine ⟨?_, f64Sign_pack neg hlt⟩
  have hov := roundMag_overflow_iff hd hNum
  have habs : (if neg then -(N : Int) else N).natAbs = N := by cases neg <;> simp
  unfold RoundsTo
  rw [habs]
  have hT : 0 < (2 ^ 54 - 1) * 2 ^ 2044 := Nat.mul_pos (by decide) (Nat.two_pow_pos _)
  generalize (2 ^ 54 - 1) * 2 ^ 2044 = T at *
  refine ⟨fun h => ?_, fun h => ?_⟩
  · have h1 : roundMag num den = f64InfLow := Nat.le_antisymm hle (hov.2 h)
    have hpos : 0 < N :=
      Nat.lt_of_lt_of_le (Nat.mul_pos hT hd) h
    clear h hov habs
    have hneg : decide ((if neg then -(N : Int) else N) < 0) = neg := by
      cases neg <;> simp <;> omega
    rw [hneg, roundRatio, h1]; rfl
  · have h1 : roundMag num den < f64InfLow := Nat.lt_of_not_le (mt hov.1 (Nat.not_le.2 h))
    obtain ⟨mag, hmag, hnear⟩ := roundMag_nearest hd hNum h1
    clear hov h habs hNum
    have hs : f64Scaled (roundRatio neg num den) = if neg then -(mag : Int) else mag := by
      simp only [f64Scaled, roundRatio, f64Sign_pack neg hlt, hmag]
    have he : (roundRatio neg num den).toNat % 2 = roundMag num den % 2 := by
      simp only [roundRatio, f64Pack_toNat neg hlt]
      cases neg
      · simp
      · simp only [if_true]; omega
    refine ⟨?_, fun v hv => ?_⟩
    · simp only [roundRatio, f64IsFinite, f64Exp_pack neg hlt]
      simp only [f64InfLow] at h1
      simp only [bne_iff_ne, ne_eq]; omega
    · obtain ⟨ha, hb⟩ := hnear v
      have h0 := (hnear 0#64).1
      have h00 : f64Mag 0#64 = 0 := by decide
      rw [h00, Nat.zero_mul] at h0
      rw [hs, he]
      have hv' : f64Scaled v = f64Mag v ∨ f64Scaled v = -(f64Mag v : Int) := by
        unfold f64Scaled; split <;> simp
      have hz : f64Mag v * den = 0 → f64Mag v = 0 := fun h => by
        rcases Nat.mul_eq_zero.1 h with h | h
        · exact h
        · omega
      have hz2 : f64Mag v = 0 → f64Mag v * den = 0 := fun h => by rw [h, Nat.zero_mul]
      have hz3 : mag = 0 → mag * den = 0 := fun h => by rw [h, Nat.zero_mul]
      have hmul : ∀ a : Nat, (a : Int) * den = ((a * den : Nat) : Int) := fun a => by push_cast; rfl
      have hmuln : ∀ a : Nat, -(a : Int) * den = -((a * den : Nat) : Int) := fun a => by
        push_cast; ring
      cases neg <;> simp only [Bool.false_eq_true, if_false, if_true] <;>
        rcases hv' with e | e <;> rw [e] <;> simp only [hmul, hmuln] <;>
        generalize f64Mag v * den = w at * <;> generalize mag * den = z at * <;>
        generalize f64Mag v = M at * <;>
        exact ⟨by omega, fun h1 h2 => hb (by omega) (by omega)⟩

/-- Rounding depends on the fraction alone. -/
theorem RoundsTo.of_scaled {r : F64} {num : Int} {den k : Nat} (hk : 0 < k)
    (h : RoundsTo r (num * k) (den * k)) : RoundsTo r num den := by
  unfold RoundsTo at h ⊢
  generalize (2 ^ 54 - 1) * 2 ^ 2044 = T at *
  have hk' : (0 : Int) < k := by exact_mod_cast hk
  have dist : ∀ v : F64, (f64Scaled v * (den * k : Nat) - num * k).natAbs =
      (f64Scaled v * den - num).natAbs * k := by
    intro v
    rw [show f64Scaled v * (den * k : Nat) - num * k = (f64Scaled v * den - num) * k by
      push_cast; ring, Int.natAbs_mul, Int.natAbs_natCast]
  have hT : T * (den * k) ≤ (num * k).natAbs ↔ T * den ≤ num.natAbs := by
    rw [Int.natAbs_mul, Int.natAbs_natCast, ← mul_assoc, Nat.mul_le_mul_right_iff hk]
  have hsgn : num * k < 0 ↔ num < 0 := by
    constructor
    · intro h; by_contra h0; exact absurd (mul_nonneg (not_lt.1 h0) hk'.le) (not_le.2 h)
    · intro h; exact mul_neg_of_neg_of_pos h hk'
  refine ⟨fun hc => ?_, fun hc => ?_⟩
  · rw [h.1 (hT.2 hc)]
    simp only [hsgn]
  · have h2 := h.2 (Nat.lt_of_not_le (mt hT.1 (Nat.not_le.2 hc)))
    refine ⟨h2.1, fun v hv => ?_⟩
    have h1 := h2.2 v hv
    rw [dist, dist, Nat.mul_le_mul_right_iff hk] at h1
    exact ⟨h1.1, fun he => h1.2 (by rw [he])⟩

/-- The rounding of `num/den`, with the exact value in units of `2^-1074` as another fraction. -/
theorem roundRatio_roundsTo_of_eq (neg : Bool) {num den k N : Nat} {value : Int} {unit : Nat}
    (hd : 0 < den) (hk : 0 < k) (hN : num * 2 ^ 1074 = N) (hu : unit * k = den)
    (hv : (if neg then -(N : Int) else N) = value * k) :
    RoundsTo (roundRatio neg num den) value unit := by
  have h := roundRatio_roundsTo neg hd hN
  rw [hv, ← hu] at h
  rw [← hu]
  exact h.1.of_scaled hk

end Sys2Proof.Machine
end

