-- ==== Sys2Proof/Laws/Nearest.lean ====
section
/-! SUPPORT. Binary64 values as real numbers: what makes a value the nearest to a real number, and
that an enclosure both of whose ends round to one value gives the nearest value to all it encloses. -/

namespace Sys2Proof.Machine

/-! ### Signs -/

theorem f64Neg_toNat (x : F64) :
    (f64Neg x).toNat = (if f64Sign x then 0 else 2 ^ 63) + x.toNat % 2 ^ 63 := by
  rw [f64Neg, f64Pack_toNat _ (Nat.mod_lt _ (by decide))]
  cases f64Sign x <;> simp

theorem f64Neg_parity (x : F64) : (f64Neg x).toNat % 2 = x.toNat % 2 := by
  rw [f64Neg_toNat]; cases f64Sign x <;> simp <;> omega

theorem f64Exp_neg (x : F64) : f64Exp (f64Neg x) = f64Exp x := by
  rw [f64Neg, f64Exp_pack _ (Nat.mod_lt _ (by decide)), f64Exp]; omega

theorem f64Frac_neg (x : F64) : f64Frac (f64Neg x) = f64Frac x := by
  rw [f64Neg, f64Frac_pack _ (Nat.mod_lt _ (by decide)), f64Frac]; omega

theorem f64Sign_neg (x : F64) : f64Sign (f64Neg x) = !f64Sign x := by
  rw [f64Neg, f64Sign_pack _ (Nat.mod_lt _ (by decide))]

@[simp] theorem f64Mag_neg (x : F64) : f64Mag (f64Neg x) = f64Mag x := by
  simp only [f64Mag, f64Exp_neg, f64Frac_neg]

@[simp] theorem f64IsFinite_neg (x : F64) : f64IsFinite (f64Neg x) = f64IsFinite x := by
  simp only [f64IsFinite, f64Exp_neg]

@[simp] theorem f64Scaled_neg (x : F64) : f64Scaled (f64Neg x) = -f64Scaled x := by
  simp only [f64Scaled, f64Sign_neg, f64Mag_neg]
  cases f64Sign x <;> simp

@[simp] theorem f64Real_neg (x : F64) : f64Real (f64Neg x) = -f64Real x := by
  simp only [f64Real, f64Scaled_neg, Int.cast_neg, neg_div]

/-- The nearest value to the negative of a number. -/
theorem RoundsToReal.neg {r : F64} {y : ℝ} (h : RoundsToReal r y) :
    RoundsToReal (f64Neg r) (-y) := by
  refine ⟨by simpa using h.1, fun v hv => ?_⟩
  have h1 := h.2 (f64Neg v) (by simpa using hv)
  rw [f64Real_neg, f64Scaled_neg] at h1
  have e1 : |f64Real (f64Neg r) - -y| = |f64Real r - y| := by
    rw [f64Real_neg, ← abs_neg]; congr 1; ring
  have e2 : |f64Real v - -y| = |-f64Real v - y| := by
    rw [← abs_neg]; congr 1; ring
  rw [e1, e2, f64Scaled_neg, f64Neg_parity]
  exact ⟨h1.1, fun a b => h1.2 a (by omega)⟩

/-! ### Nearest values -/

theorem f64Real_inj {u v : F64} (h : f64Real u = f64Real v) : f64Scaled u = f64Scaled v := by
  have hp : (2 ^ 1074 : ℝ) ≠ 0 := by positivity
  rw [f64Real, f64Real, div_left_inj' hp] at h
  exact_mod_cast h

/-- The distance of a value from a fraction. -/
theorem abs_f64Real_sub (v : F64) (n : Int) {den : Nat} (hd : 0 < den) :
    |f64Real v - n / den| =
      ((f64Scaled v * den - n * 2 ^ 1074).natAbs : ℝ) / (2 ^ 1074 * den) := by
  have hp : (0 : ℝ) < 2 ^ 1074 := by positivity
  have hd' : (0 : ℝ) < den := by exact_mod_cast hd
  rw [Nat.cast_natAbs, f64Real]
  generalize hP : (2 ^ 1074 : ℝ) = P at *
  have hP' : ((2 ^ 1074 : Int) : ℝ) = P := by rw [← hP]; push_cast; rfl
  generalize (2 ^ 1074 : Int) = Q at *
  push_cast
  rw [hP', eq_div_iff (by positivity), ← abs_of_pos (show 0 < P * den by positivity), ← abs_mul]
  congr 1
  field_simp

/-- A fraction that does not overflow rounds to its nearest value. -/
theorem roundRatio_nearest (neg : Bool) {num den : Nat} (hd : 0 < den)
    (h : roundMag num den < f64InfLow) :
    RoundsToReal (roundRatio neg num den) ((if neg then -(num : ℝ) else num) / den) := by
  obtain ⟨N, hN⟩ : ∃ N, num * 2 ^ 1074 = N := ⟨_, rfl⟩
  have h1 := (roundRatio_roundsTo neg hd hN).1.2
  have habs : (if neg then -(N : Int) else N).natAbs = N := by cases neg <;> simp
  have hn : (if neg then -(N : Int) else N) = (if neg then -(num : Int) else num) * 2 ^ 1074 := by
    rw [← hN]; cases neg <;> push_cast <;> simp
  have hc : (if neg then -(num : ℝ) else num) = ((if neg then -(num : Int) else num : Int) : ℝ) := by
    cases neg <;> simp
  rw [habs, hn] at h1
  replace h1 := h1 (Nat.lt_of_not_le (mt (roundMag_overflow_iff hd hN).2 (Nat.not_le.2 h)))
  clear h habs
  refine ⟨h1.1, fun v hv => ?_⟩
  rw [hc, abs_f64Real_sub _ _ hd, abs_f64Real_sub _ _ hd]
  have hpos : (0 : ℝ) < 2 ^ 1074 * den := by positivity
  rw [div_le_div_iff_of_pos_right hpos, div_left_inj' hpos.ne']
  obtain ⟨h2, h3⟩ := h1.2 v hv
  exact ⟨by exact_mod_cast h2, fun h4 => h3 (by exact_mod_cast h4)⟩

/-- The nearest value to both ends of an interval is the nearest value to all of it. -/
theorem RoundsToReal.of_between {r : F64} {a b y : ℝ} (ha : RoundsToReal r a)
    (hb : RoundsToReal r b) (hay : a ≤ y) (hyb : y ≤ b) : RoundsToReal r y := by
  refine ⟨ha.1, fun v hv => ?_⟩
  obtain ⟨ha1, ha2⟩ := ha.2 v hv
  obtain ⟨hb1, hb2⟩ := hb.2 v hv
  have hinj : f64Scaled v ≠ f64Scaled r → f64Real v ≠ f64Real r := mt f64Real_inj
  generalize f64Real r = ρ at *
  generalize f64Real v = ν at *
  rw [← sq_le_sq] at ha1 hb1 ⊢
  rw [← sq_eq_sq_iff_abs_eq_abs] at ha2 hb2 ⊢
  rcases lt_trichotomy ν ρ with h | h | h
  · have h2 : ν + ρ ≤ 2 * a := by nlinarith
    refine ⟨by nlinarith, fun h3 h4 => ha2 ?_ h4⟩
    have : ν + ρ = 2 * y := by
      have : (ρ - ν) * (ν + ρ - 2 * y) = 0 := by linear_combination h3
      rcases mul_eq_zero.1 this with h5 | h5 <;> linarith
    have : a = y := by linarith
    rw [this]; exact h3
  · subst h; exact ⟨le_rfl, fun _ h4 => absurd rfl (hinj h4)⟩
  · have h2 : 2 * b ≤ ν + ρ := by nlinarith
    refine ⟨by nlinarith, fun h3 h4 => hb2 ?_ h4⟩
    have : ν + ρ = 2 * y := by
      have : (ρ - ν) * (ν + ρ - 2 * y) = 0 := by linear_combination h3
      rcases mul_eq_zero.1 this with h5 | h5 <;> linarith
    have : b = y := by linarith
    rw [this]; exact h3

/-- A fraction up to 2 does not overflow. -/
theorem roundMag_lt_of_le {num den : Nat} (hd : 0 < den) (h : num ≤ den * 2) :
    roundMag num den < f64InfLow := by
  obtain ⟨N, hN⟩ : ∃ N, num * 2 ^ 1074 = N := ⟨_, rfl⟩
  refine Nat.lt_of_not_le (mt (roundMag_overflow_iff hd hN).1 (Nat.not_le.2 ?_))
  rw [← hN]
  have h1 : 2 * (2 : Nat) ^ 1074 < (2 ^ 54 - 1) * 2 ^ 2044 := by decide +kernel
  generalize (2 ^ 54 - 1) * 2 ^ 2044 = T at *
  generalize 2 ^ 1074 = U at *
  calc num * U ≤ den * 2 * U := Nat.mul_le_mul_right _ h
    _ = den * (2 * U) := Nat.mul_assoc _ _ _
    _ < den * T := Nat.mul_lt_mul_of_pos_left h1 hd
    _ = _ := Nat.mul_comm _ _

/-- The ends of an enclosure of a number up to 1, from a positive one on. -/
theorem enclosure_toNat {low high : Int} {lowDen highDen : Nat} {y : ℝ} (hl : 0 < lowDen)
    (hh : 0 < highDen) (h1 : (low : ℝ) / lowDen ≤ y) (h2 : y ≤ (high : ℝ) / highDen) (hy : y ≤ 1)
    (hpos : 0 < low) :
    low.toNat ≤ lowDen ∧ (low.toNat : ℝ) = low ∧ (high.toNat : ℝ) = high := by
  have hl' : (0 : ℝ) < lowDen := by exact_mod_cast hl
  have hh' : (0 : ℝ) < highDen := by exact_mod_cast hh
  have hpos' : (0 : ℝ) < low := by exact_mod_cast hpos
  have hhigh : 0 ≤ high := by
    have : (0 : ℝ) < (high : ℝ) / highDen := lt_of_lt_of_le (by positivity) (h1.trans h2)
    rw [lt_div_iff₀ hh', zero_mul] at this
    exact_mod_cast this.le
  have e1 : (low.toNat : ℝ) = low := by exact_mod_cast (Int.toNat_of_nonneg hpos.le)
  have e2 : (high.toNat : ℝ) = high := by exact_mod_cast Int.toNat_of_nonneg hhigh
  refine ⟨?_, e1, e2⟩
  rw [div_le_iff₀ hl'] at h1
  have : (low.toNat : ℝ) ≤ lowDen := by rw [e1]; nlinarith
  exact_mod_cast this

/-- What `resolve` answers is the nearest value to every number of the enclosure, of size at
most 1. -/
theorem resolve_nearest {low high : Int} {lowDen highDen : Nat} {r : F64} {y : ℝ}
    (h : resolve low lowDen high highDen = some r) (hl : 0 < lowDen) (hh : 0 < highDen)
    (h1 : (low : ℝ) / lowDen ≤ y) (h2 : y ≤ (high : ℝ) / highDen) (hy : |y| ≤ 1) :
    RoundsToReal r y := by
  obtain ⟨hy1, hy2⟩ := abs_le.1 hy
  unfold resolve at h
  split at h
  · rename_i hpos
    obtain ⟨hle, e1, e2⟩ := enclosure_toNat hl hh h1 h2 hy2 hpos
    split at h
    · rename_i heq
      have hlt := roundMag_lt_of_le hl (Nat.le_trans hle (Nat.le_mul_of_pos_right _ Nat.two_pos))
      have a := roundRatio_nearest false hl hlt
      have b := roundRatio_nearest false hh (by rw [← heq]; exact hlt)
      rw [roundRatio, ← heq, ← roundRatio] at b
      rw [Option.some.inj h] at a b
      rw [if_neg (by simp), e1] at a
      rw [if_neg (by simp), e2] at b
      exact a.of_between b h1 h2
    · cases h
  · split at h
    · rename_i hneg
      have g1 : ((-high : Int) : ℝ) / highDen ≤ -y := by push_cast; rw [neg_div]; linarith
      have g2 : -y ≤ ((-low : Int) : ℝ) / lowDen := by push_cast; rw [neg_div]; linarith
      obtain ⟨hle, e2, e1⟩ := enclosure_toNat hh hl g1 g2 (by linarith) (Int.neg_pos_of_neg hneg)
      split at h
      · rename_i heq
        have hlt := roundMag_lt_of_le hh (Nat.le_trans hle (Nat.le_mul_of_pos_right _ Nat.two_pos))
        have b := roundRatio_nearest true hh hlt
        have a := roundRatio_nearest true hl (by rw [heq]; exact hlt)
        rw [roundRatio, ← heq, ← roundRatio] at b
        rw [Option.some.inj h] at a b
        rw [if_pos rfl, e1] at a
        rw [if_pos rfl, e2] at b
        push_cast at a b
        rw [neg_neg] at a b
        exact a.of_between b h1 h2
      · cases h
    · cases h

end Sys2Proof.Machine
end

