-- ==== Sys2Proof/Laws/Pi.lean ====
section
/-! SUPPORT. `piScaled` is `π` times `2^1536`, rounded down: by Machin's formula. -/

namespace Sys2Proof.Machine

/-- The first `n` terms of the series of `arctan (1/m)`, in units of `2^-P`, each rounded down. -/
def arctanSum (P m : Nat) : Nat → Int
  | 0 => 0
  | n + 1 =>
    let t : Int := (2 ^ P / ((2 * n + 1) * m ^ (2 * n + 1)) : Nat)
    arctanSum P m n + if n % 2 = 0 then t else -t

/-- The exact partial sums. -/
theorem arctanSum_near (P m n : Nat) (hm : 0 < m) :
    |(arctanSum P m n : ℝ) - 2 ^ P *
      ∑ i ∈ Finset.range n, (-1) ^ i * ((m : ℝ)⁻¹ ^ (2 * i + 1) / (2 * i + 1 : Nat))| ≤ n := by
  induction n with
  | zero => simp [arctanSum]
  | succ n ih =>
    rw [Finset.sum_range_succ, arctanSum]
    set t : Nat := 2 ^ P / ((2 * n + 1) * m ^ (2 * n + 1)) with ht
    set S := ∑ i ∈ Finset.range n, (-1 : ℝ) ^ i * ((m : ℝ)⁻¹ ^ (2 * i + 1) / (2 * i + 1 : Nat))
    have hd : 0 < (2 * n + 1) * m ^ (2 * n + 1) := by positivity
    have h1 : (t : ℝ) ≤ 2 ^ P * ((m : ℝ)⁻¹ ^ (2 * n + 1) / (2 * n + 1 : Nat)) := by
      have : (t : ℝ) * ((2 * n + 1) * m ^ (2 * n + 1) : Nat) ≤ (2 ^ P : Nat) := by
        exact_mod_cast Nat.div_mul_le_self _ _
      rw [inv_pow, inv_eq_one_div, div_div, ← mul_div_assoc, mul_one,
        le_div_iff₀ (by positivity)]
      push_cast at this ⊢
      linarith
    have h2 : 2 ^ P * ((m : ℝ)⁻¹ ^ (2 * n + 1) / (2 * n + 1 : Nat)) ≤ t + 1 := by
      have : (2 ^ P : Nat) ≤ ((t : ℝ) + 1) * ((2 * n + 1) * m ^ (2 * n + 1) : Nat) := by
        have : 2 ^ P ≤ (t + 1) * ((2 * n + 1) * m ^ (2 * n + 1)) := by
          rw [ht, Nat.add_mul, Nat.one_mul]; exact (Nat.lt_div_mul_add hd).le
        exact_mod_cast this
      rw [inv_pow, inv_eq_one_div, div_div, ← mul_div_assoc, mul_one,
        div_le_iff₀ (by positivity)]
      push_cast at this ⊢
      linarith
    set T := (m : ℝ)⁻¹ ^ (2 * n + 1) / ((2 * n + 1 : Nat) : ℝ)
    rw [abs_le] at ih ⊢
    rcases Nat.even_or_odd n with he | ho
    · rw [if_pos (Nat.even_iff.1 he), he.neg_one_pow]
      push_cast
      constructor <;> nlinarith
    · rw [if_neg (by rw [Nat.odd_iff.1 ho]; decide), ho.neg_one_pow]
      push_cast
      constructor <;> nlinarith

/-- `arctan (1/m)` against its partial sums, an even number of terms and one more. -/
theorem arctan_bounds (P k : Nat) {m : Nat} (hm : 2 ≤ m) :
    (arctanSum P m (2 * k) : ℝ) - (2 * k : Nat) ≤ 2 ^ P * Real.arctan (m : ℝ)⁻¹ ∧
    2 ^ P * Real.arctan (m : ℝ)⁻¹ ≤ arctanSum P m (2 * k + 1) + (2 * k + 1 : Nat) := by
  have hm' : (2 : ℝ) ≤ m := by exact_mod_cast hm
  have hlt : (m : ℝ)⁻¹ < 1 := inv_lt_one_of_one_lt₀ (by linarith)
  have h0 : (0 : ℝ) < (m : ℝ)⁻¹ := by positivity
  have hs := (Real.hasSum_arctan (x := (m : ℝ)⁻¹)
    (by rwa [Real.norm_of_nonneg h0.le])).tendsto_sum_nat
  simp only [mul_div_assoc] at hs
  have hanti : Antitone fun n : Nat => (m : ℝ)⁻¹ ^ (2 * n + 1) / ((2 * n + 1 : Nat) : ℝ) := by
    intro a b hab
    have h1 : (m : ℝ)⁻¹ ^ (2 * b + 1) ≤ (m : ℝ)⁻¹ ^ (2 * a + 1) :=
      pow_le_pow_of_le_one h0.le hlt.le (by omega)
    have h2 : ((2 * a + 1 : Nat) : ℝ) ≤ ((2 * b + 1 : Nat) : ℝ) := by exact_mod_cast (by omega)
    have h3 : (0 : ℝ) < ((2 * a + 1 : Nat) : ℝ) := by positivity
    exact div_le_div₀ (by positivity) h1 h3 h2
  have hp : (0 : ℝ) < 2 ^ P := by positivity
  have g1 := hanti.alternating_series_le_tendsto hs k
  have g2 := hanti.tendsto_le_alternating_series hs k
  have e1 := (abs_le.1 (arctanSum_near P m (2 * k) (by omega))).2
  have e2 := (abs_le.1 (arctanSum_near P m (2 * k + 1) (by omega))).1
  have f1 := mul_le_mul_of_nonneg_left g1 hp.le
  have f2 := mul_le_mul_of_nonneg_left g2 hp.le
  constructor <;> linarith

/-- `piScaled` is `π` times `2^1536`, rounded down. -/
theorem piScaled_bounds :
    (piScaled : ℝ) ≤ Real.pi * 2 ^ 1536 ∧ Real.pi * 2 ^ 1536 < piScaled + 1 := by
  have h := Real.four_mul_arctan_inv_5_sub_arctan_inv_239
  obtain ⟨a1, a2⟩ := arctan_bounds (1536 + 64) 350 (m := 5) (by decide)
  obtain ⟨b1, b2⟩ := arctan_bounds (1536 + 64) 110 (m := 239) (by decide)
  have k1 : (piScaled : Int) * 2 ^ 64 ≤
      16 * (arctanSum (1536 + 64) 5 (2 * 350) - (2 * 350 : Nat)) -
        4 * (arctanSum (1536 + 64) 239 (2 * 110 + 1) + (2 * 110 + 1 : Nat)) := by decide +kernel
  have k2 : 16 * (arctanSum (1536 + 64) 5 (2 * 350 + 1) + (2 * 350 + 1 : Nat)) -
        4 * (arctanSum (1536 + 64) 239 (2 * 110) - (2 * 110 : Nat)) <
      (piScaled + 1 : Int) * 2 ^ 64 := by decide +kernel
  generalize arctanSum (1536 + 64) 5 (2 * 350) = A1 at *
  generalize arctanSum (1536 + 64) 5 (2 * 350 + 1) = A2 at *
  generalize arctanSum (1536 + 64) 239 (2 * 110) = B1 at *
  generalize arctanSum (1536 + 64) 239 (2 * 110 + 1) = B2 at *
  generalize piScaled = p at *
  have k1' : (p : ℝ) * 2 ^ 64 ≤ 16 * (A1 - (2 * 350 : Nat)) - 4 * (B2 + (2 * 110 + 1 : Nat)) := by
    exact_mod_cast k1
  have k2' : 16 * ((A2 : ℝ) + (2 * 350 + 1 : Nat)) - 4 * (B1 - (2 * 110 : Nat)) <
      (p + 1) * 2 ^ 64 := by exact_mod_cast k2
  rw [pow_add] at a1 a2 b1 b2
  push_cast at a1 a2 b1 b2 k1' k2'
  generalize (2 ^ 1536 : ℝ) = U at *
  have e : Real.pi * U * 2 ^ 64 = 16 * (U * 2 ^ 64 * Real.arctan 5⁻¹) -
      4 * (U * 2 ^ 64 * Real.arctan 239⁻¹) := by linear_combination (-4 * U * 2 ^ 64) * h
  constructor <;> nlinarith

end Sys2Proof.Machine
end

