-- ==== Sys2Proof/Laws/Series.lean ====
section
/-! SUPPORT. What the enclosures of Machine/Trig.lean enclose: the truncated power series of the sine
and the cosine, their evaluation with terms rounded down, and the reduction by quadrants. -/

namespace Sys2Proof.Machine

open scoped Nat

/-! ### The truncated power series -/

/-- The tail of an alternating power series is at most its first power over the factorial, times the
series without signs. -/
theorem powerSeries_tail {x a b : ℝ} (hx : 0 ≤ x) (e n : Nat)
    (ha : HasSum (fun k : Nat => (-1) ^ k * x ^ (2 * k + e) / ((2 * k + e)! : ℝ)) a)
    (hb : HasSum (fun k : Nat => x ^ (2 * k + e) / ((2 * k + e)! : ℝ)) b) :
    |a - ∑ j ∈ Finset.range n, (-1) ^ j * (x ^ (2 * j + e) / ((2 * j + e)! : ℝ))| ≤
      x ^ (2 * n) / (2 * n)! * b := by
  simp only [mul_div_assoc] at ha
  have h1 := (hasSum_nat_add_iff' n).2 ha
  have h2 := hb.mul_left (x ^ (2 * n) / ((2 * n)! : ℝ))
  have h3 := h1.norm_le_of_bounded h2 fun k => ?_
  · rwa [Real.norm_eq_abs] at h3
  · have hf : ((2 * n)! * (2 * k + e)! : Nat) ≤ (2 * (k + n) + e)! :=
      Nat.le_of_dvd (Nat.factorial_pos _)
        ((Nat.factorial_mul_factorial_dvd_factorial_add _ _).trans (by
          rw [show 2 * n + (2 * k + e) = 2 * (k + n) + e by ring]))
    have hf' : ((2 * n)! : ℝ) * (2 * k + e)! ≤ (2 * (k + n) + e)! := by exact_mod_cast hf
    rw [norm_mul, norm_pow, norm_neg, norm_one, one_pow, one_mul,
      Real.norm_of_nonneg (by positivity), div_mul_div_comm, ← pow_add,
      show 2 * n + (2 * k + e) = 2 * (k + n) + e by ring]
    exact div_le_div_of_nonneg_left (by positivity) (by positivity) hf'

theorem sine_tail {x : ℝ} (hx : 0 ≤ x) (n : Nat) :
    |Real.sin x - ∑ j ∈ Finset.range n, (-1) ^ j * (x ^ (2 * j + 1) / ((2 * j + 1)! : ℝ))| ≤
      x ^ (2 * n) / (2 * n)! * Real.exp x := by
  refine (powerSeries_tail hx 1 n (Real.hasSum_sin x) (Real.hasSum_sinh x)).trans ?_
  have := Real.exp_pos (-x)
  have := Real.exp_pos x
  rw [Real.sinh_eq]
  gcongr
  linarith

theorem cosine_tail {x : ℝ} (hx : 0 ≤ x) (n : Nat) :
    |Real.cos x - ∑ j ∈ Finset.range n, (-1) ^ j * (x ^ (2 * j) / ((2 * j)! : ℝ))| ≤
      x ^ (2 * n) / (2 * n)! * Real.exp x := by
  refine (powerSeries_tail hx 0 n (Real.hasSum_cos x) (Real.hasSum_cosh x)).trans ?_
  have : Real.exp (-x) ≤ Real.exp x := Real.exp_le_exp.2 (by linarith)
  rw [Real.cosh_eq]
  gcongr
  linarith

/-! ### Terms rounded down -/

/-- The exact value of `alternatingSeries`, over its first term: `1 - q/((k+1)(k+2)) + ...`. -/
noncomputable def seriesPoly (q : ℝ) : Nat → Nat → ℝ
  | 0, _ => 0
  | n + 1, k => 1 - q / ((k + 1) * (k + 2)) * seriesPoly q n (k + 2)

theorem seriesPoly_eq_sum (q : ℝ) (n k : Nat) :
    seriesPoly q n k = ∑ j ∈ Finset.range n, (-1) ^ j * (q ^ j * k ! / (k + 2 * j)!) := by
  induction n generalizing k with
  | zero => rfl
  | succ n ih =>
    have hk : (k ! : ℝ) ≠ 0 := by positivity
    rw [seriesPoly, ih, Finset.sum_range_succ', Finset.mul_sum, sub_eq_add_neg, ← Finset.sum_neg_distrib,
      add_comm]
    congr 1
    · refine Finset.sum_congr rfl fun j _ => ?_
      rw [show k + 2 * (j + 1) = k + 2 + 2 * j by ring, pow_succ, pow_succ,
        show ((k + 2)! : ℝ) = (k + 2) * ((k + 1) * k !) by
          rw [Nat.factorial_succ, Nat.factorial_succ]; push_cast; ring]
      have h1 : ((k : ℝ) + 1) ≠ 0 := by positivity
      have h2 : ((k : ℝ) + 2) ≠ 0 := by positivity
      field_simp
    · simp [hk]

theorem ratio_le {q : ℝ} (hq : q ≤ 5 / 2) {k : Nat} (hk : 1 ≤ k) :
    q / ((k + 1) * (k + 2)) ≤ 1 / 2 := by
  have h1 : (1 : ℝ) ≤ k := by exact_mod_cast hk
  rw [div_le_iff₀ (by positivity)]
  nlinarith

theorem seriesPoly_mem {q : ℝ} (h0 : 0 ≤ q) (hq : q ≤ 5 / 2) (n : Nat) {k : Nat} (hk : 1 ≤ k) :
    0 ≤ seriesPoly q n k ∧ seriesPoly q n k ≤ 1 := by
  induction n generalizing k with
  | zero => exact ⟨le_rfl, zero_le_one⟩
  | succ n ih =>
    obtain ⟨h1, h2⟩ := ih (show 1 ≤ k + 2 by omega)
    have h3 := ratio_le hq hk
    have h4 : 0 ≤ q / ((k + 1) * (k + 2)) := by positivity
    rw [seriesPoly]
    constructor <;> nlinarith

/-- One term after another, rounded down. -/
theorem nextTerm_near {p c2 k term : Nat} {q τ ε : ℝ} (hq : q = c2 / 2 ^ (2 * p))
    (h : |(term : ℝ) - τ| ≤ ε) :
    |((term * c2 / (2 ^ (2 * p) * ((k + 1) * (k + 2))) : Nat) : ℝ) -
        τ * (q / ((k + 1) * (k + 2)))| ≤ ε * (q / ((k + 1) * (k + 2))) + 1 := by
  set d := 2 ^ (2 * p) * ((k + 1) * (k + 2)) with hd
  have hd0 : 0 < d := by positivity
  have hd' : (0 : ℝ) < d := by exact_mod_cast hd0
  set ρ := q / ((k + 1) * (k + 2)) with hρ
  have hρ0 : 0 ≤ ρ := by rw [hρ, hq]; positivity
  have e : (term : ℝ) * ρ = (term * c2 : Nat) / (d : ℝ) := by
    rw [hρ, hq, hd]; push_cast; field_simp
  have h1 : (((term * c2 / d : Nat)) : ℝ) ≤ term * ρ := by rw [e]; exact Nat.cast_div_le
  have h2 : term * ρ ≤ ((term * c2 / d : Nat) : ℝ) + 1 := by
    rw [e, div_le_iff₀ hd']
    have : term * c2 ≤ (term * c2 / d + 1) * d := by
      rw [Nat.add_mul, one_mul]; exact (Nat.lt_div_mul_add hd0).le
    exact_mod_cast this
  have h3 : |(term : ℝ) * ρ - τ * ρ| ≤ ε * ρ := by
    rw [← sub_mul, abs_mul, abs_of_nonneg hρ0]; exact mul_le_mul_of_nonneg_right h hρ0
  rw [abs_le] at h3 ⊢
  constructor <;> linarith

/-- The series with terms rounded down is within 2 for each term of the exact one. -/
theorem alternatingSeries_near {p c2 : Nat} {q : ℝ} (hq : q = c2 / 2 ^ (2 * p))
    (hq' : q ≤ 5 / 2) (n : Nat) {k term : Nat} {τ : ℝ} (hk : 1 ≤ k) (hτ : 0 ≤ τ)
    (h : |(term : ℝ) - τ| ≤ 2) :
    |(alternatingSeries p c2 n k term : ℝ) - τ * seriesPoly q n k| ≤ 2 * n := by
  have hq0 : 0 ≤ q := by rw [hq]; positivity
  induction n generalizing k term τ with
  | zero => simp [alternatingSeries, seriesPoly]
  | succ n ih =>
    obtain ⟨g1, g2⟩ := seriesPoly_mem hq0 hq' (n + 1) hk
    rw [alternatingSeries]
    split
    · rename_i h0
      rw [h0, Nat.cast_zero, zero_sub, abs_neg, abs_of_nonneg hτ] at h
      rw [Int.cast_zero, zero_sub, abs_neg, abs_of_nonneg (mul_nonneg hτ g1)]
      push_cast
      have : (0 : ℝ) ≤ n := Nat.cast_nonneg n
      nlinarith
    · have hr := ratio_le hq' hk
      have hr0 : 0 ≤ q / ((k + 1) * (k + 2)) := by positivity
      have h1 := nextTerm_near (k := k) hq h
      have h2 := ih (show 1 ≤ k + 2 by omega) (mul_nonneg hτ hr0) (h1.trans (by linarith))
      rw [seriesPoly]
      push_cast
      rw [abs_le] at h h2 ⊢
      constructor <;> linarith

theorem sineSeries_near {p c : Nat} {z : ℝ} (hz : z = c / 2 ^ p) (hz2 : z ^ 2 ≤ 5 / 2) :
    |(sineSeries p c : ℝ) - 2 ^ p *
      ∑ j ∈ Finset.range (p / 4), (-1) ^ j * (z ^ (2 * j + 1) / ((2 * j + 1)! : ℝ))| ≤
      2 * (p / 4 : Nat) := by
  have hq : z ^ 2 = ((c * c : Nat) : ℝ) / 2 ^ (2 * p) := by
    rw [hz, div_pow, ← pow_mul, mul_comm p]; push_cast; ring
  have h := alternatingSeries_near hq hz2 (p / 4) (k := 1) (term := c) (τ := c) le_rfl
    (Nat.cast_nonneg c) (by simp)
  have hc : (c : ℝ) = 2 ^ p * z := by rw [hz]; field_simp
  have e : ∑ j ∈ Finset.range (p / 4), (-1 : ℝ) ^ j * (z ^ (2 * j + 1) / ((2 * j + 1)! : ℝ)) =
      z * seriesPoly (z ^ 2) (p / 4) 1 := by
    rw [seriesPoly_eq_sum, Finset.mul_sum]
    refine Finset.sum_congr rfl fun j _ => ?_
    rw [show 1 + 2 * j = 2 * j + 1 by ring, pow_succ, pow_mul, Nat.factorial_one]
    push_cast
    ring
  rwa [e, ← mul_assoc, ← hc, sineSeries]

theorem cosineSeries_near {p c : Nat} {z : ℝ} (hp : 4 ≤ p) (hz : z = c / 2 ^ p)
    (hz2 : z ^ 2 ≤ 5 / 2) :
    |(cosineSeries p c : ℝ) - 2 ^ p *
      ∑ j ∈ Finset.range (p / 4), (-1) ^ j * (z ^ (2 * j) / ((2 * j)! : ℝ))| ≤
      2 * (p / 4 : Nat) := by
  have hq : z ^ 2 = ((c * c : Nat) : ℝ) / 2 ^ (2 * p) := by
    rw [hz, div_pow, ← pow_mul, mul_comm p]; push_cast; ring
  have hq0 : 0 ≤ z ^ 2 := sq_nonneg z
  obtain ⟨n, hn⟩ := Nat.exists_eq_add_of_le' (show 1 ≤ p / 4 by omega)
  rw [cosineSeries, hn]
  have e : ∑ j ∈ Finset.range (n + 1), (-1 : ℝ) ^ j * (z ^ (2 * j) / ((2 * j)! : ℝ)) =
      seriesPoly (z ^ 2) (n + 1) 0 := by
    rw [seriesPoly_eq_sum]
    refine Finset.sum_congr rfl fun j _ => ?_
    rw [pow_mul]; simp
  have h1 := nextTerm_near (k := 0) (term := 2 ^ p) (τ := 2 ^ p) (ε := 0) hq (by simp)
  have h2 := alternatingSeries_near hq hz2 n (k := 2) (τ := 2 ^ p * (z ^ 2 / ((0 + 1) * (0 + 2))))
    (by decide) (by positivity) (term := 2 ^ p * (c * c) / (2 ^ (2 * p) * ((0 + 1) * (0 + 2))))
    (by push_cast at h1 ⊢; linarith)
  rw [e, seriesPoly, alternatingSeries, if_neg (by positivity)]
  push_cast at h2 ⊢
  rw [abs_le] at h2 ⊢
  constructor <;> linarith

end Sys2Proof.Machine
end

