-- ==== Sys2Proof/Laws/Enclosure.lean ====
section
/-! SUPPORT. The enclosure `turnedSine` of Machine/Trig.lean holds, so what `roundedSine` answers is
the nearest value (40_complex_alu R111). -/

namespace Sys2Proof.Machine

open scoped Nat

/-- The error of the two series against the sine and the cosine. -/
theorem series_near_of {p c : Nat} {z : ℝ} (hz : z = c / 2 ^ p) (hz2 : z ^ 2 ≤ 5 / 2)
    (hp : p ∈ trigPrecisions) :
    |(sineSeries p c : ℝ) - 2 ^ p * Real.sin z| ≤ 225 ∧
    |(cosineSeries p c : ℝ) - 2 ^ p * Real.cos z| ≤ 225 := by
  have hz0 : 0 ≤ z := by rw [hz]; positivity
  have hexp : Real.exp z ≤ 9 := by
    have h1 : z ≤ 2 := by nlinarith
    have h2 : Real.exp 1 ≤ 3 := by linarith [Real.exp_one_lt_d9]
    calc Real.exp z ≤ Real.exp 2 := Real.exp_le_exp.2 h1
      _ = Real.exp 1 * Real.exp 1 := by rw [← Real.exp_add]; norm_num
      _ ≤ 3 * 3 := by gcongr
      _ = 9 := by norm_num
  have hnum : (2 : ℝ) ^ p * ((5 / 2) ^ (p / 4) / (2 * (p / 4))! * 9) ≤ 1 := by
    have : 2 ^ p * (5 ^ (p / 4) * 9) ≤ (2 * (p / 4))! * 2 ^ (p / 4) := by
      simp only [trigPrecisions, List.mem_cons, List.not_mem_nil, or_false] at hp
      rcases hp with rfl | rfl | rfl <;> decide +kernel
    have h' : (2 : ℝ) ^ p * (5 ^ (p / 4) * 9) ≤ (2 * (p / 4))! * 2 ^ (p / 4) := by exact_mod_cast this
    rw [div_pow, div_div, div_mul_eq_mul_div, ← mul_div_assoc, div_le_one (by positivity)]
    linarith
  have htail : (2 : ℝ) ^ p * (z ^ (2 * (p / 4)) / (2 * (p / 4))! * Real.exp z) ≤ 1 := by
    refine le_trans ?_ hnum
    rw [pow_mul]
    gcongr
  have hn : ((p / 4 : Nat) : ℝ) ≤ 112 := by
    simp only [trigPrecisions, List.mem_cons, List.not_mem_nil, or_false] at hp
    rcases hp with rfl | rfl | rfl <;> norm_num
  have hp4 : 4 ≤ p := by
    simp only [trigPrecisions, List.mem_cons, List.not_mem_nil, or_false] at hp
    rcases hp with rfl | rfl | rfl <;> decide
  have hP : (0 : ℝ) < 2 ^ p := by positivity
  have close : ∀ {a s v : ℝ}, |a - 2 ^ p * s| ≤ 2 * (p / 4 : Nat) →
      |v - s| ≤ z ^ (2 * (p / 4)) / (2 * (p / 4))! * Real.exp z → |a - 2 ^ p * v| ≤ 225 := by
    intro a s v h1 h2
    have h3 := mul_le_mul_of_nonneg_left h2 hP.le
    rw [← abs_of_pos hP, ← abs_mul, abs_of_pos hP, mul_sub] at h3
    rw [abs_le] at h1 h3 ⊢
    constructor <;> linarith
  exact ⟨close (sineSeries_near hz hz2) (sine_tail hz0 _),
    close (cosineSeries_near hp4 hz hz2) (cosine_tail hz0 _)⟩

/-- The rest after the quadrants, as a real number. -/
noncomputable def restReal (mag : Nat) : ℝ := mag / 2 ^ 1074 - quadrant mag * (Real.pi / 2)

theorem restReal_bounds (mag : Nat) :
    restReal mag * 2 ^ 1537 ≤ restTwice mag ∧
    (restTwice mag : ℝ) - quadrant mag ≤ restReal mag * 2 ^ 1537 := by
  obtain ⟨h1, h2⟩ := piScaled_bounds
  have h3 : (mag * 2 ^ 463 : ℝ) = quadrant mag * piScaled + restTwice mag := by
    exact_mod_cast (Nat.div_add_mod' (mag * 2 ^ 463) piScaled).symm
  have h4 : restReal mag * 2 ^ 1537 = mag * 2 ^ 463 - quadrant mag * (Real.pi * 2 ^ 1536) := by
    rw [restReal, sub_mul, show (1537 : Nat) = 1074 + 463 from rfl, pow_add,
      show (1536 : Nat) = 1073 + 463 from rfl, pow_add, show (1074 : Nat) = 1073 + 1 from rfl, pow_succ]
    have : (2 : ℝ) ^ 1073 ≠ 0 := by positivity
    generalize (2 : ℝ) ^ 1073 = a at *
    generalize (2 : ℝ) ^ 463 = b at *
    field_simp
  rw [h4, h3]
  have hq : (0 : ℝ) ≤ quadrant mag := Nat.cast_nonneg _
  generalize (2 : ℝ) ^ 1536 = U at *
  constructor <;> nlinarith

theorem restLow_near {mag p : Nat} (hmag : mag < 2 ^ 2098) (hp : p ≤ 448) :
    |restReal mag * 2 ^ p - restLow mag p| ≤ ((restHigh mag p - restLow mag p : Nat) : ℝ) + 1 := by
  obtain ⟨h1, h2⟩ := restReal_bounds mag
  have hq : quadrant mag ≤ 2 ^ 1089 := by
    have hpi : 2 ^ 1537 ≤ piScaled := by decide +kernel
    have : mag * 2 ^ 463 ≤ 2 ^ 1089 * piScaled :=
      calc mag * 2 ^ 463 ≤ 2 ^ 2098 * 2 ^ 463 := Nat.mul_le_mul_right _ hmag.le
        _ ≤ 2 ^ 1089 * 2 ^ 1537 := by decide +kernel
        _ ≤ _ := Nat.mul_le_mul_left _ hpi
    have hpos : 0 < piScaled := by decide +kernel
    unfold quadrant
    generalize piScaled = P at *
    generalize 2 ^ 1089 = E at *
    rw [← Nat.mul_div_cancel E hpos]
    exact Nat.div_le_div_right this
  clear hmag
  have hD : (2 : Nat) ^ 1089 ≤ 2 ^ (1537 - p) := Nat.pow_le_pow_right (by decide) (by omega)
  have hDpos : 0 < 2 ^ (1537 - p) := Nat.two_pow_pos _
  have e : restReal mag * 2 ^ 1537 = restReal mag * 2 ^ p * (2 ^ (1537 - p) : Nat) := by
    rw [mul_assoc]; push_cast; rw [← pow_add, Nat.add_sub_cancel' (by omega)]
  rw [e] at h1 h2
  unfold restLow restHigh
  generalize 2 ^ (1537 - p) = D at *
  generalize restReal mag * 2 ^ p = θ at *
  generalize quadrant mag = Q at *
  generalize restTwice mag = R at *
  replace hq := hq.trans hD
  clear hD e
  have hD' : (0 : ℝ) < D := by exact_mod_cast hDpos
  have a1 : (R : ℝ) < ((R / D : Nat) + 1) * D := by
    have : R < (R / D + 1) * D := by rw [Nat.add_mul, one_mul]; exact Nat.lt_div_mul_add hDpos
    exact_mod_cast this
  have a2 : θ ≤ ((R / D : Nat) : ℝ) + 1 := le_of_mul_le_mul_right (h1.trans a1.le) hD'
  have hle : (R - Q) / D ≤ R / D := Nat.div_le_div_right (Nat.sub_le _ _)
  have hc : ((R / D + 1 - (R - Q) / D : Nat) : ℝ) = ((R / D : Nat) : ℝ) + 1 - ((R - Q) / D : Nat) := by
    rw [Nat.cast_sub (by omega)]; push_cast; ring
  have hle' : (((R - Q) / D : Nat) : ℝ) ≤ ((R / D : Nat) : ℝ) := by exact_mod_cast hle
  rw [hc, abs_le]
  refine ⟨?_, by linarith⟩
  rcases Nat.le_total Q R with h | h
  · have a3 : (((R - Q) / D : Nat) : ℝ) * D ≤ R - Q := by
      rw [← Nat.cast_sub h]; exact_mod_cast Nat.div_mul_le_self _ _
    have a4 : (((R - Q) / D : Nat) : ℝ) ≤ θ := le_of_mul_le_mul_right (a3.trans h2) hD'
    linarith
  · have a5 : (Q : ℝ) ≤ D := by exact_mod_cast hq
    have a6 : (0 : ℝ) ≤ R := Nat.cast_nonneg _
    have a7 : -1 ≤ θ := by
      by_contra hcon
      have : θ * D < -1 * D := mul_lt_mul_of_pos_right (not_le.1 hcon) hD'
      linarith
    rw [Nat.sub_eq_zero_of_le h, Nat.zero_div, Nat.cast_zero]
    have : (0 : ℝ) ≤ ((R / D : Nat) : ℝ) := Nat.cast_nonneg _
    linarith

/-- The rest taken is less than a quadrant. -/
theorem restLow_sq (mag : Nat) {p : Nat} (hp : p ≤ 448) :
    ((restLow mag p : ℝ) / 2 ^ p) ^ 2 ≤ 5 / 2 := by
  have h1 : restLow mag p * 2 ^ (1537 - p) ≤ piScaled :=
    (Nat.div_mul_le_self _ _).trans ((Nat.sub_le _ _).trans
      (Nat.mod_lt _ (by decide +kernel)).le)
  have h2 : piScaled ≤ 2 ^ 1531 * 101 := by decide +kernel
  have h3 : restLow mag p * 2 ^ (1537 - p) ≤ 2 ^ 1531 * 101 := h1.trans h2
  have h4 : restLow mag p * 64 ≤ 101 * 2 ^ p := by
    refine Nat.le_of_mul_le_mul_right ?_ (Nat.two_pow_pos (1531 - p))
    calc restLow mag p * 64 * 2 ^ (1531 - p) = restLow mag p * 2 ^ (1537 - p) := by
          rw [show 1537 - p = 6 + (1531 - p) by omega, pow_add]; ring
      _ ≤ 2 ^ 1531 * 101 := h3
      _ = 101 * 2 ^ p * 2 ^ (1531 - p) := by
          rw [mul_assoc, ← pow_add, Nat.add_sub_cancel' (by omega), mul_comm]
  have h5 : (restLow mag p : ℝ) * 64 ≤ 101 * 2 ^ p := by exact_mod_cast h4
  clear h1 h2 h3 h4
  have h6 : (restLow mag p : ℝ) / 2 ^ p ≤ 101 / 64 := by
    rw [div_le_div_iff₀ (by positivity) (by norm_num)]; exact h5
  have h7 : 0 ≤ (restLow mag p : ℝ) / 2 ^ p := by positivity
  nlinarith

/-- Quadrants turn a sine into a cosine and change signs. -/
theorem sin_add_quadrants (θ : ℝ) (m : Nat) : Real.sin (θ + m * (Real.pi / 2)) =
    match m % 4 with
    | 0 => Real.sin θ
    | 1 => Real.cos θ
    | 2 => -Real.sin θ
    | _ => -Real.cos θ := by
  have e : θ + m * (Real.pi / 2) = θ + (m % 4 : Nat) * (Real.pi / 2) + (m / 4 : Nat) * (2 * Real.pi) := by
    have : (m : ℝ) = 4 * (m / 4 : Nat) + (m % 4 : Nat) := by
      exact_mod_cast (Nat.div_add_mod m 4).symm
    rw [this]; ring
  rw [e, Real.sin_add_nat_mul_two_pi]
  have hlt : m % 4 < 4 := Nat.mod_lt _ (by decide)
  generalize m % 4 = k at *
  obtain rfl | rfl | rfl | rfl : k = 0 ∨ k = 1 ∨ k = 2 ∨ k = 3 := by omega
  · simp
  · simp [Real.sin_add_pi_div_two]
  · rw [show θ + (2 : Nat) * (Real.pi / 2) = θ + Real.pi by push_cast; ring, Real.sin_add_pi]
    rfl
  · rw [show θ + (3 : Nat) * (Real.pi / 2) = θ + Real.pi / 2 + Real.pi by push_cast; ring,
      Real.sin_add_pi, Real.sin_add_pi_div_two]
    rfl

/-- The angle that `turnedSine` stands for. -/
noncomputable def turnedAngle (mag turns : Nat) : ℝ := mag / 2 ^ 1074 + turns * (Real.pi / 2)

/-- The enclosure. -/
theorem turnedSine_near {mag p : Nat} (turns : Nat) (hmag : mag < 2 ^ 2098)
    (hp : p ∈ trigPrecisions) :
    |(turnedSine mag turns p : ℝ) - 2 ^ p * Real.sin (turnedAngle mag turns)| ≤
      turnedSineError mag p := by
  have hp448 : p ≤ 448 := by
    simp only [trigPrecisions, List.mem_cons, List.not_mem_nil, or_false] at hp
    rcases hp with rfl | rfl | rfl <;> decide
  have hP : (0 : ℝ) < 2 ^ p := by positivity
  have h1 := restLow_near hmag hp448
  obtain ⟨h2, h3⟩ := series_near_of rfl (restLow_sq mag hp448) hp
  set z := (restLow mag p : ℝ) / 2 ^ p with hz
  have hθ : 2 ^ p * |restReal mag - z| ≤ ((restHigh mag p - restLow mag p : Nat) : ℝ) + 1 := by
    have e : restReal mag * 2 ^ p - restLow mag p = 2 ^ p * (restReal mag - z) := by
      rw [hz]; field_simp
    rwa [e, abs_mul, abs_of_pos hP] at h1
  have move : ∀ {a : ℝ} {f : ℝ → ℝ}, (|f (restReal mag) - f z| ≤ |restReal mag - z|) →
      |a - 2 ^ p * f z| ≤ 225 → |a - 2 ^ p * f (restReal mag)| ≤ turnedSineError mag p := by
    intro a f g1 g2
    have g3 : 2 ^ p * |f (restReal mag) - f z| ≤ _ := (mul_le_mul_of_nonneg_left g1 hP.le).trans hθ
    rw [← abs_of_pos hP, ← abs_mul, mul_sub] at g3
    rw [turnedSineError]
    push_cast
    rw [abs_le] at g2 g3 ⊢
    constructor <;> linarith
  have hs := move (f := Real.sin) (Real.abs_sin_sub_sin_le _ _) h2
  have hc := move (f := Real.cos) (Real.abs_cos_sub_cos_le _ _) h3
  have e : turnedAngle mag turns = restReal mag + ((quadrant mag + turns : Nat) : ℝ) * (Real.pi / 2) := by
    rw [turnedAngle, restReal]; push_cast; ring
  have neg : ∀ {a : Int} {v : ℝ}, |(a : ℝ) - 2 ^ p * v| ≤ turnedSineError mag p →
      |((-a : Int) : ℝ) - 2 ^ p * -v| ≤ turnedSineError mag p := by
    intro a v g
    rw [← abs_neg]
    convert g using 2
    push_cast; ring
  rw [e, sin_add_quadrants, turnedSine]
  generalize (quadrant mag + turns) % 4 = k
  rcases k with _ | _ | _ | k
  · exact hs
  · exact hc
  · exact neg hs
  · exact neg hc

/-- What an enclosure decides is the nearest value. -/
theorem seriesRounded_nearest {mag turns p : Nat} {r : F64} (hmag : mag < 2 ^ 2098)
    (hp : p ∈ trigPrecisions) (h : seriesRounded mag turns p = some r) :
    RoundsToReal r (Real.sin (turnedAngle mag turns)) := by
  have hn := turnedSine_near turns hmag hp
  have hP : (0 : ℝ) < 2 ^ p := by positivity
  rw [abs_le] at hn
  refine resolve_nearest h (Nat.two_pow_pos p) (Nat.two_pow_pos p) ?_ ?_ (Real.abs_sin_le_one _)
  · push_cast
    rw [div_le_iff₀ hP]; linarith
  · push_cast
    rw [le_div_iff₀ hP]; linarith

/-- What the enclosures decide is the nearest value. -/
theorem roundedSine_nearest {mag turns : Nat} {r : F64} (hmag : mag < 2 ^ 2098)
    (h : roundedSine mag turns trigPrecisions = some r) :
    RoundsToReal r (Real.sin (turnedAngle mag turns)) := by
  obtain ⟨p, hp, hr⟩ := List.exists_of_findSome?_eq_some h
  exact seriesRounded_nearest hmag hp hr

end Sys2Proof.Machine
end

