-- ==== Sys2Proof/Laws/Irrational.lean ====
section
/-! SUPPORT. The cosine and the sine of a rational number other than 0 are irrational: so no operand's
cosine or sine lies half way between two binary64 values (40_complex_alu R111). -/

namespace Sys2Proof.Machine

open Polynomial

/-- The even part of an integer polynomial at `i·a/b` is a rational number whose denominator divides
a power of `b`. -/
theorem even_part_integer (a : ℤ) (b : ℕ) (hb : 0 < b) (g : ℤ[X]) {N : ℕ} (hN : g.natDegree ≤ N) :
    ∃ M : ℤ, (b : ℂ) ^ N * (aeval (Complex.I * (a / b)) g + aeval (-(Complex.I * (a / b))) g) = M := by
  have hb' : (b : ℂ) ≠ 0 := by exact_mod_cast hb.ne'
  have hterm : ∀ j ∈ Finset.range (N + 1), ∃ m : ℤ,
      (b : ℂ) ^ N * (g.coeff j • (Complex.I * (a / b)) ^ j + g.coeff j • (-(Complex.I * (a / b))) ^ j)
        = m := by
    intro j hj
    have hj' : j ≤ N := Nat.lt_succ_iff.1 (Finset.mem_range.1 hj)
    rcases Nat.even_or_odd j with he | ho
    · obtain ⟨k, rfl⟩ := he.two_dvd
      refine ⟨2 * g.coeff (2 * k) * (-1) ^ k * a ^ (2 * k) * b ^ (N - 2 * k), ?_⟩
      rw [he.neg_pow, mul_pow, pow_mul Complex.I, Complex.I_sq, div_pow, zsmul_eq_mul]
      obtain ⟨d, rfl⟩ := Nat.exists_eq_add_of_le hj'
      rw [Nat.add_sub_cancel_left, pow_add]
      push_cast
      field_simp
      ring
    · exact ⟨0, by rw [ho.neg_pow]; simp⟩
  choose! m hm using hterm
  refine ⟨∑ j ∈ Finset.range (N + 1), m j, ?_⟩
  rw [aeval_eq_sum_range' (Nat.lt_succ_of_le hN), aeval_eq_sum_range' (Nat.lt_succ_of_le hN),
    ← Finset.sum_add_distrib, Finset.mul_sum, Int.cast_sum]
  exact Finset.sum_congr rfl hm

/-- The cosine of a rational number other than 0 is no rational number other than 0. -/
theorem cos_ne_rational (a : ℤ) (b : ℕ) (ha : a ≠ 0) (hb : 0 < b) (u : ℤ) (v : ℕ) (hu : u ≠ 0)
    (hv : 0 < v) : Real.cos (a / b) ≠ u / v := by
  intro hcos
  have hb' : (b : ℂ) ≠ 0 := by exact_mod_cast hb.ne'
  set f : ℤ[X] := C ((b : ℤ) ^ 2) * X ^ 2 + C (a ^ 2) with hf
  have hf0 : f.eval 0 = a ^ 2 := by simp [hf]
  have hne : f ≠ 0 := by
    intro h; rw [h, eval_zero] at hf0; exact pow_ne_zero 2 ha hf0.symm
  have hdeg : f.natDegree ≤ 2 := by
    rw [hf]; compute_degree
  set z : ℂ := Complex.I * (a / b) with hz
  have hroot : ∀ w : ℂ, w ^ 2 = z ^ 2 → w ∈ f.aroots ℂ := by
    intro w hw
    rw [mem_aroots]
    refine ⟨hne, ?_⟩
    simp only [hf, map_add, map_mul, map_pow, aeval_C, aeval_X, hw, hz, mul_pow, Complex.I_sq, div_pow]
    simp
    field_simp
    ring
  obtain ⟨c, hc⟩ := LindemannWeierstrass.exp_polynomial_approx f (by rw [hf0]; exact pow_ne_zero 2 ha)
  have hlim : Filter.Tendsto (fun p : ℕ => 2 * v * (c * b ^ 2) *
      ((c * b ^ 2) ^ p / (p.factorial : ℝ))) Filter.atTop (nhds 0) := by
    have := (FloorSemiring.tendsto_pow_div_factorial_atTop (c * (b : ℝ) ^ 2)).const_mul
      (2 * v * (c * b ^ 2))
    rwa [mul_zero] at this
  obtain ⟨N, hN⟩ := Filter.eventually_atTop.1 (hlim.eventually (gt_mem_nhds zero_lt_one))
  obtain ⟨p, hpN, hp⟩ := Nat.exists_infinite_primes (N + 1 + (2 + (f.eval 0).natAbs + u.natAbs + b))
  obtain ⟨n, hn, g, hg, happ⟩ := hc p (by omega) hp
  obtain ⟨M, hM⟩ := even_part_integer a b hb g (N := 2 * p) (hg.trans (by
    have := Nat.mul_le_mul_left p hdeg; omega))
  have h1 := happ (hroot z rfl)
  have h2 := happ (hroot (-z) (neg_sq z))
  have hsum : Complex.exp z + Complex.exp (-z) = 2 * (u / v) := by
    have : Complex.cos (a / b) = u / v := by
      have := congrArg (fun t : ℝ => (t : ℂ)) hcos
      push_cast at this
      exact this
    rw [← this, Complex.two_cos, hz]
    congr 2 <;> ring
  have hv' : (v : ℂ) ≠ 0 := by exact_mod_cast hv.ne'
  have hbound : ‖((n * (2 * u * b ^ (2 * p)) - p * (M * v) : ℤ) : ℂ)‖ < 1 := by
    have e : ((n * (2 * u * b ^ (2 * p)) - p * (M * v) : ℤ) : ℂ) = (v * b ^ (2 * p) : ℂ) *
        ((n • Complex.exp z - p • aeval z g) + (n • Complex.exp (-z) - p • aeval (-z) g)) := by
      have e1 : (n • Complex.exp z - p • aeval z g) + (n • Complex.exp (-z) - p • aeval (-z) g) =
          n * (Complex.exp z + Complex.exp (-z)) - p * (aeval z g + aeval (-z) g) := by
        simp only [zsmul_eq_mul, nsmul_eq_mul]; ring
      rw [e1, hsum]
      push_cast
      rw [← hM, ← hz]
      generalize aeval z g + aeval (-z) g = T
      field_simp
    rw [e, norm_mul]
    have h3 := (norm_add_le _ _).trans (add_le_add h1 h2)
    have h4 : ‖(v * b ^ (2 * p) : ℂ)‖ = v * b ^ (2 * p) := by
      rw [norm_mul, norm_pow, Complex.norm_natCast, Complex.norm_natCast]
    rw [h4]
    have h5 := hN (p - 1) (by omega)
    have h6 : 2 * v * (c * b ^ 2) * ((c * b ^ 2) ^ (p - 1) / ((p - 1).factorial : ℝ)) =
        (v * b ^ (2 * p)) * (c ^ p / (p - 1).factorial + c ^ p / (p - 1).factorial) := by
      have e2 : c * (b : ℝ) ^ 2 * (c * b ^ 2) ^ (p - 1) = c ^ p * b ^ (2 * p) := by
        rw [← pow_succ', Nat.sub_add_cancel hp.one_le, mul_pow, ← pow_mul]
      have : (2 * v * (c * b ^ 2) * ((c * b ^ 2) ^ (p - 1) / ((p - 1).factorial : ℝ))) =
          2 * v * (c * (b : ℝ) ^ 2 * (c * b ^ 2) ^ (p - 1)) / ((p - 1).factorial : ℝ) := by ring
      rw [this, e2]; ring
    rw [h6] at h5
    exact lt_of_le_of_lt (mul_le_mul_of_nonneg_left h3 (by positivity)) h5
  have hzero : n * (2 * u * b ^ (2 * p)) - p * (M * v) = 0 := by
    rw [Complex.norm_intCast] at hbound
    exact Int.abs_lt_one_iff.1 (by exact_mod_cast hbound)
  have hdvd : (p : ℤ) ∣ n * (2 * u * b ^ (2 * p)) := ⟨M * v, by linarith⟩
  have hp' : Prime (p : ℤ) := Nat.prime_iff_prime_int.1 hp
  have small : ∀ t : ℤ, t ≠ 0 → t.natAbs < p → ¬ (p : ℤ) ∣ t := fun t h0 hlt hd =>
    absurd (Nat.le_of_dvd (Int.natAbs_pos.2 h0) (Int.natCast_dvd.1 hd)) (by omega)
  rcases hp'.dvd_or_dvd hdvd with h | h
  · exact hn h
  rcases hp'.dvd_or_dvd h with h | h
  · rcases hp'.dvd_or_dvd h with h | h
    · exact small 2 (by decide) (by simp; omega) h
    · exact small u hu (by omega) h
  · exact small b (by exact_mod_cast hb.ne') (by simp; omega) (hp'.dvd_of_dvd_pow h)

/-- The cosine of a rational number other than 0 is irrational. -/
theorem irrational_cos {q : ℚ} (hq : q ≠ 0) : Irrational (Real.cos q) := by
  rintro ⟨s, hs⟩
  by_cases h0 : s = 0
  · rw [h0, Rat.cast_zero] at hs
    obtain ⟨k, hk⟩ := Real.cos_eq_zero_iff.1 hs.symm
    refine irrational_pi ⟨2 * q / (2 * k + 1), ?_⟩
    have : (2 * k + 1 : ℝ) ≠ 0 := by
      have : (2 * k + 1 : ℤ) ≠ 0 := by omega
      exact_mod_cast this
    push_cast
    rw [hk]
    field_simp
  · refine cos_ne_rational q.num q.den (Rat.num_ne_zero.2 hq) q.pos s.num s.den
      (Rat.num_ne_zero.2 h0) s.pos ?_
    rw [← Rat.cast_def, ← Rat.cast_def, hs]

/-- The sine of a rational number other than 0 is irrational. -/
theorem irrational_sin {q : ℚ} (hq : q ≠ 0) : Irrational (Real.sin q) := by
  rintro ⟨s, hs⟩
  refine irrational_cos (q := 2 * q) (by simpa using hq) ⟨1 - 2 * s ^ 2, ?_⟩
  push_cast
  rw [hs, Real.cos_two_mul, ← Real.sin_sq_add_cos_sq (q : ℝ)]
  ring

end Sys2Proof.Machine
end

