-- ==== Sys2Proof/Laws/Memory.lean ====
section
/-! SUPPORT. The laws of the indexed memories: what a read gives after each operation, and that each
operation keeps the canonical form and the bound on the addresses. -/

namespace Sys2Proof.Machine

variable {α : Type}

/-! ### Reading -/

@[simp] theorem Memory.read_nil (z : α) (a : Nat) : Memory.read z [] a = z := rfl

theorem Memory.read_cons (z : α) (b : Nat) (v : α) (m : List (Nat × α)) (a : Nat) :
    Memory.read z ((b, v) :: m) a = if a = b then v else Memory.read z m a := rfl

/-- An address that no cell has reads as `z`. -/
theorem Memory.read_unlisted (z : α) (m : List (Nat × α)) (a : Nat) (h : ∀ c ∈ m, c.1 ≠ a) :
    Memory.read z m a = z := by
  induction m with
  | nil => rfl
  | cons c m ih =>
    rw [Memory.read_cons, if_neg (fun e => h c List.mem_cons_self e.symm)]
    exact ih fun d hd => h d (List.mem_cons_of_mem _ hd)

/-- At or beyond the bound of the addresses every cell reads as `z`. -/
theorem Memory.read_beyond (z : α) (m : List (Nat × α)) (n a : Nat) (h : Memory.within m n)
    (ha : n ≤ a) : Memory.read z m a = z :=
  Memory.read_unlisted z m a fun c hc e => by have := h c hc; omega

/-- A listed cell is what its address reads as, in a canonical memory. -/
theorem Memory.read_listed (z : α) (m : List (Nat × α)) (h : (m.map Prod.fst).Pairwise (· < ·))
    (c : Nat × α) (hc : c ∈ m) : Memory.read z m c.1 = c.2 := by
  induction m with
  | nil => cases hc
  | cons d m ih =>
    rw [List.map_cons, List.pairwise_cons] at h
    rcases List.mem_cons.1 hc with rfl | hm
    · exact if_pos rfl
    · have := h.1 c.1 (List.mem_map_of_mem hm)
      rw [Memory.read_cons, if_neg (by omega)]
      exact ih h.2 hm

/-! ### Writing one cell -/

section
variable [DecidableEq α]

/-- Addresses of a written memory are the written one or old ones. -/
theorem Memory.mem_write (z : α) (m : List (Nat × α)) (a : Nat) (v : α) (c : Nat × α)
    (hc : c ∈ Memory.write z m a v) : c = (a, v) ∧ v ≠ z ∨ c ∈ m := by
  induction m with
  | nil =>
    simp only [Memory.write] at hc
    split at hc <;> simp_all
  | cons d m ih =>
    obtain ⟨b, w⟩ := d
    simp only [Memory.write] at hc
    split at hc
    · split at hc <;> simp_all
    · split at hc
      · split at hc <;> simp_all
        exact hc.imp_right .inr
      · rcases List.mem_cons.1 hc with rfl | h
        · exact .inr List.mem_cons_self
        · exact (ih h).imp_right (List.mem_cons_of_mem _)

/-- Read after write. -/
theorem Memory.read_write (z : α) (m : List (Nat × α)) (a : Nat) (v : α) (b : Nat)
    (h : (m.map Prod.fst).Pairwise (· < ·)) :
    Memory.read z (Memory.write z m a v) b = if b = a then v else Memory.read z m b := by
  induction m with
  | nil =>
    simp only [Memory.write]
    split <;> simp_all [Memory.read_cons]
  | cons d m ih =>
    obtain ⟨c, w⟩ := d
    rw [List.map_cons, List.pairwise_cons] at h
    have absent : ∀ e, e ≤ c → Memory.read z m e = z := fun e he =>
      Memory.read_unlisted z m e fun k hk ek => by
        have := h.1 k.1 (List.mem_map_of_mem hk); omega
    simp only [Memory.write]
    split
    · rename_i hac
      split <;> rename_i hv
      · by_cases hb : b = a
        · subst hb; subst hv
          rw [if_pos rfl, Memory.read_cons, if_neg (by omega)]
          exact absent b (by omega)
        · rw [if_neg hb]
      · rw [Memory.read_cons]
    · rename_i hac
      split
      · rename_i hac'; subst hac'
        split <;> rename_i hv
        · by_cases hb : b = a
          · subst hb; subst hv; rw [if_pos rfl]; exact absent b (le_refl b)
          · rw [if_neg hb, Memory.read_cons, if_neg hb]
        · simp only [Memory.read_cons]
          split <;> simp_all
      · rename_i hne
        rw [Memory.read_cons, ih h.2, Memory.read_cons]
        split <;> rename_i hbc
        · subst hbc; rw [if_neg (by omega)]
        · rfl

/-- A write keeps the canonical form. -/
theorem Memory.wf_write (z : α) (m : List (Nat × α)) (a : Nat) (v : α) (h : Memory.wf z m) :
    Memory.wf z (Memory.write z m a v) := by
  refine ⟨?_, fun c hc => ?_⟩
  · replace h := h.1
    induction m with
    | nil => simp only [Memory.write]; split <;> simp
    | cons d m ih =>
      obtain ⟨b, w⟩ := d
      have hp := h
      rw [List.map_cons, List.pairwise_cons] at h
      simp only [Memory.write]
      split
      · rename_i hab
        split
        · exact hp
        · rw [List.map_cons, List.pairwise_cons]
          refine ⟨fun e he => ?_, hp⟩
          rcases List.mem_cons.1 he with rfl | he
          · exact hab
          · have := h.1 e he; simp only at this ⊢; omega
      · split
        · rename_i hab; subst hab
          split
          · exact h.2
          · exact hp
        · rw [List.map_cons, List.pairwise_cons]
          refine ⟨fun e he => ?_, ih h.2⟩
          obtain ⟨c, hc, rfl⟩ := List.mem_map.1 he
          rcases Memory.mem_write z m a v c hc with ⟨rfl, -⟩ | hm
          · simp only; omega
          · exact h.1 c.1 (List.mem_map_of_mem hm)
  · rcases Memory.mem_write z m a v c hc with ⟨rfl, hv⟩ | hm
    · exact hv
    · exact h.2 c hm

/-- A write below the bound keeps the bound. -/
theorem Memory.within_write (z : α) (m : List (Nat × α)) (a n : Nat) (v : α)
    (h : Memory.within m n) (ha : a < n) : Memory.within (Memory.write z m a v) n :=
  fun c hc => by
    rcases Memory.mem_write z m a v c hc with ⟨rfl, -⟩ | hm
    · exact ha
    · exact h c hm

end

/-! ### Cutting off -/

theorem Memory.read_below (z : α) (m : List (Nat × α)) (n a : Nat) :
    Memory.read z (Memory.below m n) a = if a < n then Memory.read z m a else z := by
  induction m with
  | nil => simp [Memory.below]
  | cons c m ih =>
    obtain ⟨b, v⟩ := c
    have ih' : Memory.read z (m.filter fun c => decide (c.1 < n)) a =
        if a < n then Memory.read z m a else z := ih
    simp only [Memory.below, List.filter_cons]
    split <;> rename_i hb <;> simp only [decide_eq_true_eq] at hb
    · rw [Memory.read_cons, ih', Memory.read_cons]
      split_ifs <;> first | rfl | omega
    · rw [ih', Memory.read_cons]
      split_ifs <;> first | rfl | omega

theorem Memory.wf_below (z : α) (m : List (Nat × α)) (n : Nat) (h : Memory.wf z m) :
    Memory.wf z (Memory.below m n) :=
  ⟨h.1.sublist (List.filter_sublist.map _), fun c hc => h.2 c (List.mem_filter.1 hc).1⟩

theorem Memory.within_below (m : List (Nat × α)) (n k : Nat) (h : n ≤ k) :
    Memory.within (Memory.below m n) k := fun c hc => by
  have := (List.mem_filter.1 hc).2; simp only [decide_eq_true_eq] at this; omega

theorem Memory.within_below_of_within (m : List (Nat × α)) (n k : Nat) (h : Memory.within m k) :
    Memory.within (Memory.below m n) k := fun c hc => h c (List.mem_filter.1 hc).1

/-! ### Whole sequences -/

section
variable [DecidableEq α]

theorem Memory.mem_ofListFrom (z : α) (a : Nat) (vs : List α) (c : Nat × α)
    (hc : c ∈ Memory.ofListFrom z a vs) : a ≤ c.1 ∧ c.1 < a + vs.length ∧ c.2 ≠ z := by
  induction vs generalizing a with
  | nil => cases hc
  | cons v vs ih =>
    simp only [Memory.ofListFrom] at hc
    rw [List.length_cons]
    split at hc
    · obtain ⟨h1, h2, h3⟩ := ih (a + 1) hc; exact ⟨by omega, by omega, h3⟩
    · rcases List.mem_cons.1 hc with rfl | hm
      · exact ⟨le_refl _, by simp, by assumption⟩
      · obtain ⟨h1, h2, h3⟩ := ih (a + 1) hm; exact ⟨by omega, by omega, h3⟩

theorem Memory.read_ofListFrom (z : α) (a : Nat) (vs : List α) (b : Nat) (h : a ≤ b) :
    Memory.read z (Memory.ofListFrom z a vs) b = vs.getD (b - a) z := by
  induction vs generalizing a with
  | nil => simp [Memory.ofListFrom]
  | cons v vs ih =>
    simp only [Memory.ofListFrom]
    by_cases hb : b = a
    · subst hb
      rw [Nat.sub_self, List.getD_cons_zero]
      split <;> rename_i hv
      · rw [hv]
        exact Memory.read_unlisted z _ b fun c hc => by
          have := (Memory.mem_ofListFrom z (b + 1) vs c hc).1; omega
      · exact if_pos rfl
    · rw [show b - a = (b - (a + 1)) + 1 by omega, List.getD_cons_succ, ← ih (a + 1) (by omega)]
      split
      · rfl
      · rw [Memory.read_cons, if_neg hb]

/-- A memory made from a sequence reads as the sequence, and as `z` beyond it. -/
@[simp] theorem Memory.read_ofList (z : α) (vs : List α) (a : Nat) :
    Memory.read z (Memory.ofList z vs) a = vs.getD a z :=
  (Memory.read_ofListFrom z 0 vs a (Nat.zero_le a)).trans (by rw [Nat.sub_zero])

theorem Memory.wf_ofListFrom (z : α) (a : Nat) (vs : List α) :
    Memory.wf z (Memory.ofListFrom z a vs) := by
  refine ⟨?_, fun c hc => (Memory.mem_ofListFrom z a vs c hc).2.2⟩
  induction vs generalizing a with
  | nil => exact List.Pairwise.nil
  | cons v vs ih =>
    simp only [Memory.ofListFrom]
    split
    · exact ih (a + 1)
    · rw [List.map_cons, List.pairwise_cons]
      refine ⟨fun e he => ?_, ih (a + 1)⟩
      obtain ⟨c, hc, rfl⟩ := List.mem_map.1 he
      have := (Memory.mem_ofListFrom z (a + 1) vs c hc).1; simp only; omega

theorem Memory.wf_ofList (z : α) (vs : List α) : Memory.wf z (Memory.ofList z vs) :=
  Memory.wf_ofListFrom z 0 vs

theorem Memory.within_ofList (z : α) (vs : List α) (n : Nat) (h : vs.length ≤ n) :
    Memory.within (Memory.ofList z vs) n := fun c hc => by
  have := (Memory.mem_ofListFrom z 0 vs c hc).2.1; omega

end

@[simp] theorem Memory.length_toList (z : α) (m : List (Nat × α)) (n : Nat) :
    (Memory.toList z m n).length = n := by simp [Memory.toList]

@[simp] theorem Memory.getElem_toList (z : α) (m : List (Nat × α)) (n i : Nat)
    (h : i < (Memory.toList z m n).length) : (Memory.toList z m n)[i] = Memory.read z m i := by
  simp [Memory.toList]

theorem Memory.getD_toList (z d : α) (m : List (Nat × α)) (n i : Nat) (h : i < n) :
    (Memory.toList z m n).getD i d = Memory.read z m i := by
  rw [List.getD_eq_getElem _ _ (by simpa using h), Memory.getElem_toList]

/-- Laying a sequence out and reading it back. -/
@[simp] theorem Memory.toList_ofList [DecidableEq α] (z : α) (vs : List α) :
    Memory.toList z (Memory.ofList z vs) vs.length = vs := by
  refine List.ext_getElem (by simp) fun i h _ => ?_
  rw [Memory.getElem_toList, Memory.read_ofList,
    List.getD_eq_getElem _ _ (by simpa using h)]

/-- Memories that read alike below a length are the same sequence of that length. -/
theorem Memory.toList_congr (z : α) (m k : List (Nat × α)) (n : Nat)
    (h : ∀ a < n, Memory.read z m a = Memory.read z k a) :
    Memory.toList z m n = Memory.toList z k n :=
  List.map_congr_left fun a ha => h a (List.mem_range.1 ha)

theorem Memory.wf_nil (z : α) : Memory.wf z ([] : List (Nat × α)) :=
  ⟨List.Pairwise.nil, fun _ hc => by cases hc⟩

end Sys2Proof.Machine
end

