-- ==== Sys2Proof/Laws/State.lean ====
section
/-! SUPPORT. What each update of the state does to each field, one lemma per field per update. -/

namespace Sys2Proof.Machine

variable (s : State)

/-! ### giving a response -/

@[simp] theorem State.answer_z (rsp : Rsp) (dout : BitVec 128) (sink : Option (List Byte)) :
    (s.answer rsp dout sink).z = s.z := rfl
@[simp] theorem State.answer_x (rsp : Rsp) (dout : BitVec 128) (sink : Option (List Byte)) :
    (s.answer rsp dout sink).x = s.x := rfl
@[simp] theorem State.answer_xLen (rsp : Rsp) (dout : BitVec 128) (sink : Option (List Byte)) :
    (s.answer rsp dout sink).xLen = s.xLen := rfl
@[simp] theorem State.answer_buf (rsp : Rsp) (dout : BitVec 128) (sink : Option (List Byte)) :
    (s.answer rsp dout sink).buf = s.buf := rfl
@[simp] theorem State.answer_bufLen (rsp : Rsp) (dout : BitVec 128) (sink : Option (List Byte)) :
    (s.answer rsp dout sink).bufLen = s.bufLen := rfl
@[simp] theorem State.answer_pay (rsp : Rsp) (dout : BitVec 128) (sink : Option (List Byte)) :
    (s.answer rsp dout sink).pay = s.pay := rfl
@[simp] theorem State.answer_payLen (rsp : Rsp) (dout : BitVec 128) (sink : Option (List Byte)) :
    (s.answer rsp dout sink).payLen = s.payLen := rfl
@[simp] theorem State.answer_derived (rsp : Rsp) (dout : BitVec 128) (sink : Option (List Byte)) :
    (s.answer rsp dout sink).derived = s.derived := rfl
@[simp] theorem State.answer_halt (rsp : Rsp) (dout : BitVec 128) (sink : Option (List Byte)) :
    (s.answer rsp dout sink).halt = s.halt := rfl
@[simp] theorem State.answer_err (rsp : Rsp) (dout : BitVec 128) (sink : Option (List Byte)) :
    (s.answer rsp dout sink).err = s.err := rfl
@[simp] theorem State.answer_host (rsp : Rsp) (dout : BitVec 128) (sink : Option (List Byte)) :
    (s.answer rsp dout sink).host = s.host := rfl
@[simp] theorem State.answer_inputs (rsp : Rsp) (dout : BitVec 128) (sink : Option (List Byte)) :
    (s.answer rsp dout sink).inputs = s.inputs := rfl
@[simp] theorem State.answer_responses (rsp : Rsp) (dout : BitVec 128) (sink : Option (List Byte)) :
    (s.answer rsp dout sink).responses = s.responses ++ [⟨rsp, dout, sink⟩] := rfl

/-! ### completing -/

@[simp] theorem State.respond_z (dout : BitVec 128) : (s.respond dout).z = s.z := rfl
@[simp] theorem State.respond_x (dout : BitVec 128) : (s.respond dout).x = s.x := rfl
@[simp] theorem State.respond_xLen (dout : BitVec 128) : (s.respond dout).xLen = s.xLen := rfl
@[simp] theorem State.respond_buf (dout : BitVec 128) : (s.respond dout).buf = s.buf := rfl
@[simp] theorem State.respond_bufLen (dout : BitVec 128) : (s.respond dout).bufLen = s.bufLen := rfl
@[simp] theorem State.respond_pay (dout : BitVec 128) : (s.respond dout).pay = s.pay := rfl
@[simp] theorem State.respond_payLen (dout : BitVec 128) : (s.respond dout).payLen = s.payLen := rfl
@[simp] theorem State.respond_derived (dout : BitVec 128) :
    (s.respond dout).derived = s.derived := rfl
@[simp] theorem State.respond_halt (dout : BitVec 128) : (s.respond dout).halt = s.halt := rfl
@[simp] theorem State.respond_err (dout : BitVec 128) : (s.respond dout).err = s.err := rfl
@[simp] theorem State.respond_host (dout : BitVec 128) : (s.respond dout).host = s.host := rfl
@[simp] theorem State.respond_inputs (dout : BitVec 128) : (s.respond dout).inputs = s.inputs := rfl
@[simp] theorem State.respond_responses (dout : BitVec 128) :
    (s.respond dout).responses = s.responses ++ [⟨.ok, dout, none⟩] := rfl

/-! ### raising an error -/

@[simp] theorem State.raise_z (e : ErrCode) : (s.raise e).z = s.z := rfl
@[simp] theorem State.raise_x (e : ErrCode) : (s.raise e).x = s.x := rfl
@[simp] theorem State.raise_xLen (e : ErrCode) : (s.raise e).xLen = s.xLen := rfl
@[simp] theorem State.raise_buf (e : ErrCode) : (s.raise e).buf = s.buf := rfl
@[simp] theorem State.raise_bufLen (e : ErrCode) : (s.raise e).bufLen = s.bufLen := rfl
@[simp] theorem State.raise_pay (e : ErrCode) : (s.raise e).pay = s.pay := rfl
@[simp] theorem State.raise_payLen (e : ErrCode) : (s.raise e).payLen = s.payLen := rfl
@[simp] theorem State.raise_derived (e : ErrCode) : (s.raise e).derived = s.derived := rfl
@[simp] theorem State.raise_halt (e : ErrCode) : (s.raise e).halt = true := rfl
@[simp] theorem State.raise_err (e : ErrCode) : (s.raise e).err = e.code := rfl
@[simp] theorem State.raise_host (e : ErrCode) : (s.raise e).host = s.host := rfl
@[simp] theorem State.raise_inputs (e : ErrCode) : (s.raise e).inputs = s.inputs := rfl
@[simp] theorem State.raise_responses (e : ErrCode) :
    (s.raise e).responses = s.responses ++ [⟨.error, e.code.setWidth 128, none⟩] := rfl

/-! ### refusing -/

@[simp] theorem State.refuse_z : (s.refuse).z = s.z := rfl
@[simp] theorem State.refuse_x : (s.refuse).x = s.x := rfl
@[simp] theorem State.refuse_xLen : (s.refuse).xLen = s.xLen := rfl
@[simp] theorem State.refuse_buf : (s.refuse).buf = s.buf := rfl
@[simp] theorem State.refuse_bufLen : (s.refuse).bufLen = s.bufLen := rfl
@[simp] theorem State.refuse_pay : (s.refuse).pay = s.pay := rfl
@[simp] theorem State.refuse_payLen : (s.refuse).payLen = s.payLen := rfl
@[simp] theorem State.refuse_derived : (s.refuse).derived = s.derived := rfl
@[simp] theorem State.refuse_halt : (s.refuse).halt = s.halt := rfl
@[simp] theorem State.refuse_err : (s.refuse).err = s.err := rfl
@[simp] theorem State.refuse_host : (s.refuse).host = s.host := rfl
@[simp] theorem State.refuse_inputs : (s.refuse).inputs = s.inputs := rfl
@[simp] theorem State.refuse_responses :
    (s.refuse).responses = s.responses ++ [⟨.refused, 0#128, none⟩] := rfl

/-! ### reset -/

@[simp] theorem State.resetEngine_z : (s.resetEngine).z = Vector.replicate 4 czero := rfl
@[simp] theorem State.resetEngine_x : (s.resetEngine).x = [] := rfl
@[simp] theorem State.resetEngine_xLen : (s.resetEngine).xLen = 0#64 := rfl
@[simp] theorem State.resetEngine_buf : (s.resetEngine).buf = [] := rfl
@[simp] theorem State.resetEngine_bufLen : (s.resetEngine).bufLen = 0#64 := rfl
@[simp] theorem State.resetEngine_pay : (s.resetEngine).pay = [] := rfl
@[simp] theorem State.resetEngine_payLen : (s.resetEngine).payLen = 0#64 := rfl
@[simp] theorem State.resetEngine_derived : (s.resetEngine).derived = none := rfl
@[simp] theorem State.resetEngine_halt : (s.resetEngine).halt = false := rfl
@[simp] theorem State.resetEngine_err : (s.resetEngine).err = 0#8 := rfl
@[simp] theorem State.resetEngine_host : (s.resetEngine).host = s.host := rfl
@[simp] theorem State.resetEngine_inputs : (s.resetEngine).inputs = s.inputs := rfl
@[simp] theorem State.resetEngine_responses : (s.resetEngine).responses = s.responses := rfl

/-! ### writing a `Z` register -/

@[simp] theorem State.setZ_z (i : ZReg) (v : C64) : (s.setZ i v).z = s.z.set i v := rfl
@[simp] theorem State.setZ_x (i : ZReg) (v : C64) : (s.setZ i v).x = s.x := rfl
@[simp] theorem State.setZ_xLen (i : ZReg) (v : C64) : (s.setZ i v).xLen = s.xLen := rfl
@[simp] theorem State.setZ_buf (i : ZReg) (v : C64) : (s.setZ i v).buf = s.buf := rfl
@[simp] theorem State.setZ_bufLen (i : ZReg) (v : C64) : (s.setZ i v).bufLen = s.bufLen := rfl
@[simp] theorem State.setZ_pay (i : ZReg) (v : C64) : (s.setZ i v).pay = s.pay := rfl
@[simp] theorem State.setZ_payLen (i : ZReg) (v : C64) : (s.setZ i v).payLen = s.payLen := rfl
@[simp] theorem State.setZ_derived (i : ZReg) (v : C64) : (s.setZ i v).derived = s.derived := rfl
@[simp] theorem State.setZ_halt (i : ZReg) (v : C64) : (s.setZ i v).halt = s.halt := rfl
@[simp] theorem State.setZ_err (i : ZReg) (v : C64) : (s.setZ i v).err = s.err := rfl
@[simp] theorem State.setZ_host (i : ZReg) (v : C64) : (s.setZ i v).host = s.host := rfl
@[simp] theorem State.setZ_inputs (i : ZReg) (v : C64) : (s.setZ i v).inputs = s.inputs := rfl
@[simp] theorem State.setZ_responses (i : ZReg) (v : C64) :
    (s.setZ i v).responses = s.responses := rfl

/-! ### writing an element of `X` -/

@[simp] theorem State.setX_z (i : Nat) (v : C64) : (s.setX i v).z = s.z := rfl
@[simp] theorem State.setX_x (i : Nat) (v : C64) :
    (s.setX i v).x = Memory.write czero s.x i v := rfl
@[simp] theorem State.setX_xLen (i : Nat) (v : C64) : (s.setX i v).xLen = s.xLen := rfl
@[simp] theorem State.setX_buf (i : Nat) (v : C64) : (s.setX i v).buf = s.buf := rfl
@[simp] theorem State.setX_bufLen (i : Nat) (v : C64) : (s.setX i v).bufLen = s.bufLen := rfl
@[simp] theorem State.setX_pay (i : Nat) (v : C64) : (s.setX i v).pay = s.pay := rfl
@[simp] theorem State.setX_payLen (i : Nat) (v : C64) : (s.setX i v).payLen = s.payLen := rfl
@[simp] theorem State.setX_derived (i : Nat) (v : C64) : (s.setX i v).derived = s.derived := rfl
@[simp] theorem State.setX_halt (i : Nat) (v : C64) : (s.setX i v).halt = s.halt := rfl
@[simp] theorem State.setX_err (i : Nat) (v : C64) : (s.setX i v).err = s.err := rfl
@[simp] theorem State.setX_host (i : Nat) (v : C64) : (s.setX i v).host = s.host := rfl
@[simp] theorem State.setX_inputs (i : Nat) (v : C64) : (s.setX i v).inputs = s.inputs := rfl
@[simp] theorem State.setX_responses (i : Nat) (v : C64) :
    (s.setX i v).responses = s.responses := rfl

/-! ### replacing `X` -/

@[simp] theorem State.setXSeq_z (xs : List C64) : (s.setXSeq xs).z = s.z := rfl
@[simp] theorem State.setXSeq_x (xs : List C64) : (s.setXSeq xs).x = Memory.ofList czero xs := rfl
@[simp] theorem State.setXSeq_xLen (xs : List C64) :
    (s.setXSeq xs).xLen = BitVec.ofNat 64 xs.length := rfl
@[simp] theorem State.setXSeq_buf (xs : List C64) : (s.setXSeq xs).buf = s.buf := rfl
@[simp] theorem State.setXSeq_bufLen (xs : List C64) : (s.setXSeq xs).bufLen = s.bufLen := rfl
@[simp] theorem State.setXSeq_pay (xs : List C64) : (s.setXSeq xs).pay = s.pay := rfl
@[simp] theorem State.setXSeq_payLen (xs : List C64) : (s.setXSeq xs).payLen = s.payLen := rfl
@[simp] theorem State.setXSeq_derived (xs : List C64) : (s.setXSeq xs).derived = s.derived := rfl
@[simp] theorem State.setXSeq_halt (xs : List C64) : (s.setXSeq xs).halt = s.halt := rfl
@[simp] theorem State.setXSeq_err (xs : List C64) : (s.setXSeq xs).err = s.err := rfl
@[simp] theorem State.setXSeq_host (xs : List C64) : (s.setXSeq xs).host = s.host := rfl
@[simp] theorem State.setXSeq_inputs (xs : List C64) : (s.setXSeq xs).inputs = s.inputs := rfl
@[simp] theorem State.setXSeq_responses (xs : List C64) :
    (s.setXSeq xs).responses = s.responses := rfl

/-! ### zeroing a tail of `X` -/

@[simp] theorem State.zeroXFrom_z (k : Nat) : (s.zeroXFrom k).z = s.z := rfl
@[simp] theorem State.zeroXFrom_x (k : Nat) : (s.zeroXFrom k).x = Memory.below s.x k := rfl
@[simp] theorem State.zeroXFrom_xLen (k : Nat) : (s.zeroXFrom k).xLen = s.xLen := rfl
@[simp] theorem State.zeroXFrom_buf (k : Nat) : (s.zeroXFrom k).buf = s.buf := rfl
@[simp] theorem State.zeroXFrom_bufLen (k : Nat) : (s.zeroXFrom k).bufLen = s.bufLen := rfl
@[simp] theorem State.zeroXFrom_pay (k : Nat) : (s.zeroXFrom k).pay = s.pay := rfl
@[simp] theorem State.zeroXFrom_payLen (k : Nat) : (s.zeroXFrom k).payLen = s.payLen := rfl
@[simp] theorem State.zeroXFrom_derived (k : Nat) : (s.zeroXFrom k).derived = s.derived := rfl
@[simp] theorem State.zeroXFrom_halt (k : Nat) : (s.zeroXFrom k).halt = s.halt := rfl
@[simp] theorem State.zeroXFrom_err (k : Nat) : (s.zeroXFrom k).err = s.err := rfl
@[simp] theorem State.zeroXFrom_host (k : Nat) : (s.zeroXFrom k).host = s.host := rfl
@[simp] theorem State.zeroXFrom_inputs (k : Nat) : (s.zeroXFrom k).inputs = s.inputs := rfl
@[simp] theorem State.zeroXFrom_responses (k : Nat) : (s.zeroXFrom k).responses = s.responses := rfl

/-! ### setting `XLEN` -/

@[simp] theorem State.setXLen_z (n : BitVec 64) : (s.setXLen n).z = s.z := rfl
@[simp] theorem State.setXLen_x (n : BitVec 64) :
    (s.setXLen n).x = Memory.below s.x (min n.toNat s.xLen.toNat) := rfl
@[simp] theorem State.setXLen_xLen (n : BitVec 64) : (s.setXLen n).xLen = n := rfl
@[simp] theorem State.setXLen_buf (n : BitVec 64) : (s.setXLen n).buf = s.buf := rfl
@[simp] theorem State.setXLen_bufLen (n : BitVec 64) : (s.setXLen n).bufLen = s.bufLen := rfl
@[simp] theorem State.setXLen_pay (n : BitVec 64) : (s.setXLen n).pay = s.pay := rfl
@[simp] theorem State.setXLen_payLen (n : BitVec 64) : (s.setXLen n).payLen = s.payLen := rfl
@[simp] theorem State.setXLen_derived (n : BitVec 64) : (s.setXLen n).derived = s.derived := rfl
@[simp] theorem State.setXLen_halt (n : BitVec 64) : (s.setXLen n).halt = s.halt := rfl
@[simp] theorem State.setXLen_err (n : BitVec 64) : (s.setXLen n).err = s.err := rfl
@[simp] theorem State.setXLen_host (n : BitVec 64) : (s.setXLen n).host = s.host := rfl
@[simp] theorem State.setXLen_inputs (n : BitVec 64) : (s.setXLen n).inputs = s.inputs := rfl
@[simp] theorem State.setXLen_responses (n : BitVec 64) :
    (s.setXLen n).responses = s.responses := rfl

/-! ### replacing `BUF` -/

@[simp] theorem State.setBuf_z (bytes : List Byte) : (s.setBuf bytes).z = s.z := rfl
@[simp] theorem State.setBuf_x (bytes : List Byte) : (s.setBuf bytes).x = s.x := rfl
@[simp] theorem State.setBuf_xLen (bytes : List Byte) : (s.setBuf bytes).xLen = s.xLen := rfl
@[simp] theorem State.setBuf_buf (bytes : List Byte) :
    (s.setBuf bytes).buf = Memory.ofList 0#8 bytes := rfl
@[simp] theorem State.setBuf_bufLen (bytes : List Byte) :
    (s.setBuf bytes).bufLen = BitVec.ofNat 64 bytes.length := rfl
@[simp] theorem State.setBuf_pay (bytes : List Byte) : (s.setBuf bytes).pay = s.pay := rfl
@[simp] theorem State.setBuf_payLen (bytes : List Byte) : (s.setBuf bytes).payLen = s.payLen := rfl
@[simp] theorem State.setBuf_derived (bytes : List Byte) :
    (s.setBuf bytes).derived = s.derived := rfl
@[simp] theorem State.setBuf_halt (bytes : List Byte) : (s.setBuf bytes).halt = s.halt := rfl
@[simp] theorem State.setBuf_err (bytes : List Byte) : (s.setBuf bytes).err = s.err := rfl
@[simp] theorem State.setBuf_host (bytes : List Byte) : (s.setBuf bytes).host = s.host := rfl
@[simp] theorem State.setBuf_inputs (bytes : List Byte) : (s.setBuf bytes).inputs = s.inputs := rfl
@[simp] theorem State.setBuf_responses (bytes : List Byte) :
    (s.setBuf bytes).responses = s.responses := rfl

/-! ### writing a byte of `PAY` -/

@[simp] theorem State.setPay_z (i : Nat) (b : Byte) : (s.setPay i b).z = s.z := rfl
@[simp] theorem State.setPay_x (i : Nat) (b : Byte) : (s.setPay i b).x = s.x := rfl
@[simp] theorem State.setPay_xLen (i : Nat) (b : Byte) : (s.setPay i b).xLen = s.xLen := rfl
@[simp] theorem State.setPay_buf (i : Nat) (b : Byte) : (s.setPay i b).buf = s.buf := rfl
@[simp] theorem State.setPay_bufLen (i : Nat) (b : Byte) : (s.setPay i b).bufLen = s.bufLen := rfl
@[simp] theorem State.setPay_pay (i : Nat) (b : Byte) :
    (s.setPay i b).pay = Memory.write 0#8 s.pay i b := rfl
@[simp] theorem State.setPay_payLen (i : Nat) (b : Byte) : (s.setPay i b).payLen = s.payLen := rfl
@[simp] theorem State.setPay_derived (i : Nat) (b : Byte) :
    (s.setPay i b).derived = s.derived := rfl
@[simp] theorem State.setPay_halt (i : Nat) (b : Byte) : (s.setPay i b).halt = s.halt := rfl
@[simp] theorem State.setPay_err (i : Nat) (b : Byte) : (s.setPay i b).err = s.err := rfl
@[simp] theorem State.setPay_host (i : Nat) (b : Byte) : (s.setPay i b).host = s.host := rfl
@[simp] theorem State.setPay_inputs (i : Nat) (b : Byte) : (s.setPay i b).inputs = s.inputs := rfl
@[simp] theorem State.setPay_responses (i : Nat) (b : Byte) :
    (s.setPay i b).responses = s.responses := rfl

/-! ### replacing `PAY` -/

@[simp] theorem State.setPaySeq_z (bytes : List Byte) : (s.setPaySeq bytes).z = s.z := rfl
@[simp] theorem State.setPaySeq_x (bytes : List Byte) : (s.setPaySeq bytes).x = s.x := rfl
@[simp] theorem State.setPaySeq_xLen (bytes : List Byte) : (s.setPaySeq bytes).xLen = s.xLen := rfl
@[simp] theorem State.setPaySeq_buf (bytes : List Byte) : (s.setPaySeq bytes).buf = s.buf := rfl
@[simp] theorem State.setPaySeq_bufLen (bytes : List Byte) :
    (s.setPaySeq bytes).bufLen = s.bufLen := rfl
@[simp] theorem State.setPaySeq_pay (bytes : List Byte) :
    (s.setPaySeq bytes).pay = Memory.ofList 0#8 bytes := rfl
@[simp] theorem State.setPaySeq_payLen (bytes : List Byte) :
    (s.setPaySeq bytes).payLen = BitVec.ofNat 64 bytes.length := rfl
@[simp] theorem State.setPaySeq_derived (bytes : List Byte) :
    (s.setPaySeq bytes).derived = s.derived := rfl
@[simp] theorem State.setPaySeq_halt (bytes : List Byte) : (s.setPaySeq bytes).halt = s.halt := rfl
@[simp] theorem State.setPaySeq_err (bytes : List Byte) : (s.setPaySeq bytes).err = s.err := rfl
@[simp] theorem State.setPaySeq_host (bytes : List Byte) : (s.setPaySeq bytes).host = s.host := rfl
@[simp] theorem State.setPaySeq_inputs (bytes : List Byte) :
    (s.setPaySeq bytes).inputs = s.inputs := rfl
@[simp] theorem State.setPaySeq_responses (bytes : List Byte) :
    (s.setPaySeq bytes).responses = s.responses := rfl

/-! ### setting `PAYLEN` -/

@[simp] theorem State.setPayLen_z (n : BitVec 64) : (s.setPayLen n).z = s.z := rfl
@[simp] theorem State.setPayLen_x (n : BitVec 64) : (s.setPayLen n).x = s.x := rfl
@[simp] theorem State.setPayLen_xLen (n : BitVec 64) : (s.setPayLen n).xLen = s.xLen := rfl
@[simp] theorem State.setPayLen_buf (n : BitVec 64) : (s.setPayLen n).buf = s.buf := rfl
@[simp] theorem State.setPayLen_bufLen (n : BitVec 64) : (s.setPayLen n).bufLen = s.bufLen := rfl
@[simp] theorem State.setPayLen_pay (n : BitVec 64) :
    (s.setPayLen n).pay = Memory.below s.pay (min n.toNat s.payLen.toNat) := rfl
@[simp] theorem State.setPayLen_payLen (n : BitVec 64) : (s.setPayLen n).payLen = n := rfl
@[simp] theorem State.setPayLen_derived (n : BitVec 64) : (s.setPayLen n).derived = s.derived := rfl
@[simp] theorem State.setPayLen_halt (n : BitVec 64) : (s.setPayLen n).halt = s.halt := rfl
@[simp] theorem State.setPayLen_err (n : BitVec 64) : (s.setPayLen n).err = s.err := rfl
@[simp] theorem State.setPayLen_host (n : BitVec 64) : (s.setPayLen n).host = s.host := rfl
@[simp] theorem State.setPayLen_inputs (n : BitVec 64) : (s.setPayLen n).inputs = s.inputs := rfl
@[simp] theorem State.setPayLen_responses (n : BitVec 64) :
    (s.setPayLen n).responses = s.responses := rfl

/-! ### presenting a request -/

@[simp] theorem State.present_z (r : Request) (rest : List HostMove) :
    (s.present r rest).z = s.z := rfl
@[simp] theorem State.present_x (r : Request) (rest : List HostMove) :
    (s.present r rest).x = s.x := rfl
@[simp] theorem State.present_xLen (r : Request) (rest : List HostMove) :
    (s.present r rest).xLen = s.xLen := rfl
@[simp] theorem State.present_buf (r : Request) (rest : List HostMove) :
    (s.present r rest).buf = s.buf := rfl
@[simp] theorem State.present_bufLen (r : Request) (rest : List HostMove) :
    (s.present r rest).bufLen = s.bufLen := rfl
@[simp] theorem State.present_pay (r : Request) (rest : List HostMove) :
    (s.present r rest).pay = s.pay := rfl
@[simp] theorem State.present_payLen (r : Request) (rest : List HostMove) :
    (s.present r rest).payLen = s.payLen := rfl
@[simp] theorem State.present_derived (r : Request) (rest : List HostMove) :
    (s.present r rest).derived = s.derived := rfl
@[simp] theorem State.present_halt (r : Request) (rest : List HostMove) :
    (s.present r rest).halt = s.halt := rfl
@[simp] theorem State.present_err (r : Request) (rest : List HostMove) :
    (s.present r rest).err = s.err := rfl
@[simp] theorem State.present_host (r : Request) (rest : List HostMove) :
    (s.present r rest).host = rest := rfl
@[simp] theorem State.present_inputs (r : Request) (rest : List HostMove) :
    (s.present r rest).inputs = r.inputs := rfl
@[simp] theorem State.present_responses (r : Request) (rest : List HostMove) :
    (s.present r rest).responses = s.responses := rfl

/-! ### placing a request -/

@[simp] theorem State.withFetchWord_z (nbits w : Nat) : (s.withFetchWord nbits w).z = s.z := rfl
@[simp] theorem State.withFetchWord_x (nbits w : Nat) : (s.withFetchWord nbits w).x = s.x := rfl
@[simp] theorem State.withFetchWord_xLen (nbits w : Nat) :
    (s.withFetchWord nbits w).xLen = s.xLen := rfl
@[simp] theorem State.withFetchWord_buf (nbits w : Nat) :
    (s.withFetchWord nbits w).buf = s.buf := rfl
@[simp] theorem State.withFetchWord_bufLen (nbits w : Nat) :
    (s.withFetchWord nbits w).bufLen = s.bufLen := rfl
@[simp] theorem State.withFetchWord_pay (nbits w : Nat) :
    (s.withFetchWord nbits w).pay = s.pay := rfl
@[simp] theorem State.withFetchWord_payLen (nbits w : Nat) :
    (s.withFetchWord nbits w).payLen = s.payLen := rfl
@[simp] theorem State.withFetchWord_derived (nbits w : Nat) :
    (s.withFetchWord nbits w).derived = s.derived := rfl
@[simp] theorem State.withFetchWord_halt (nbits w : Nat) :
    (s.withFetchWord nbits w).halt = s.halt := rfl
@[simp] theorem State.withFetchWord_err (nbits w : Nat) :
    (s.withFetchWord nbits w).err = s.err := rfl
@[simp] theorem State.withFetchWord_host (nbits w : Nat) :
    (s.withFetchWord nbits w).host = .request (s.tableRequest nbits w) :: s.host := rfl
@[simp] theorem State.withFetchWord_inputs (nbits w : Nat) :
    (s.withFetchWord nbits w).inputs = s.inputs := rfl
@[simp] theorem State.withFetchWord_responses (nbits w : Nat) :
    (s.withFetchWord nbits w).responses = s.responses := rfl

/-! ### the state after reset -/

@[simp] theorem State.reset_z : State.reset.z = Vector.replicate 4 czero := rfl
@[simp] theorem State.reset_x : State.reset.x = [] := rfl
@[simp] theorem State.reset_xLen : State.reset.xLen = 0#64 := rfl
@[simp] theorem State.reset_buf : State.reset.buf = [] := rfl
@[simp] theorem State.reset_bufLen : State.reset.bufLen = 0#64 := rfl
@[simp] theorem State.reset_pay : State.reset.pay = [] := rfl
@[simp] theorem State.reset_payLen : State.reset.payLen = 0#64 := rfl
@[simp] theorem State.reset_derived : State.reset.derived = none := rfl
@[simp] theorem State.reset_halt : State.reset.halt = false := rfl
@[simp] theorem State.reset_err : State.reset.err = 0#8 := rfl
@[simp] theorem State.reset_host : State.reset.host = [] := rfl
@[simp] theorem State.reset_responses : State.reset.responses = [] := rfl

end Sys2Proof.Machine
end

