-- ==== Sys2Proof/Laws/Ops.lean ====
section
/-! SUPPORT. What each shared operation can do, said once: the frame of a command, raising and
refusing, and the reads of registers and memories after each update. -/

namespace Sys2Proof.Machine

variable {s t : State}

/-! ### The frame of a command -/

/-- Everything `State.command` can answer. -/
theorem State.command_cases {r : Except ErrCode Effect} (h : s.command r = .next t) :
    (s.halt = true ∧ t = s.refuse) ∨
    (s.halt = false ∧ ∃ e, r = .ok e ∧ t = e.state.answer .ok e.dout e.sink) ∨
    (s.halt = false ∧ ∃ c, r = .error c ∧ t = s.raise c) := by
  simp only [State.command, Host.Outcome.next.injEq] at h
  subst h
  cases hh : s.halt
  · cases r with
    | ok e => exact .inr (.inl ⟨rfl, e, rfl, rfl⟩)
    | error c => exact .inr (.inr ⟨rfl, c, rfl, rfl⟩)
  · exact .inl ⟨rfl, rfl⟩

/-- A command always answers a next state. -/
theorem State.command_next (r : Except ErrCode Effect) : ∃ t, s.command r = .next t := ⟨_, rfl⟩

theorem State.command_halted (r : Except ErrCode Effect) (h : s.halt = true) :
    s.command r = .next s.refuse := by simp [State.command, h]

theorem State.command_ok (e : Effect) (h : s.halt = false) :
    s.command (.ok e) = .next (e.state.answer .ok e.dout e.sink) := by
  simp [State.command, h, State.finish]

theorem State.command_wrote (t : State) (h : s.halt = false) :
    s.command (wrote t) = .next (t.respond 0#128) := State.command_ok _ h

theorem State.command_answered (d : BitVec 128) (h : s.halt = false) :
    s.command (answered s d) = .next (s.respond d) := State.command_ok _ h

theorem State.command_error (c : ErrCode) (h : s.halt = false) :
    s.command (.error c) = .next (s.raise c) := by simp [State.command, h, State.finish]

/-- Everything `State.readCommand` can answer. -/
theorem State.readCommand_cases {r : Except ErrCode Effect} (h : s.readCommand r = .next t) :
    (∃ e, r = .ok e ∧ t = e.state.answer .ok e.dout e.sink) ∨
    (s.halt = true ∧ (∃ c, r = .error c) ∧ t = s.refuse) ∨
    (s.halt = false ∧ ∃ c, r = .error c ∧ t = s.raise c) := by
  cases r with
  | ok e =>
    simp only [State.readCommand, Host.Outcome.next.injEq] at h
    exact .inl ⟨e, rfl, h.symm⟩
  | error c =>
    simp only [State.readCommand, Host.Outcome.next.injEq] at h
    subst h
    cases hh : s.halt
    · exact .inr (.inr ⟨rfl, c, rfl, rfl⟩)
    · exact .inr (.inl ⟨rfl, ⟨c, rfl⟩, rfl⟩)

theorem State.readCommand_ok (e : Effect) :
    s.readCommand (.ok e) = .next (e.state.answer .ok e.dout e.sink) := rfl

theorem State.readCommand_error (c : ErrCode) :
    s.readCommand (.error c) = .next (if s.halt then s.refuse else s.raise c) := rfl

/-- Everything an illegal request does. -/
theorem State.illegalRequest_cases :
    (s.halt = true ∧ s.illegalRequest = s.refuse) ∨
    (s.halt = false ∧ s.illegalRequest = s.raise .illegal) := by
  cases hh : s.halt <;> simp [State.illegalRequest, hh]

/-! ### Receiving and stepping -/

theorem State.receive_nothing (h : s.host = []) : s.receive = .nothing := by
  simp [State.receive, h]

theorem State.receive_hardwareReset {rest : List HostMove}
    (h : s.host = .hardwareReset :: rest) :
    s.receive = .hardwareReset { s with host := rest } := by simp [State.receive, h]

theorem State.receive_command {r : Request} {rest : List HostMove} {i : Instr}
    (h : s.host = .request r :: rest) (hd : decode r.cmd r.arg = .ok i) :
    s.receive = .command i (s.present r rest) := by simp [State.receive, h, hd]

theorem State.receive_illegal {r : Request} {rest : List HostMove} {e : DecodeError}
    (h : s.host = .request r :: rest) (hd : decode r.cmd r.arg = .error e) :
    s.receive = .illegal (s.present r rest) := by simp [State.receive, h, hd]

/-- Everything a step can do. -/
theorem step_cases (s : State) :
    (s.host = [] ∧ step s = .next s) ∨
    (∃ rest, s.host = .hardwareReset :: rest ∧
      step s = .next ({ s with host := rest } : State).resetEngine) ∨
    (∃ r rest i, s.host = .request r :: rest ∧ decode r.cmd r.arg = .ok i ∧
      step s = exec i (s.present r rest)) ∨
    (∃ r rest e, s.host = .request r :: rest ∧ decode r.cmd r.arg = .error e ∧
      step s = .next (s.present r rest).illegalRequest) := by
  cases hs : s.host with
  | nil => exact .inl ⟨rfl, by simp [step, State.receive_nothing hs]⟩
  | cons m rest =>
    cases m with
    | hardwareReset =>
      exact .inr (.inl ⟨rest, rfl, by simp [step, State.receive_hardwareReset hs]⟩)
    | request r =>
      cases hd : decode r.cmd r.arg with
      | ok i => exact .inr (.inr (.inl ⟨r, rest, i, rfl, hd,
          by simp [step, State.receive_command hs hd]⟩))
      | error e => exact .inr (.inr (.inr ⟨r, rest, e, rfl, hd,
          by simp [step, State.receive_illegal hs hd]⟩))

/-! ### Registers after an update -/

@[simp] theorem State.zReg_setZ (i j : ZReg) (v : C64) :
    (s.setZ i v).zReg j = if j = i then v else s.zReg j := by
  simp only [State.zReg, State.setZ, Fin.getElem_fin, Vector.getElem_set, Fin.ext_iff, eq_comm]

@[simp] theorem State.zReg_answer (rsp : Rsp) (d : BitVec 128) (k : Option (List Byte))
    (j : ZReg) : (s.answer rsp d k).zReg j = s.zReg j := rfl

@[simp] theorem State.zReg_respond (d : BitVec 128) (j : ZReg) :
    (s.respond d).zReg j = s.zReg j := rfl

/-! ### Cells after an update -/

theorem State.xElem_setX (i j : Nat) (v : C64) (h : Memory.wf czero s.x) :
    (s.setX i v).xElem j = if j = i then v else s.xElem j :=
  Memory.read_write czero s.x i v j h.1

theorem State.payByte_setPay (i j : Nat) (v : Byte) (h : Memory.wf 0#8 s.pay) :
    (s.setPay i v).payByte j = if j = i then v else s.payByte j :=
  Memory.read_write 0#8 s.pay i v j h.1

@[simp] theorem State.xElem_setXSeq (xs : List C64) (j : Nat) :
    (s.setXSeq xs).xElem j = xs.getD j czero := Memory.read_ofList czero xs j

@[simp] theorem State.bufByte_setBuf (bytes : List Byte) (j : Nat) :
    (s.setBuf bytes).bufByte j = bytes.getD j 0#8 := Memory.read_ofList 0#8 bytes j

@[simp] theorem State.payByte_setPaySeq (bytes : List Byte) (j : Nat) :
    (s.setPaySeq bytes).payByte j = bytes.getD j 0#8 := Memory.read_ofList 0#8 bytes j

@[simp] theorem State.xElem_zeroXFrom (k j : Nat) :
    (s.zeroXFrom k).xElem j = if j < k then s.xElem j else czero :=
  Memory.read_below czero s.x k j

@[simp] theorem State.xElem_setXLen (n : BitVec 64) (j : Nat) :
    (s.setXLen n).xElem j = if j < min n.toNat s.xLen.toNat then s.xElem j else czero :=
  Memory.read_below czero s.x _ j

@[simp] theorem State.payByte_setPayLen (n : BitVec 64) (j : Nat) :
    (s.setPayLen n).payByte j = if j < min n.toNat s.payLen.toNat then s.payByte j else 0#8 :=
  Memory.read_below 0#8 s.pay _ j

/-! ### Whole sequences after an update -/

theorem State.xSeq_setXSeq (xs : List C64) (h : xs.length < 2 ^ 64) :
    (s.setXSeq xs).xSeq = xs := by
  simp only [State.xSeq, State.setXSeq, BitVec.toNat_ofNat, Nat.mod_eq_of_lt h]
  exact Memory.toList_ofList czero xs

theorem State.bufBytes_setBuf (bytes : List Byte) (h : bytes.length < 2 ^ 64) :
    (s.setBuf bytes).bufBytes = bytes := by
  simp only [State.bufBytes, State.setBuf, BitVec.toNat_ofNat, Nat.mod_eq_of_lt h]
  exact Memory.toList_ofList 0#8 bytes

theorem State.payBytes_setPaySeq (bytes : List Byte) (h : bytes.length < 2 ^ 64) :
    (s.setPaySeq bytes).payBytes = bytes := by
  simp only [State.payBytes, State.setPaySeq, BitVec.toNat_ofNat, Nat.mod_eq_of_lt h]
  exact Memory.toList_ofList 0#8 bytes

@[simp] theorem State.length_xSeq : s.xSeq.length = s.xLen.toNat := Memory.length_toList _ _ _

@[simp] theorem State.length_bufBytes : s.bufBytes.length = s.bufLen.toNat :=
  Memory.length_toList _ _ _

@[simp] theorem State.length_payBytes : s.payBytes.length = s.payLen.toNat :=
  Memory.length_toList _ _ _

theorem State.getElem_xSeq (i : Nat) (h : i < s.xSeq.length) : s.xSeq[i] = s.xElem i :=
  Memory.getElem_toList czero s.x s.xLen.toNat i h

theorem State.getElem_bufBytes (i : Nat) (h : i < s.bufBytes.length) :
    s.bufBytes[i] = s.bufByte i := Memory.getElem_toList 0#8 s.buf s.bufLen.toNat i h

theorem State.getElem_payBytes (i : Nat) (h : i < s.payBytes.length) :
    s.payBytes[i] = s.payByte i := Memory.getElem_toList 0#8 s.pay s.payLen.toNat i h

/-! ### Capacities -/

@[simp] theorem HDRLEN_eq : Config.HDRLEN = 44 := rfl

theorem NMAX_pos : 0 < Config.NMAX := Nat.two_pow_pos _

theorem NMAX_le : Config.NMAX ≤ 2 ^ 62 :=
  Nat.pow_le_pow_right (by decide) (by have := Config.nmaxLog2.isLt; omega)

theorem BUFMAX_ge : 44 ≤ Config.BUFMAX := Nat.le_add_right _ _

theorem BUFMAX_le : Config.BUFMAX ≤ 2 ^ 62 := by
  have := Config.bufmaxExcess.isLt; simp only [Config.BUFMAX]; omega

/-! ### Quantizing a sequence -/

/-- A quantized sequence has one byte per element. -/
theorem quantizeAll_length {F : Type} (N : Num F) (signed : Bool) (vs : List (Cplx F))
    (bs : List Byte) (h : quantizeAll N signed vs = .ok bs) : bs.length = vs.length := by
  induction vs generalizing bs with
  | nil => simp only [quantizeAll, Except.ok.injEq] at h; subst h; rfl
  | cons v vs ih =>
    simp only [quantizeAll] at h
    cases hv : quantize N signed v with
    | error e => simp [hv, Except.bind] at h
    | ok b =>
      cases hr : quantizeAll N signed vs with
      | error e => simp [hv, hr, Except.bind, Except.map] at h
      | ok rest =>
        simp only [hv, hr, Except.bind, Except.map, Except.ok.injEq] at h
        subst h
        simp [ih rest hr]

end Sys2Proof.Machine
end

