-- ==== Sys2Proof/Laws/PerInstr.lean ====
section
/-! SUPPORT. The family `EncodesWellFormed`: the request that carries a command is well-formed
(30_encoding R86). One lemma per constructor. -/

namespace Sys2Proof.Laws

/-- The encoding of the command is a well-formed request. -/
def EncodesWellFormed.Statement (i : Instr) : Prop :=
  wellFormedRequest (encode i).1 (encode i).2 = true

/-- A row of the opcode map that does not look at `ARG` and selects the command word with `ARG = 0`
makes every request with that word well-formed. -/
theorem wellFormed_of_argRow (r : OpcodeRow) (cmd : BitVec 32) (arg : BitVec 64)
    (hr : r ∈ opcodeMap) (hu : r.usesArg = true) (hs : r.selects cmd 0#64 = true) :
    wellFormedRequest cmd arg = true :=
  List.any_eq_true.2 ⟨r, hr, by simpa [OpcodeRow.selects, hu] using hs⟩

theorem EncodesWellFormed.rst : EncodesWellFormed.Statement .rst := by
  unfold Statement; decide
theorem EncodesWellFormed.rdcsr (n : BitVec 64) :
    EncodesWellFormed.Statement (.rdcsr n) :=
  wellFormed_of_argRow (plainRow 0x02 true) (formatC 0x02 0 0 0) _ (by decide) rfl (by decide)
theorem EncodesWellFormed.zwr (zd : ZReg) : EncodesWellFormed.Statement (.zwr zd) := by
  unfold Statement; revert zd; decide
theorem EncodesWellFormed.zrd (za : ZReg) : EncodesWellFormed.Statement (.zrd za) := by
  unfold Statement; revert za; decide
theorem EncodesWellFormed.zld (zd : ZReg) (idx : BitVec 64) :
    EncodesWellFormed.Statement (.zld zd idx) :=
  wellFormed_of_argRow ⟨0x12, true, false, false, true⟩ (formatC 0x12 zd 0 0) _ (by decide) rfl
    (by revert zd; decide)
theorem EncodesWellFormed.zst (za : ZReg) (idx : BitVec 64) :
    EncodesWellFormed.Statement (.zst za idx) :=
  wellFormed_of_argRow ⟨0x13, false, true, false, true⟩ (formatC 0x13 0 za 0) _ (by decide) rfl
    (by revert za; decide)
theorem EncodesWellFormed.cadd (zd za zb : ZReg) :
    EncodesWellFormed.Statement (.cadd zd za zb) := by
  unfold Statement; revert zd za zb; decide
theorem EncodesWellFormed.cmul (zd za zb : ZReg) :
    EncodesWellFormed.Statement (.cmul zd za zb) := by
  unfold Statement; revert zd za zb; decide
theorem EncodesWellFormed.cdivr (zd za : ZReg) (n : BitVec 64) :
    EncodesWellFormed.Statement (.cdivr zd za n) :=
  wellFormed_of_argRow ⟨0x16, true, true, false, true⟩ (formatC 0x16 zd za 0) _ (by decide) rfl
    (by revert zd za; decide)
theorem EncodesWellFormed.twid (zd : ZReg) (i sz : BitVec 32) :
    EncodesWellFormed.Statement (.twid zd i sz) :=
  wellFormed_of_argRow ⟨0x17, true, false, false, true⟩ (formatC 0x17 zd 0 0) _ (by decide) rfl
    (by revert zd; decide)
theorem EncodesWellFormed.xsetlen (n : BitVec 64) :
    EncodesWellFormed.Statement (.xsetlen n) :=
  wellFormed_of_argRow (plainRow 0x20 true) (formatC 0x20 0 0 0) _ (by decide) rfl (by decide)
theorem EncodesWellFormed.xwr (idx : BitVec 64) :
    EncodesWellFormed.Statement (.xwr idx) :=
  wellFormed_of_argRow (plainRow 0x21 true) (formatC 0x21 0 0 0) _ (by decide) rfl (by decide)
theorem EncodesWellFormed.xrd (idx : BitVec 64) :
    EncodesWellFormed.Statement (.xrd idx) :=
  wellFormed_of_argRow (plainRow 0x22 true) (formatC 0x22 0 0 0) _ (by decide) rfl (by decide)
theorem EncodesWellFormed.pad : EncodesWellFormed.Statement .pad := by
  unfold Statement; decide
theorem EncodesWellFormed.fft : EncodesWellFormed.Statement .fft := by
  unfold Statement; decide
theorem EncodesWellFormed.ifft : EncodesWellFormed.Statement .ifft := by
  unfold Statement; decide
theorem EncodesWellFormed.ztail (k : BitVec 64) :
    EncodesWellFormed.Statement (.ztail k) :=
  wellFormed_of_argRow (plainRow 0x26 true) (formatC 0x26 0 0 0) _ (by decide) rfl (by decide)
theorem EncodesWellFormed.load : EncodesWellFormed.Statement .load := by
  unfold Statement; decide
theorem EncodesWellFormed.save : EncodesWellFormed.Statement .save := by
  unfold Statement; decide
theorem EncodesWellFormed.extract : EncodesWellFormed.Statement .extract := by
  unfold Statement; decide
theorem EncodesWellFormed.update : EncodesWellFormed.Statement .update := by
  unfold Statement; decide
theorem EncodesWellFormed.psetlen (n : BitVec 64) :
    EncodesWellFormed.Statement (.psetlen n) :=
  wellFormed_of_argRow (plainRow 0x34 true) (formatC 0x34 0 0 0) _ (by decide) rfl (by decide)
theorem EncodesWellFormed.pwr (idx : BitVec 64) :
    EncodesWellFormed.Statement (.pwr idx) :=
  wellFormed_of_argRow (plainRow 0x35 true) (formatC 0x35 0 0 0) _ (by decide) rfl (by decide)
theorem EncodesWellFormed.prd (idx : BitVec 64) :
    EncodesWellFormed.Statement (.prd idx) :=
  wellFormed_of_argRow (plainRow 0x36 true) (formatC 0x36 0 0 0) _ (by decide) rfl (by decide)
theorem EncodesWellFormed.lift : EncodesWellFormed.Statement .lift := by
  unfold Statement; decide
theorem EncodesWellFormed.quant (count : BitVec 64) :
    EncodesWellFormed.Statement (.quant count) :=
  wellFormed_of_argRow (plainRow 0x41 true) (formatC 0x41 0 0 0) _ (by decide) rfl (by decide)

end Sys2Proof.Laws
end

