-- ==== Sys2Proof/Laws/Search.lean ====
section
/-! SUPPORT. The unbounded search of Machine/Trig.lean ends, and what it answers is the nearest value;
so `nearestSine` is correctly rounded (40_complex_alu R111). -/

namespace Sys2Proof.Machine

open scoped Nat

/-! ### Close numbers round alike -/

/-- The magnitude determines the low bits. -/
theorem low_of_f64Mag_eq {u v : F64} (h : f64Mag u = f64Mag v) :
    u.toNat % 2 ^ 63 = v.toNat % 2 ^ 63 := by
  have main : f64Exp u = f64Exp v ∧ f64Frac u = f64Frac v := by
    have hu : f64Frac u < 2 ^ 52 := Nat.mod_lt _ (by decide)
    have hv : f64Frac v < 2 ^ 52 := Nat.mod_lt _ (by decide)
    unfold f64Mag at h
    generalize f64Frac u = a at *
    generalize f64Frac v = b at *
    generalize f64Exp u = i at *
    generalize f64Exp v = j at *
    have less : ∀ {a b i j : Nat}, a < 2 ^ 52 → i < j →
        (2 ^ 52 + a) * 2 ^ i < (2 ^ 52 + b) * 2 ^ j := by
      intro a b i j ha hij
      obtain ⟨k, rfl⟩ := Nat.exists_eq_add_of_lt hij
      calc (2 ^ 52 + a) * 2 ^ i < 2 ^ 53 * 2 ^ i := Nat.mul_lt_mul_of_pos_right (by omega) (Nat.two_pow_pos i)
        _ = 2 ^ 52 * 2 ^ (i + 1) := by rw [pow_succ]; ring
        _ ≤ 2 ^ 52 * 2 ^ (i + k + 1) :=
          Nat.mul_le_mul_left _ (Nat.pow_le_pow_right (by decide) (by omega))
        _ ≤ _ := Nat.mul_le_mul_right _ (by omega)
    have big : ∀ a i : Nat, 2 ^ 52 ≤ (2 ^ 52 + a) * 2 ^ i := fun a i =>
      Nat.le_trans (Nat.le_add_right _ a) (Nat.le_mul_of_pos_right _ (Nat.two_pow_pos i))
    split at h <;> split at h
    · omega
    · have := big b (j - 1); omega
    · have := big a (i - 1); omega
    · rcases Nat.lt_trichotomy (i - 1) (j - 1) with hl | hl | hl
      · exact absurd h (less hu hl).ne
      · rw [hl] at h
        have := Nat.eq_of_mul_eq_mul_right (Nat.two_pow_pos _) h
        omega
      · exact absurd h.symm (less hv hl).ne
  obtain ⟨h1, h2⟩ := main
  unfold f64Exp at h1
  unfold f64Frac at h2
  omega

/-- Packed values of one sign and one size are equal. -/
theorem low_of_scaled_eq {neg : Bool} {x y : Nat} (hx : x < 2 ^ 63) (hy : y < 2 ^ 63)
    (h : f64Scaled (f64Pack neg x) = f64Scaled (f64Pack neg y)) : x = y := by
  unfold f64Scaled at h
  rw [f64Sign_pack neg hx, f64Sign_pack neg hy] at h
  have hm : f64Mag (f64Pack neg x) = f64Mag (f64Pack neg y) := by
    cases neg
    · simp only [Bool.false_eq_true, if_false] at h; exact_mod_cast h
    · simp only [if_true] at h; exact_mod_cast neg_injective h
  have hl := low_of_f64Mag_eq hm
  rw [f64Pack_toNat neg hx, f64Pack_toNat neg hy] at hl
  cases neg
  · simp only [Bool.false_eq_true, if_false, Nat.zero_add] at hl; omega
  · simp only [if_true] at hl; omega

theorem roundMag_lt_sign {n d : Nat} (h : roundMag n d < f64InfLow) : roundMag n d < 2 ^ 63 :=
  h.trans (by decide +kernel)

/-- No two values of different size are equally far from an irrational number; so there is a least
difference of the two distances. -/
theorem exists_distance_gap {y : ℝ} (hy : Irrational y) :
    ∃ δ > 0, ∀ u v : F64, f64Scaled u ≠ f64Scaled v →
      δ ≤ |(|f64Real u - y| - |f64Real v - y|)| := by
  have hfin : Finite (F64 × F64) :=
    Finite.of_injective (fun w : F64 × F64 => (w.1.toFin, w.2.toFin)) (by
      rintro ⟨a, b⟩ ⟨c, d⟩ h
      simp only [Prod.mk.injEq] at h
      exact Prod.ext (BitVec.eq_of_toFin_eq h.1) (BitVec.eq_of_toFin_eq h.2))
  let gapOf : F64 × F64 → ℝ := fun w =>
    if f64Scaled w.1 = f64Scaled w.2 then 1 else |(|f64Real w.1 - y| - |f64Real w.2 - y|)|
  have : Nonempty (F64 × F64) := ⟨(0#64, 0#64)⟩
  obtain ⟨w, hw⟩ := Finite.exists_min gapOf
  refine ⟨gapOf w, ?_, fun u v huv => ?_⟩
  · by_cases h : f64Scaled w.1 = f64Scaled w.2
    · simp only [gapOf, if_pos h]; exact one_pos
    · simp only [gapOf, if_neg h]
      refine abs_pos.2 (sub_ne_zero.2 fun he => ?_)
      rcases abs_eq_abs.1 he with h1 | h1
      · exact h (f64Real_inj (by linarith))
      · refine hy ⟨((f64Scaled w.1 : ℚ) / 2 ^ 1074 + (f64Scaled w.2 : ℚ) / 2 ^ 1074) / 2, ?_⟩
        have h2 : f64Real w.1 + f64Real w.2 = 2 * y := by linarith
        unfold f64Real at h2
        push_cast
        generalize (2 : ℝ) ^ 1074 = P at *
        rw [h2]; ring
  · have := hw (u, v)
    simp only [gapOf, if_neg huv] at this
    exact this

/-- Fractions close enough to an irrational number round alike. -/
theorem exists_roundMag_eq {y : ℝ} (hy : Irrational y) :
    ∃ δ > 0, ∀ (neg : Bool) (a da b db : Nat), 0 < da → 0 < db → a ≤ da * 2 → b ≤ db * 2 →
      |(if neg then -(a : ℝ) else a) / da - y| < δ → |(if neg then -(b : ℝ) else b) / db - y| < δ →
      roundMag a da = roundMag b db := by
  obtain ⟨δ, hδ, hgap⟩ := exists_distance_gap hy
  refine ⟨δ / 4, by linarith, fun neg a da b db hda hdb ha hb h1 h2 => ?_⟩
  have ha' := roundMag_lt_of_le hda ha
  have hb' := roundMag_lt_of_le hdb hb
  refine low_of_scaled_eq (neg := neg) (roundMag_lt_sign ha') (roundMag_lt_sign hb') ?_
  rw [← roundRatio, ← roundRatio]
  by_contra hne
  have na := roundRatio_nearest neg hda ha'
  have nb := roundRatio_nearest neg hdb hb'
  have hg := hgap _ _ hne
  have l1 := (na.2 _ nb.1).1
  have l2 := (nb.2 _ na.1).1
  clear na nb hne hgap ha' hb' ha hb
  generalize f64Real (roundRatio neg a da) = u at *
  generalize f64Real (roundRatio neg b db) = v at *
  generalize (if neg then -(a : ℝ) else a) / da = s at *
  generalize (if neg then -(b : ℝ) else b) / db = t at *
  have t1 := abs_sub_le u s y
  have t2 := abs_sub_le v y s
  have t3 := abs_sub_le v t y
  have t4 := abs_sub_le u y t
  rw [abs_sub_comm y s] at t2
  rw [abs_sub_comm y t] at t4
  have : |(|u - y| - |v - y|)| ≤ δ / 2 := by
    rw [abs_le]; constructor <;> linarith
  linarith

/-- `resolve` decides every enclosure that is close enough to an irrational number. -/
theorem exists_resolve {y : ℝ} (hy : Irrational y) (hy1 : |y| ≤ 1) :
    ∃ δ > 0, ∀ (low : Int) (lowDen : Nat) (high : Int) (highDen : Nat), 0 < lowDen → 0 < highDen →
      |(low : ℝ) / lowDen - y| < δ → |(high : ℝ) / highDen - y| < δ →
      ∃ r, resolve low lowDen high highDen = some r := by
  obtain ⟨δ, hδ, hround⟩ := exists_roundMag_eq hy
  have hpos : 0 < |y| := abs_pos.2 hy.ne_zero
  refine ⟨min δ |y|, lt_min hδ hpos, fun low lowDen high highDen hl hh h1 h2 => ?_⟩
  rw [lt_min_iff] at h1 h2
  have hl' : (0 : ℝ) < lowDen := by exact_mod_cast hl
  have hh' : (0 : ℝ) < highDen := by exact_mod_cast hh
  -- one end, of the sign of `y`
  have side : ∀ (n : Int) (d : Nat) (w : ℝ), (0 : ℝ) < d → 0 < w → w ≤ 1 →
      |(n : ℝ) / d - w| < w → 0 < n ∧ n.toNat ≤ d * 2 ∧ (n.toNat : ℝ) = n := by
    intro n d w hd hw hw1 h
    rw [abs_lt] at h
    have n0 : 0 < n := by
      have : 0 < (n : ℝ) / d := by linarith
      rw [lt_div_iff₀ hd, zero_mul] at this
      exact_mod_cast this
    have e : (n.toNat : ℝ) = n := by exact_mod_cast (Int.toNat_of_nonneg n0.le)
    have n2 : (n : ℝ) / d ≤ 2 := by linarith
    rw [div_le_iff₀ hd] at n2
    refine ⟨n0, ?_, e⟩
    have : (n.toNat : ℝ) ≤ d * 2 := by rw [e]; linarith
    exact_mod_cast this
  rcases lt_or_gt_of_ne hy.ne_zero with hneg | hpos'
  · rw [abs_of_neg hneg] at h1 h2 hy1
    have flip : ∀ (n : Int) (d : Nat), |(n : ℝ) / d - y| = |((-n : Int) : ℝ) / d - -y| := by
      intro n d; rw [← abs_neg]; congr 1; push_cast; ring
    obtain ⟨l0, l2, el⟩ := side (-low) lowDen (-y) hl' (by linarith) hy1 (by rw [← flip]; exact h1.2)
    obtain ⟨m0, m2, em⟩ := side (-high) highDen (-y) hh' (by linarith) hy1 (by rw [← flip]; exact h2.2)
    have heq := hround true (-low).toNat lowDen (-high).toNat highDen hl hh l2 m2
      (by rw [if_pos rfl, el]; push_cast; rw [neg_neg]; exact h1.1)
      (by rw [if_pos rfl, em]; push_cast; rw [neg_neg]; exact h2.1)
    exact ⟨_, by rw [resolve, if_neg (by clear heq; omega), if_pos (by clear heq; omega), if_pos heq]⟩
  · rw [abs_of_pos hpos'] at h1 h2 hy1
    obtain ⟨l0, l2, el⟩ := side low lowDen y hl' hpos' hy1 h1.2
    obtain ⟨m0, m2, em⟩ := side high highDen y hh' hpos' hy1 h2.2
    have heq := hround false low.toNat lowDen high.toNat highDen hl hh l2 m2
      (by rw [if_neg (by simp), el]; exact h1.1) (by rw [if_neg (by simp), em]; exact h2.1)
    exact ⟨_, by rw [resolve, if_pos l0, if_pos heq]⟩

/-! ### The search -/

/-- The sine (`turns = 0`) or the cosine (`turns = 1`) of a rational number. -/
noncomputable def exactTurned (x : ℚ) (turns : Nat) : ℝ := if turns = 0 then Real.sin x else Real.cos x

theorem taylorSum_cast (x : ℚ) (turns n : Nat) :
    ((taylorSum x turns n : ℚ) : ℝ) = ∑ j ∈ Finset.range n,
      (-1) ^ j * ((x : ℝ) ^ (2 * j + (1 - turns)) / ((2 * j + (1 - turns))! : ℝ)) := by
  induction n with
  | zero => simp [taylorSum]
  | succ n ih =>
    rw [Finset.sum_range_succ, ← ih, taylorSum, taylorSum, List.range_succ, List.map_append,
      List.sum_append]
    push_cast
    simp

theorem taylorError_cast (x : ℚ) (n : Nat) :
    ((taylorError x n : ℚ) : ℝ) = (x : ℝ) ^ (2 * n) / (2 * n)! * 3 ^ ⌈x⌉₊ := by
  rw [taylorError]; push_cast; rfl

/-- The enclosure by the first terms of the series. -/
theorem taylorSum_near {x : ℚ} (hx : 0 ≤ x) {turns : Nat} (ht : turns ≤ 1) (n : Nat) :
    |exactTurned x turns - (taylorSum x turns n : ℚ)| ≤ (taylorError x n : ℚ) := by
  have hx' : (0 : ℝ) ≤ x := by exact_mod_cast hx
  have hexp : Real.exp x ≤ 3 ^ ⌈x⌉₊ := by
    have h1 : (x : ℝ) ≤ (⌈x⌉₊ : ℝ) := by exact_mod_cast Nat.le_ceil x
    calc Real.exp x ≤ Real.exp ⌈x⌉₊ := Real.exp_le_exp.2 h1
      _ = Real.exp 1 ^ ⌈x⌉₊ := by rw [← Real.exp_nat_mul, mul_one]
      _ ≤ _ := by
        have := Real.exp_pos 1
        have h2 : Real.exp 1 ≤ 3 := by linarith [Real.exp_one_lt_d9]
        gcongr
  have hb : (x : ℝ) ^ (2 * n) / (2 * n)! * Real.exp x ≤ (taylorError x n : ℚ) := by
    rw [taylorError_cast]
    gcongr
  rw [taylorSum_cast, exactTurned]
  obtain rfl | rfl : turns = 0 ∨ turns = 1 := by omega
  · exact (sine_tail hx' n).trans hb
  · exact (cosine_tail hx' n).trans hb

theorem taylorError_tendsto (x : ℚ) :
    Filter.Tendsto (fun n => ((taylorError x n : ℚ) : ℝ)) Filter.atTop (nhds 0) := by
  have h1 := (FloorSemiring.tendsto_pow_div_factorial_atTop (x : ℝ)).comp
    (Filter.tendsto_id.const_mul_atTop' (show 0 < 2 by decide))
  have h2 := h1.mul_const ((3 : ℝ) ^ ⌈x⌉₊)
  rw [zero_mul] at h2
  refine h2.congr fun n => ?_
  rw [taylorError_cast]; rfl

theorem exactTurned_irrational {x : ℚ} (hx : x ≠ 0) (turns : Nat) :
    Irrational (exactTurned x turns) := by
  unfold exactTurned
  split
  · exact irrational_sin hx
  · exact irrational_cos hx

theorem exactTurned_abs_le (x : ℚ) (turns : Nat) : |exactTurned x turns| ≤ 1 := by
  unfold exactTurned
  split
  · exact Real.abs_sin_le_one _
  · exact Real.abs_cos_le_one _

/-- What `n` terms decide is the nearest value. -/
theorem taylorRounded_nearest {x : ℚ} (hx : 0 ≤ x) {turns n : Nat} {r : F64} (ht : turns ≤ 1)
    (h : taylorRounded x turns n = some r) : RoundsToReal r (exactTurned x turns) := by
  have hn := abs_le.1 (taylorSum_near hx ht n)
  refine resolve_nearest h (Rat.den_pos _) (Rat.den_pos _) ?_ ?_ (exactTurned_abs_le x turns)
  · rw [← Rat.cast_def]; push_cast; linarith
  · rw [← Rat.cast_def]; push_cast; linarith

/-- Enough terms decide. -/
theorem taylorRounded_decides {x : ℚ} (hx : 0 < x) {turns : Nat} (ht : turns ≤ 1) :
    ∃ N, ∀ n ≥ N, ∃ r, taylorRounded x turns n = some r := by
  obtain ⟨δ, hδ, h⟩ := exists_resolve (exactTurned_irrational hx.ne' turns) (exactTurned_abs_le x turns)
  obtain ⟨N, hN⟩ := Filter.eventually_atTop.1
    ((taylorError_tendsto x).eventually (gt_mem_nhds (half_pos hδ)))
  refine ⟨N, fun n hn => ?_⟩
  have h1 := abs_le.1 (taylorSum_near hx.le ht n)
  have h2 := hN n hn
  refine h _ _ _ _ (Rat.den_pos _) (Rat.den_pos _) ?_ ?_
  · rw [← Rat.cast_def, abs_lt]; push_cast; constructor <;> linarith
  · rw [← Rat.cast_def, abs_lt]; push_cast; constructor <;> linarith

/-- The search ends, with what some number of terms decides. -/
theorem searchSine_eq (x : ℚ) (turns : Nat) {d n : Nat} {r : F64}
    (h : taylorRounded x turns (n + d) = some r) :
    ∃ m, taylorRounded x turns m = some (searchSine x turns n) := by
  induction d generalizing n with
  | zero =>
    refine ⟨n, ?_⟩
    rw [Nat.add_zero] at h
    rw [searchSine, h]
  | succ d ih =>
    cases hn : taylorRounded x turns n with
    | some r' => exact ⟨n, by rw [searchSine, hn]⟩
    | none =>
      obtain ⟨m, hm⟩ := ih (n := n + 1) (by rw [← h]; congr 1; omega)
      exact ⟨m, by rw [hm]; conv_rhs => rw [searchSine, hn]⟩

/-- The search gives the nearest value. -/
theorem searchSine_nearest {x : ℚ} (hx : 0 < x) {turns : Nat} (ht : turns ≤ 1) (n : Nat) :
    RoundsToReal (searchSine x turns n) (exactTurned x turns) := by
  obtain ⟨N, hN⟩ := taylorRounded_decides hx ht
  obtain ⟨r, hr⟩ := hN (n + N) (Nat.le_add_left _ _)
  obtain ⟨m, hm⟩ := searchSine_eq x turns hr
  exact taylorRounded_nearest hx.le ht hm

/-- The magnitude of a finite value. -/
theorem f64Mag_lt {x : F64} (h : f64IsFinite x = true) : f64Mag x < 2 ^ 2098 := by
  have hf : f64Frac x < 2 ^ 52 := Nat.mod_lt _ (by decide)
  have he : f64Exp x < 2 ^ 11 := Nat.mod_lt _ (by decide)
  have hne : f64Exp x ≠ 2047 := by simpa [f64IsFinite] using h
  unfold f64Mag
  split
  · exact hf.trans (Nat.pow_lt_pow_right (by decide) (by decide))
  · calc (2 ^ 52 + f64Frac x) * 2 ^ (f64Exp x - 1) < 2 ^ 53 * 2 ^ (f64Exp x - 1) :=
          Nat.mul_lt_mul_of_pos_right (by omega) (Nat.two_pow_pos _)
      _ ≤ 2 ^ 53 * 2 ^ 2045 :=
          Nat.mul_le_mul_left _ (Nat.pow_le_pow_right (by decide) (by omega))
      _ = 2 ^ 2098 := by rw [← pow_add]

/-- `nearestSine` gives the nearest value to the sine (`turns = 0`) or the cosine (`turns = 1`) of
every magnitude of a finite value other than 0. -/
theorem nearestSine_nearest {mag turns : Nat} (h0 : 0 < mag) (hmag : mag < 2 ^ 2098)
    (ht : turns ≤ 1) :
    RoundsToReal (nearestSine mag turns) (Real.sin (mag / 2 ^ 1074 + turns * (Real.pi / 2))) := by
  cases h : roundedSine mag turns trigPrecisions with
  | some r =>
    have e : nearestSine mag turns = r := by rw [nearestSine, h, Option.getD_some]
    rw [e]
    exact roundedSine_nearest hmag h
  | none =>
    have e : nearestSine mag turns = searchSine (mag / 2 ^ 1074) turns 0 := by
      rw [nearestSine, h, Option.getD_none]
    have hx : (0 : ℚ) < mag / 2 ^ 1074 :=
      div_pos (by exact_mod_cast h0) (pow_pos two_pos _)
    have hs := searchSine_nearest hx ht 0
    rw [e]
    convert hs using 1
    rw [exactTurned]
    push_cast
    obtain rfl | rfl : turns = 0 ∨ turns = 1 := by clear hmag h e hs; omega
    · simp
    · rw [if_neg (by decide), Nat.cast_one, one_mul, Real.sin_add_pi_div_two]

/-! ### The cosine and the sine -/

theorem num_fcos : num.fcos = f64Cos := rfl

theorem num_fsin : num.fsin = f64Sin := rfl

theorem f64Cos_of_tiny {x : F64} (hf : f64IsFinite x = true) (h : f64IsTiny x = true) :
    f64Cos x = f64OfNat 1 := by
  rw [f64Cos, hf, Bool.not_true, if_neg Bool.false_ne_true, if_pos h]

theorem f64Cos_of_not_tiny {x : F64} (hf : f64IsFinite x = true) (h : f64IsTiny x = false) :
    f64Cos x = nearestSine (f64Mag x) 1 := by
  rw [f64Cos, hf, Bool.not_true, if_neg Bool.false_ne_true, h, if_neg Bool.false_ne_true]

theorem f64Sin_of_tiny {x : F64} (hf : f64IsFinite x = true) (h : f64IsTiny x = true) :
    f64Sin x = x := by
  rw [f64Sin, hf, Bool.not_true, if_neg Bool.false_ne_true, if_pos h]

theorem f64Sin_of_not_tiny {x : F64} (hf : f64IsFinite x = true) (h : f64IsTiny x = false) :
    f64Sin x =
      if f64Sign x then f64Neg (nearestSine (f64Mag x) 0) else nearestSine (f64Mag x) 0 := by
  rw [f64Sin, hf, Bool.not_true, if_neg Bool.false_ne_true, h, if_neg Bool.false_ne_true]

end Sys2Proof.Machine
end

