-- ==== Sys2Proof/Laws/Sequences.lean ====
section
/-! SUPPORT. The lengths of the sequence functions, and that a padded length stays within the
capacity of `X` (00_scope R9; 41_transform R143, R147 (b), R150). -/

namespace Sys2Proof.Machine

variable {F : Type}

theorem le_padLength (n : Nat) : n ≤ padLength n := by
  unfold padLength
  split
  · omega
  split
  · omega
  · have := Nat.lt_log2_self (n := n - 1); omega

/-- The capacity is a power of two, so padding stays within it (00_scope R9). -/
theorem padLength_le_NMAX {n : Nat} (h : n ≤ Config.NMAX) : padLength n ≤ Config.NMAX := by
  unfold padLength
  split
  · omega
  split
  · exact NMAX_pos
  · unfold Config.NMAX at *
    have : Nat.log2 (n - 1) < Config.nmaxLog2.val := (Nat.log2_lt (by omega)).2 (by omega)
    exact Nat.pow_le_pow_right (by decide) (by omega)

@[simp] theorem length_pad (N : Num F) (x : List (Cplx F)) :
    (pad N x).length = padLength x.length := by
  have := le_padLength x.length
  simp only [pad, List.length_append, List.length_replicate]
  omega

@[simp] theorem length_combine (N : Num F) (sz : Nat) (ev od : List (Cplx F)) :
    (combine N sz ev od).length = sz := by simp [combine]

@[simp] theorem length_evens (N : Num F) (p : List (Cplx F)) :
    (evens N p).length = p.length / 2 := by simp [evens]

@[simp] theorem length_odds (N : Num F) (p : List (Cplx F)) :
    (odds N p).length = p.length / 2 := by simp [odds]

@[simp] theorem length_transform (N : Num F) (x : List (Cplx F)) :
    (transform N x).length = padLength x.length := by
  unfold transform
  match x with
  | [] => rfl
  | [_] => rfl
  | a :: b :: r =>
    have h : ¬ (a :: b :: r).length < 2 := by simp
    show (transformFuel N ((b :: r).length + 1) (a :: b :: r)).length = _
    rw [transformFuel, if_neg h, length_combine, length_pad]

@[simp] theorem length_reverseTail {α : Type} (xs : List α) :
    (reverseTail xs).length = xs.length := by cases xs <;> simp [reverseTail]

@[simp] theorem length_inverseTransform (N : Num F) (x : List (Cplx F)) :
    (inverseTransform N x).length = padLength x.length := by
  simp only [inverseTransform, length_reverseTail, List.length_map, length_transform]

end Sys2Proof.Machine
end

