-- ==== Sys2Proof/Laws/Tiny.lean ====
section
/-! SUPPORT. The operands so small that a cosine rounds to 1 and a sine to its argument
(40_complex_alu R111). -/

namespace Sys2Proof.Machine

/-- A finite value other than `x` differs from it by at least `2^-53` of its size. -/
theorem f64Mag_gap {v x : F64} (h : f64Mag v ≠ f64Mag x) :
    f64Mag x ≤ 2 ^ 53 * ((f64Mag v : Int) - f64Mag x).natAbs := by
  have hf : f64Frac x < 2 ^ 52 := Nat.mod_lt _ (by decide)
  have hx : f64Mag x = if f64Exp x = 0 then f64Frac x else (2 ^ 52 + f64Frac x) * 2 ^ (f64Exp x - 1) :=
    rfl
  split at hx
  · generalize f64Mag v = V at *; generalize f64Mag x = X at *; omega
  · generalize hm : 2 ^ 52 + f64Frac x = m at *
    generalize f64Exp x - 1 = q at *
    have hup := f64Mag_grid v (q := q) (m := m) (fun _ => by omega)
    have hdown : f64Mag v < f64Mag x → f64Mag x ≤ 2 ^ 53 * (f64Mag x - f64Mag v) := by
      intro hlt
      rcases Nat.eq_zero_or_pos q with rfl | hq
      · rw [pow_zero] at hx; generalize f64Mag v = V at *; generalize f64Mag x = X at *; omega
      · obtain ⟨p, rfl⟩ := Nat.exists_eq_add_of_lt hq
        rw [Nat.zero_add] at *
        by_cases hmin : m = 2 ^ 52
        · have hg := f64Mag_grid v (q := p) (m := 2 * m - 1) (fun _ => by omega)
          rw [show 2 * m - 1 + 1 = 2 * m by omega, pow_succ] at *
          have e : 2 * m * 2 ^ p = f64Mag x := by rw [hx]; ring
          have e2 : (2 * m - 1) * 2 ^ p = f64Mag x - 2 ^ p := by rw [Nat.sub_mul, e, one_mul]
          have e3 : f64Mag x = 2 ^ 53 * 2 ^ p := by rw [← e, hmin]; ring
          rw [e, e2] at hg
          have : 0 < 2 ^ p := Nat.two_pow_pos p
          generalize f64Mag v = V at *; generalize f64Mag x = X at *; generalize 2 ^ p = P at *
          omega
        · have hg := f64Mag_grid v (q := p + 1) (m := m - 1) (fun _ => by omega)
          rw [show m - 1 + 1 = m by omega, ← hx, Nat.sub_mul, one_mul, ← hx] at hg
          have e3 : f64Mag x ≤ 2 ^ 53 * 2 ^ (p + 1) := by
            rw [hx]; exact Nat.mul_le_mul_right _ (by omega)
          have : 0 < 2 ^ (p + 1) := Nat.two_pow_pos _
          generalize f64Mag v = V at *; generalize f64Mag x = X at *
          generalize 2 ^ (p + 1) = P at *
          omega
    rw [Nat.add_mul, one_mul, ← hx] at hup
    have e3 : f64Mag x ≤ 2 ^ 53 * 2 ^ q := by
      rw [hx]; exact Nat.mul_le_mul_right _ (by omega)
    generalize f64Mag v = V at *; generalize f64Mag x = X at *
    generalize 2 ^ q = P at *
    omega

/-- The same for values as real numbers. -/
theorem f64Real_gap {v x : F64} (h : f64Scaled v ≠ f64Scaled x) :
    |f64Real x| ≤ 2 ^ 53 * |f64Real v - f64Real x| := by
  have hn : (f64Scaled x).natAbs ≤ 2 ^ 53 * (f64Scaled v - f64Scaled x).natAbs := by
    have hg := @f64Mag_gap v x
    unfold f64Scaled at *
    generalize f64Mag v = V at *; generalize f64Mag x = X at *
    generalize f64Sign v = sv at *; generalize f64Sign x = sx at *
    by_cases he : V = X
    · cases sv <;> cases sx <;>
        simp only [Bool.false_eq_true, if_false, if_true] at * <;> omega
    · have := hg he
      cases sv <;> cases sx <;>
        simp only [Bool.false_eq_true, if_false, if_true] at * <;> omega
  have hr : |(f64Scaled x : ℝ)| ≤ 2 ^ 53 * |(f64Scaled v : ℝ) - f64Scaled x| := by
    have : ((f64Scaled x).natAbs : ℝ) ≤ 2 ^ 53 * ((f64Scaled v - f64Scaled x).natAbs : ℝ) := by
      exact_mod_cast hn
    rwa [Nat.cast_natAbs, Nat.cast_natAbs, Int.cast_abs, Int.cast_abs, Int.cast_sub] at this
  have hp : (0 : ℝ) < 2 ^ 1074 := by positivity
  unfold f64Real
  rw [← sub_div, abs_div, abs_div, abs_of_pos hp, ← mul_div_assoc]
  exact div_le_div_of_nonneg_right hr hp.le

/-- A finite value rounds every number that is nearer than half a gap. -/
theorem roundsToReal_of_close {r : F64} {y : ℝ} (hf : f64IsFinite r = true)
    (h : 2 ^ 55 * |f64Real r - y| ≤ |f64Real r|) : RoundsToReal r y := by
  refine ⟨hf, fun v _ => ?_⟩
  by_cases hv : f64Scaled v = f64Scaled r
  · rw [f64Real, f64Real, hv]; exact ⟨le_rfl, fun _ h1 => absurd rfl h1⟩
  · have hg := f64Real_gap hv
    have hne : 0 < |f64Real v - f64Real r| :=
      abs_pos.2 (sub_ne_zero.2 (mt f64Real_inj hv))
    have ht : |f64Real v - f64Real r| ≤ |f64Real v - y| + |f64Real r - y| := by
      have := abs_sub_le (f64Real v) y (f64Real r)
      rwa [abs_sub_comm y] at this
    have hlt : |f64Real r - y| < |f64Real v - y| := by linarith
    exact ⟨hlt.le, fun h1 => absurd h1 hlt.ne⟩

theorem f64Real_abs (x : F64) : |f64Real x| = f64Mag x / 2 ^ 1074 := by
  have hp : (0 : ℝ) < 2 ^ 1074 := by positivity
  rw [f64Real, abs_div, abs_of_pos hp]
  congr 1
  unfold f64Scaled; split <;> simp

theorem f64Real_of_tiny {x : F64} (h : f64IsTiny x = true) : |f64Real x| < 1 / 2 ^ 27 := by
  have hm : f64Mag x < 2 ^ 1047 := of_decide_eq_true h
  have hm' : (f64Mag x : ℝ) < 2 ^ 1047 := by exact_mod_cast hm
  have hp : (0 : ℝ) < 2 ^ 1074 := by positivity
  rw [f64Real_abs, div_lt_div_iff₀ hp (by positivity)]
  calc (f64Mag x : ℝ) * 2 ^ 27 < 2 ^ 1047 * 2 ^ 27 := by
        exact mul_lt_mul_of_pos_right hm' (by positivity)
    _ = 1 * 2 ^ 1074 := by rw [← pow_add, one_mul]

/-- The sine of a tiny value rounds to the value. -/
theorem tiny_sine_nearest {x : F64} (hf : f64IsFinite x = true) (h : f64IsTiny x = true) :
    RoundsToReal x (Real.sin (f64Real x)) := by
  have ht := f64Real_of_tiny h
  refine roundsToReal_of_close hf ?_
  generalize f64Real x = X at *
  clear h
  have hpos : ∀ Y : ℝ, 0 < Y → Y < 1 / 2 ^ 27 → 2 ^ 55 * |Y - Real.sin Y| ≤ Y := by
    intro Y h0 h1
    have h2 := Real.sin_gt_sub_cube h0
    have h3 := Real.sin_lt h0
    rw [abs_of_pos (by linarith)]
    have h4 : Y ^ 2 ≤ (1 / 2 ^ 27) ^ 2 := by gcongr
    have h5 : Y ^ 3 = Y * Y ^ 2 := by ring
    nlinarith
  rcases lt_trichotomy X 0 with h0 | h0 | h0
  · rw [abs_of_neg h0] at ht ⊢
    have := hpos (-X) (by linarith) ht
    rw [Real.sin_neg] at this
    rw [← abs_neg]
    convert this using 3
    ring
  · subst h0; simp
  · rw [abs_of_pos h0] at ht ⊢
    exact hpos X h0 ht

/-- The cosine of a tiny value rounds to 1. -/
theorem tiny_cosine_nearest {x : F64} (h : f64IsTiny x = true) :
    RoundsToReal (f64OfNat 1) (Real.cos (f64Real x)) := by
  have ht := f64Real_of_tiny h
  have h1 : f64Real (f64OfNat 1) = 1 := by
    have : f64Scaled (f64OfNat 1) = 2 ^ 1074 := by decide +kernel
    rw [f64Real, this]; push_cast; exact div_self (by positivity)
  refine roundsToReal_of_close (by decide +kernel) ?_
  rw [h1]
  generalize f64Real x = X at *
  clear h
  have h2 := Real.one_sub_sq_div_two_le_cos (x := X)
  have h3 := Real.cos_le_one X
  have h4 : X ^ 2 ≤ (1 / 2 ^ 27) ^ 2 := by
    rw [← sq_abs]; gcongr
  rw [abs_of_nonneg (by linarith), abs_one]
  norm_num at h4 ⊢
  linarith

end Sys2Proof.Machine
end

