-- ==== Sys2Proof/Tests/Slice0.lean ====
section
/-! SUPPORT. The model's own tests. Every expected value is the spec's: 95_test_vectors (V-…, S1 to
S4), the example of the rule named, or opcode_table.json. The witnesses of the statements'
hypotheses are in the last part. -/

namespace Sys2Proof.Tests

open Sys2Proof.Machine

/- One proof at a time: many kernel evaluations waiting at once take a thread and its stack each. -/
set_option Elab.async false

/-! ### Helpers -/

/-- The next state of a step that has one. -/
def nextOf : StepResult → Option State
  | .next t => some t
  | _ => none

/-- A request with the given data inputs. -/
def req (cmd : BitVec 32) (arg : BitVec 64) (din : BitVec 128) : Request :=
  ⟨cmd, arg, ⟨din, .absent, false⟩⟩

/-- One step on a state whose host sends one request. -/
def send (s : State) (cmd : BitVec 32) (arg : BitVec 64) (din : BitVec 128) : Option State :=
  nextOf (step { s with host := [.request (req cmd arg din)] })

/-- The last response of a state. -/
def lastAnswer (t : Option State) : Option Response := t.bind fun s => s.responses.getLast?

/-- `RSP = 0` with a value on `DOUT`. -/
def okDout (d : BitVec 128) : Option Response := some ⟨.ok, d, none⟩

/-- `RSP = 1` with a code on `DOUT`. -/
def errDout (d : BitVec 128) : Option Response := some ⟨.error, d, none⟩

/-- `RSP = 2`. -/
def refusedDout : Option Response := some ⟨.refused, 0#128, none⟩

/-- A complex value from the bits of its parts. -/
def cx (re im : F64) : C64 := ⟨re, im⟩

/-- The state after reset with a sequence. -/
def withX (xs : List C64) : State := State.reset.setXSeq xs

/-- The state after reset with a payload. -/
def withPay (bytes : List Byte) : State := State.reset.setPaySeq bytes

/-- The state after reset with two complex registers. -/
def withZ (a b : C64) : State := (State.reset.setZ 0 a).setZ 1 b

/-- A header: 44 bytes, zero but for the fields of the duration (all below 2^16 but the last). -/
def headerBytes (channels rate bits size : Nat) : List Byte :=
  List.replicate 22 0#8 ++
  [BitVec.ofNat 8 channels, BitVec.ofNat 8 (channels / 256)] ++
  [BitVec.ofNat 8 rate, BitVec.ofNat 8 (rate / 256), 0#8, 0#8] ++ List.replicate 6 0#8 ++
  [BitVec.ofNat 8 bits, BitVec.ofNat 8 (bits / 256)] ++ List.replicate 4 0#8 ++
  [BitVec.ofNat 8 size, BitVec.ofNat 8 (size / 2 ^ 8), BitVec.ofNat 8 (size / 2 ^ 16),
   BitVec.ofNat 8 (size / 2 ^ 24)]

/-- The 52 bytes of V-C1. -/
def fileC1 : List Byte :=
  [0x52#8, 0x49#8, 0x46#8, 0x46#8, 0x2C#8, 0x00#8, 0x00#8, 0x00#8, 0x57#8, 0x41#8, 0x56#8, 0x45#8] ++
  [0x66#8, 0x6D#8, 0x74#8, 0x20#8, 0x10#8, 0x00#8, 0x00#8, 0x00#8, 0x01#8, 0x00#8, 0x01#8, 0x00#8] ++
  [0x40#8, 0x1F#8, 0x00#8, 0x00#8, 0x40#8, 0x1F#8, 0x00#8, 0x00#8, 0x01#8, 0x00#8, 0x08#8, 0x00#8] ++
  [0x64#8, 0x61#8, 0x74#8, 0x61#8, 0x08#8, 0x00#8, 0x00#8, 0x00#8] ++
  [0x0A#8, 0x14#8, 0x1E#8, 0x28#8, 0x32#8, 0x3C#8, 0x46#8, 0x50#8]

/-- The state after V-C1's `LOAD`. -/
def loadedC1 : State :=
  { State.reset.setBuf fileC1 with
    derived := some ⟨parseHeader (fileC1.take 44), ⟨0#32, 0#32, 0#32⟩⟩ }

/-! ### Well-formedness: each check refuses an ill-formed request (V-E6 to V-E12) -/

theorem test_wellFormed_accepts : wellFormedRequest 0x00001B15#32 0#64 = true := by decide
theorem test_wellFormed_opcode : wellFormedRequest 0x00000000#32 0#64 = false := by decide
theorem test_wellFormed_reserved14 : wellFormedRequest 0x00004024#32 0#64 = false := by decide
theorem test_wellFormed_reserved31 : wellFormedRequest 0x80000001#32 0#64 = false := by decide
theorem test_wellFormed_unusedZd : wellFormedRequest 0x00000111#32 0#64 = false := by decide
theorem test_wellFormed_unusedZa : wellFormedRequest 0x00000412#32 0#64 = false := by decide
theorem test_wellFormed_unusedZb : wellFormedRequest 0x00001016#32 0#64 = false := by decide
theorem test_wellFormed_unusedArg : wellFormedRequest 0x00000024#32 1#64 = false := by decide

/-! ### The opcode map against opcode_table.json -/

theorem test_opcodeMap_match : opcodeMap.map OpcodeRow.op =
    [0x01, 0x02, 0x10, 0x11, 0x12, 0x13, 0x14, 0x15, 0x16, 0x17, 0x20, 0x21, 0x22, 0x23, 0x24, 0x25,
     0x26, 0x30, 0x31, 0x32, 0x33, 0x34, 0x35, 0x36, 0x40, 0x41] := by decide

theorem test_opcodeMap_mask : opcodeMap.map OpcodeRow.mask =
    [0xFFFFFFFF, 0xFFFFFFFF, 0xFFFFFCFF, 0xFFFFF3FF, 0xFFFFFCFF, 0xFFFFF3FF, 0xFFFFC0FF, 0xFFFFC0FF,
     0xFFFFF0FF, 0xFFFFFCFF] ++ List.replicate 16 0xFFFFFFFF := by decide

/-! ### Decoding: words written from 30_encoding R81, R85 -/

theorem test_decode_system :
    decode 0b00000000000000000000000000000001#32 0#64 = .ok .rst ∧
    decode 0b00000000000000000000000000000010#32 0x17#64 = .ok (.rdcsr 0x17#64) := by decide

theorem test_decode_registers :
    decode 0b00000000000000000000001100010000#32 0#64 = .ok (.zwr 3) ∧
    decode 0b00000000000000000000010000010001#32 0#64 = .ok (.zrd 1) ∧
    decode 0b00000000000000000000001000010010#32 7#64 = .ok (.zld 2 7#64) ∧
    decode 0b00000000000000000000110000010011#32 5#64 = .ok (.zst 3 5#64) := by decide

theorem test_decode_units :
    decode 0b00000000000000000001001000010100#32 0#64 = .ok (.cadd 2 0 1) ∧
    decode 0b00000000000000000001101100010101#32 0#64 = .ok (.cmul 3 2 1) ∧
    decode 0b00000000000000000000011000010110#32 4#64 = .ok (.cdivr 2 1 4#64) ∧
    decode 0b00000000000000000000001000010111#32 0x0000000200000001#64 =
      .ok (.twid 2 1#32 2#32) := by decide

theorem test_decode_sequence :
    decode 0b00000000000000000000000000100000#32 3#64 = .ok (.xsetlen 3#64) ∧
    decode 0b00000000000000000000000000100001#32 2#64 = .ok (.xwr 2#64) ∧
    decode 0b00000000000000000000000000100010#32 2#64 = .ok (.xrd 2#64) := by decide

theorem test_decode_transform :
    decode 0b00000000000000000000000000100011#32 0#64 = .ok .pad ∧
    decode 0b00000000000000000000000000100100#32 0#64 = .ok .fft ∧
    decode 0b00000000000000000000000000100101#32 0#64 = .ok .ifft ∧
    decode 0b00000000000000000000000000100110#32 3#64 = .ok (.ztail 3#64) := by decide

theorem test_decode_container :
    decode 0b00000000000000000000000000110000#32 0#64 = .ok .load ∧
    decode 0b00000000000000000000000000110001#32 0#64 = .ok .save ∧
    decode 0b00000000000000000000000000110010#32 0#64 = .ok .extract ∧
    decode 0b00000000000000000000000000110011#32 0#64 = .ok .update := by decide

theorem test_decode_payload :
    decode 0b00000000000000000000000000110100#32 4#64 = .ok (.psetlen 4#64) ∧
    decode 0b00000000000000000000000000110101#32 1#64 = .ok (.pwr 1#64) ∧
    decode 0b00000000000000000000000000110110#32 1#64 = .ok (.prd 1#64) := by decide

theorem test_decode_quantizer :
    decode 0b00000000000000000000000001000000#32 0#64 = .ok .lift ∧
    decode 0b00000000000000000000000001000001#32 4#64 = .ok (.quant 4#64) := by decide

theorem test_decode_rejects :
    decode 0x00000042#32 0#64 = .error .unassignedOpcode ∧
    decode 0x00000024#32 1#64 = .error .unusedArg ∧
    decode 0x00000124#32 0#64 = .error .unusedRegister ∧
    decode 0x00004024#32 0#64 = .error .reservedBits := by decide

/-- `RDCSR` with 32 bits given, `TWID z2, 1, 2` with 96. -/
theorem test_decodeTableWord :
    decodeTableWord 32 0x00000002 = some (.rdcsr 0#64) ∧
    decodeTableWord 96 0x000000020000000100000217 = some (.twid 2 1#32 2#32) ∧
    decodeTableWord 32 0x00000000 = none := by decide

/-- The placed instruction is the one the next step runs. -/
theorem test_withFetchWord :
    lastAnswer (nextOf (step (State.reset.withFetchWord 32 0x00000002))) = okDout 0#128 := by
  decide +kernel

/-! ### Complex registers and units -/

/-- R119's example. -/
theorem test_zwr : (send State.reset 0x00000110#32 0#64
    0x40100000000000004008000000000000#128).map (fun s => s.zReg 1) =
    some (cx 0x4008000000000000#64 0x4010000000000000#64) := by decide +kernel

/-- R120's example. -/
theorem test_zrd : lastAnswer (send
    (State.reset.setZ 1 (cx 0x4008000000000000#64 0x4010000000000000#64)) 0x00000411#32 0#64 0#128) =
    okDout 0x40100000000000004008000000000000#128 := by decide +kernel

/-- R121's example, and V-A15's error. -/
theorem test_zld : (send (withX [cx 0x3FF0000000000000#64 0#64, cx 0x4000000000000000#64 0#64])
    0x00000012#32 1#64 0#128).map (fun s => s.zReg 0) = some (cx 0x4000000000000000#64 0#64) := by
  decide +kernel

theorem test_zld_index : lastAnswer (send (withX [czero, czero]) 0x00000012#32 2#64 0#128) =
    errDout 9#128 := by decide +kernel

/-- R122's example. -/
theorem test_zst : (send
    { withX [czero, czero] with
      z := (State.reset.setZ 3 (cx 0x401C000000000000#64 0xBFF0000000000000#64)).z }
    0x00000C13#32 0#64 0#128).map (fun s => (s.xElem 0, s.xElem 1, s.xLen)) =
    some (cx 0x401C000000000000#64 0xBFF0000000000000#64, czero, 2#64) := by decide +kernel

/-- V-A1. -/
theorem test_cadd : (send (withZ (cx 0x3FF0000000000000#64 0x4000000000000000#64)
      (cx 0x4008000000000000#64 0x4010000000000000#64)) 0x00001214#32 0#64 0#128).map
    (fun s => s.zReg 2) = some (cx 0x4010000000000000#64 0x4018000000000000#64) := by
  decide +kernel

/-- V-A3 (rounding) and V-A9 (signs of zeros). -/
theorem test_cadd_rounds :
    cadd num (cx 0x3FB999999999999A#64 0x3FC999999999999A#64)
      (cx 0x3FD3333333333333#64 0x3FD999999999999A#64) =
      cx 0x3FD999999999999A#64 0x3FE3333333333334#64 ∧
    cadd num (cx 0x3FF0000000000000#64 0x8000000000000000#64) (cx 0x3FF0000000000000#64 0#64) =
      cx 0x4000000000000000#64 0#64 := by decide +kernel

/-- V-A2. -/
theorem test_cmul : (send (withZ (cx 0x3FF0000000000000#64 0x4000000000000000#64)
      (cx 0x4008000000000000#64 0x4010000000000000#64)) 0x00001215#32 0#64 0#128).map
    (fun s => s.zReg 2) = some (cx 0xC014000000000000#64 0x4024000000000000#64) := by
  decide +kernel

/-- V-A4, V-A5, V-A6, V-A7 (no recovery), V-A8 (overflow). -/
theorem test_cmul_corners :
    cmul num (cx 0x3FB999999999999A#64 0x3FC999999999999A#64)
      (cx 0x3FD3333333333333#64 0x3FD999999999999A#64) =
      cx 0xBFA999999999999C#64 0x3FB999999999999A#64 ∧
    cmul num czero (cx 0xBFF0000000000000#64 0#64) = cx 0x8000000000000000#64 0#64 ∧
    cmul num (cx 0x8000000000000000#64 0x8000000000000000#64) czero =
      cx 0#64 0x8000000000000000#64 ∧
    (cmul num (cx 0x7FF0000000000000#64 0#64) (cx 0#64 0x3FF0000000000000#64)).im =
      0x7FF0000000000000#64 ∧
    (cmul num (cx 0x6974E718D7D7625A#64 0x6974E718D7D7625A#64)
      (cx 0x6974E718D7D7625A#64 0x6974E718D7D7625A#64)).im = 0x7FF0000000000000#64 := by
  decide +kernel

/-- V-A10. -/
theorem test_cdivr : (send (withZ (cx 0x4010000000000000#64 0xC020000000000000#64) czero)
    0x00000116#32 4#64 0#128).map (fun s => s.zReg 1) =
    some (cx 0x3FF0000000000000#64 0xC000000000000000#64) := by decide +kernel

/-- V-A11, V-A14 (the divisor is rounded), V-A15 (a zero divisor, the same register). -/
theorem test_cdivr_corners :
    cdivr num (cx 0x3FF0000000000000#64 0x3FF0000000000000#64) (num.ofNat 3) =
      cx 0x3FD5555555555555#64 0x3FD5555555555555#64 ∧
    cdivr num (cx 0x3FF0000000000000#64 0x4000000000000000#64) (num.ofNat (2 ^ 64 - 1)) =
      cx 0x3BF0000000000000#64 0x3C00000000000000#64 ∧
    cdivr num (cx 0x3FF0000000000000#64 0xC000000000000000#64) (num.ofNat 0) =
      cx 0x7FF0000000000000#64 0xFFF0000000000000#64 := by decide +kernel

/-- R126's example, V-W3. -/
theorem test_twid : (send State.reset 0x00000017#32 0x0000000400000001#64 0#128).map
    (fun s => s.zReg 0) = some (cx 0x3C91A62633145C07#64 0x3FF0000000000000#64) := by
  decide +kernel

/-- V-W1, V-W2, V-W4 to V-W11, V-W14. -/
theorem test_twiddles :
    twiddle num 0 7 = cx 0x3FF0000000000000#64 0#64 ∧
    twiddle num 4 8 = cx 0xBFF0000000000000#64 0x3CA1A62633145C07#64 ∧
    twiddle num 3 4 = cx 0xBCAA79394C9E8A0A#64 0xBFF0000000000000#64 ∧
    twiddle num 1 8 = cx 0x3FE6A09E667F3BCD#64 0x3FE6A09E667F3BCC#64 ∧
    twiddle num 3 8 = cx 0xBFE6A09E667F3BCC#64 0x3FE6A09E667F3BCD#64 ∧
    twiddle num 5 8 = cx 0xBFE6A09E667F3BCE#64 0xBFE6A09E667F3BCC#64 ∧
    twiddle num 7 8 = cx 0x3FE6A09E667F3BCB#64 0xBFE6A09E667F3BCE#64 ∧
    twiddle num 1 3 = cx 0xBFDFFFFFFFFFFFFC#64 0x3FEBB67AE8584CAB#64 ∧
    twiddle num 5 4 = cx 0x3CB60FAFBFD97309#64 0x3FF0000000000000#64 ∧
    twiddle num 1 1 = cx 0x3FF0000000000000#64 0xBCB1A62633145C07#64 ∧
    twiddle num 1 (2 ^ 32 - 1) = cx 0x3FF0000000000000#64 0x3E1921FB545D4F13#64 := by
  decide +kernel

/-- V-W12, V-W13: the angle of a zero size is a NaN or an infinity. -/
theorem test_twiddle_zero_size :
    f64IsNaN (num.fdiv (num.fmul num.twoPi (num.ofNat 0)) (num.ofNat 0)) = true ∧
    twiddleAngle num 1 0 = 0x7FF0000000000000#64 := by
  constructor
  · have h1 : num.fmul num.twoPi (num.ofNat 0) = 0#64 := by decide +kernel
    have h2 : num.ofNat 0 = 0#64 := by decide +kernel
    have h3 : num.fdiv 0#64 0#64 = producedNaN .div 0#64 0#64 := by
      have e1 : f64IsNaN 0#64 = false := by decide
      have e2 : f64IsInf 0#64 = false := by decide
      have e3 : f64IsZero 0#64 = true := by decide
      simp [num, f64Div, e1, e2, e3]
    rw [h1, h2, h3]
    have hp := (Config.nanPayload .div 0#64 0#64).isLt
    simp only [producedNaN, f64Pack, f64IsNaN, f64Exp, f64Frac, f64InfLow, BitVec.toNat_ofNat,
      Bool.and_eq_true, beq_iff_eq, bne_iff_ne]
    split <;> split <;> omega
  · decide +kernel

/-! ### Sequences and the transform -/

/-- V-P1, S4. -/
theorem test_padLength :
    [0, 1, 2, 3, 4, 5, 6, 7, 8, 9, 15, 16, 17].map padLength =
      [0, 1, 2, 4, 4, 8, 8, 8, 8, 16, 16, 16, 32] := by decide +kernel

/-- R141's example with a length that any capacity holds. -/
theorem test_xsetlen : nextOf (exec (.xsetlen 1#64) State.reset) =
    some { State.reset with xLen := 1#64, responses := [⟨.ok, 0#128, none⟩] } := by
  have h : ¬ Config.NMAX < (1#64).toNat := by have := NMAX_pos; simp; omega
  simp only [exec, execXsetlen, if_neg h, State.command_wrote _ (rfl : State.reset.halt = false)]
  rfl

/-- Shrinking loses what growing exposes again (R141). -/
theorem test_xsetlen_loses :
    (((withX [cx 1#64 2#64, cx 3#64 4#64]).setXLen 1#64).setXLen 2#64).xSeq =
      [cx 1#64 2#64, czero] := by decide +kernel

/-- R142's example. -/
theorem test_xwr : (send (withX [czero, czero, czero]) 0x00000021#32 2#64
    0x00000000000000004008000000000000#128).map (fun s => s.xSeq) =
    some [czero, czero, cx 0x4008000000000000#64 0#64] := by decide +kernel

/-- R144's example. -/
theorem test_xrd : lastAnswer (send (withX [czero, czero, cx 0x4008000000000000#64 0#64])
    0x00000022#32 2#64 0#128) = okDout 0x00000000000000004008000000000000#128 := by decide +kernel

theorem test_xrd_index : lastAnswer (send State.reset 0x00000022#32 0#64 0#128) =
    errDout 9#128 := by decide +kernel

/-- V-P2. -/
theorem test_pad : (send (withX [cx 0x3FF0000000000000#64 0#64, cx 0x4000000000000000#64 0#64,
      cx 0x4008000000000000#64 0#64]) 0x00000023#32 0#64 0#128).map (fun s => (s.xLen, s.xSeq)) =
    some (4#64, [cx 0x3FF0000000000000#64 0#64, cx 0x4000000000000000#64 0#64,
      cx 0x4008000000000000#64 0#64, czero]) := by decide +kernel

/-- V-T5, the forward transform of a length that is padded. -/
theorem test_fft : (send (withX [cx 0x3FF0000000000000#64 0#64, cx 0x4000000000000000#64 0#64,
      cx 0x4008000000000000#64 0#64]) 0x00000024#32 0#64 0#128).map (fun s => (s.xLen, s.xSeq)) =
    some (4#64, [cx 0x4018000000000000#64 0#64, cx 0xBFFFFFFFFFFFFFFF#64 0x4000000000000001#64,
      cx 0x4000000000000000#64 0x3CB1A62633145C07#64,
      cx 0xC000000000000001#64 0xBFFFFFFFFFFFFFFE#64]) := by decide +kernel

/-- S2, V-T2, V-T8, V-T7. -/
theorem test_transform :
    transform num [cx 0x3FF0000000000000#64 0#64, czero, czero, czero] =
      List.replicate 4 (cx 0x3FF0000000000000#64 0#64) ∧
    transform num [cx 0x401C000000000000#64 0xC008000000000000#64] =
      [cx 0x401C000000000000#64 0xC008000000000000#64] ∧
    transform num [cx 0#64 0x3FF0000000000000#64, cx 0x3FF0000000000000#64 0#64] =
      [cx 0x3FF0000000000000#64 0x3FF0000000000000#64,
       cx 0xBFF0000000000000#64 0x3FF0000000000001#64] ∧
    transform num [czero, cx 0x3FF0000000000000#64 0#64, czero, czero] =
      [twiddle num 0 4, twiddle num 1 4, twiddle num 2 4, twiddle num 3 4] := by decide +kernel

/-- V-T6, length 5 padded to 8: indices 1, 3 and 7. -/
theorem test_transform_eight :
    (transform num [cx 0x3FF0000000000000#64 0#64, cx 0x4000000000000000#64 0#64,
      cx 0x4008000000000000#64 0#64, cx 0x4010000000000000#64 0#64,
      cx 0x4014000000000000#64 0#64])[1]? =
      some (cx 0xC015A827999FCEF2#64 0x401CF876CCDF6CDA#64) ∧
    (transform num [cx 0x3FF0000000000000#64 0#64, cx 0x4000000000000000#64 0#64,
      cx 0x4008000000000000#64 0#64, cx 0x4010000000000000#64 0#64,
      cx 0x4014000000000000#64 0#64])[7]? =
      some (cx 0xC015A827999FCEF6#64 0xC01CF876CCDF6CD8#64) := by decide +kernel

/-- V-T3. -/
theorem test_ifft : (send (withX (List.replicate 4 (cx 0x3FF0000000000000#64 0#64)))
      0x00000025#32 0#64 0#128).map (fun s => s.xSeq) =
    some [cx 0x3FF0000000000000#64 0#64, cx 0x3C81A62633145C07#64 0x3C81A62633145C06#64,
      cx 0#64 0x3C91A62633145C07#64, cx 0xBC81A62633145C07#64 0x3C81A62633145C07#64] := by
  decide +kernel

/-- V-T10: `k = XLEN`, `k = 0` and `k > XLEN`. -/
theorem test_ztail :
    (send (withX [cx 1#64 1#64, cx 2#64 2#64]) 0x00000026#32 2#64 0#128).map (fun s => s.xSeq) =
      some [cx 1#64 1#64, cx 2#64 2#64] ∧
    (send (withX [cx 1#64 1#64, cx 2#64 2#64]) 0x00000026#32 0#64 0#128).map
      (fun s => (s.xLen, s.xSeq)) = some (2#64, [czero, czero]) := by decide +kernel

theorem test_ztail_index :
    (send (withX [cx 1#64 1#64]) 0x00000026#32 2#64 0#128).map
      (fun s => (s.halt, s.err, s.xSeq)) = some (true, 9#8, [cx 1#64 1#64]) := by decide +kernel

/-! ### Container -/

/-- V-C1. -/
theorem test_parseHeader : parseHeader (fileC1.take 44) =
    ⟨0x46464952#32, 0x2C#32, 0x45564157#32, 0x20746D66#32, 0x10#32, 1#16, 1#16, 8000#32, 8000#32,
     1#16, 8#16, 0x61746164#32, 8#32⟩ := by decide +kernel

/-- S1, V-C4. -/
theorem test_duration :
    [headerBytes 1 8000 8 8000, headerBytes 1 8000 8 7999, headerBytes 2 44100 16 645800400,
     headerBytes 1 1 8 4294967295, headerBytes 1 8000 15 16000,
     headerBytes 65535 1 65535 4294967295].map (fun b => duration (parseHeader b)) =
    [.ok ⟨0#32, 0#32, 1#32⟩, .ok ⟨0#32, 0#32, 0#32⟩, .ok ⟨1#32, 1#32, 1#32⟩,
     .ok ⟨1193046#32, 28#32, 15#32⟩, .ok ⟨0#32, 0#32, 2#32⟩, .ok ⟨0#32, 0#32, 8#32⟩] := by
  decide +kernel

/-- V-C4's last rows. -/
theorem test_duration_divZero :
    [headerBytes 1 8000 4 8000, headerBytes 1 8000 7 1, headerBytes 0 8000 8 8000,
     headerBytes 1 0 8 8000].map (fun b => duration (parseHeader b)) =
    List.replicate 4 (.error .divZero) := by decide +kernel

/-- V-C4's first row as a `LOAD`: a source of exactly the header. -/
theorem test_load : ((nextOf (exec .load { State.reset with
      inputs := ⟨0#128, .present (headerBytes 1 8000 8 8000), false⟩ })).map
    fun s => (s.bufLen, s.status, s.derived.map Derived.dur)) =
    some (44#64, 2#64, some ⟨0#32, 0#32, 1#32⟩) := by
  have h : ¬ Config.BUFMAX < (headerBytes 1 8000 8 8000).length := by
    have := BUFMAX_ge
    have hl : (headerBytes 1 8000 8 8000).length = 44 := rfl
    omega
  simp only [exec, execLoad, deriveFile, if_neg h]
  decide +kernel

/-- V-C8: a `LOAD` that fails keeps the file. -/
theorem test_load_notFound : (send loadedC1 0x00000030#32 0#64 0#128).map
    (fun s => (s.err, s.bufLen, s.derived == loadedC1.derived)) = some (1#8, 52#64, true) := by
  decide +kernel

/-- V-C2. -/
theorem test_save : lastAnswer (nextOf (exec .save { loadedC1 with
    inputs := ⟨0#128, .absent, true⟩ })) = some ⟨.ok, 0#128, some fileC1⟩ := by decide +kernel

theorem test_save_unwritable : lastAnswer (send loadedC1 0x00000031#32 0#64 0#128) =
    errDout 2#128 := by decide +kernel

/-- V-C3. -/
theorem test_extract : (send loadedC1 0x00000032#32 0#64 0#128).map
    (fun s => (s.payLen, s.payBytes, s.bufBytes == fileC1)) =
    some (8#64, [0x0A#8, 0x14#8, 0x1E#8, 0x28#8, 0x32#8, 0x3C#8, 0x46#8, 0x50#8], true) := by
  decide +kernel

theorem test_extract_short : lastAnswer (send State.reset 0x00000032#32 0#64 0#128) =
    errDout 5#128 := by decide +kernel

/-- V-C5: the header stays, the payload is replaced. -/
theorem test_update : (send (loadedC1.setPaySeq
      [0xFF#8, 0x14#8, 0x1E#8, 0x28#8, 0x32#8, 0x3C#8, 0x46#8, 0x50#8]) 0x00000033#32 0#64 0#128).map
    (fun s => (s.bufByte 44, s.bufByte 45, s.bufBytes.take 44 == fileC1.take 44, s.bufLen)) =
    some (0xFF#8, 0x14#8, true, 52#64) := by decide +kernel

/-- V-C6. -/
theorem test_update_errors :
    lastAnswer (send (loadedC1.setPaySeq (List.replicate 7 0#8)) 0x00000033#32 0#64 0#128) =
      errDout 3#128 ∧
    lastAnswer (send State.reset 0x00000033#32 0#64 0#128) = errDout 5#128 := by decide +kernel

/-- R185's example. -/
theorem test_psetlen : (nextOf (exec (.psetlen 4#64) State.reset)).map
    (fun s => (s.payLen, s.payBytes)) = some (4#64, [0#8, 0#8, 0#8, 0#8]) := by
  have h : ¬ Config.BUFMAX < (4#64).toNat := by have := BUFMAX_ge; simp; omega
  simp only [exec, execPsetlen, if_neg h, State.command_wrote _ (rfl : State.reset.halt = false)]
  rfl

/-- V-C9: cut-off bytes do not come back. -/
theorem test_psetlen_loses :
    (((withPay [0#8, 0x7F#8, 0#8, 0x55#8]).setPayLen 2#64).setPayLen 4#64).payBytes =
      [0#8, 0x7F#8, 0#8, 0#8] := by decide +kernel

/-- V-C9. -/
theorem test_pwr : (send (withPay [0#8, 0#8, 0#8, 0#8]) 0x00000035#32 1#64 0x17F#128).map
    (fun s => s.payBytes) = some [0#8, 0x7F#8, 0#8, 0#8] := by decide +kernel

theorem test_prd : lastAnswer (send (withPay [0#8, 0x7F#8]) 0x00000036#32 1#64 0#128) =
    okDout 0x7F#128 := by decide +kernel

theorem test_prd_index : lastAnswer (send (withPay [0#8, 0x7F#8]) 0x00000036#32 2#64 0#128) =
    errDout 9#128 := by decide +kernel

/-! ### Lifting and quantizing -/

/-- V-Q1. -/
theorem test_liftBytes :
    liftBytes num false [0x0A#8, 0xFF#8, 0x80#8] = [cx 0x4024000000000000#64 0#64,
      cx 0x406FE00000000000#64 0#64, cx 0x4060000000000000#64 0#64] ∧
    liftBytes num true [0x0A#8, 0xFF#8, 0x80#8] = [cx 0x4024000000000000#64 0#64,
      cx 0xBFF0000000000000#64 0#64, cx 0xC060000000000000#64 0#64] := by decide +kernel

/-- `LIFT` of a payload that any capacity holds. -/
theorem test_lift : (nextOf (exec .lift (withPay [0x0A#8]))).map (fun s => s.xLen) =
    some 1#64 := by
  have h : ¬ Config.NMAX < (withPay [0x0A#8]).payLen.toNat := by
    have := NMAX_pos; simp [withPay, State.setPaySeq]; omega
  simp only [exec, execLift, if_neg h, State.command_wrote _ (rfl : (withPay [0x0A#8]).halt = false)]
  simp [nextOf, liftBytes, withPay]

/-- R206's table, unsigned. -/
theorem test_quantize_unsigned :
    [0#64, 0x8000000000000000#64, 0xBFE0000000000000#64, 0xBFE0000000000001#64,
     0x3FDFFFFFFFFFFFFF#64, 0x3FE0000000000000#64, 0x4004000000000000#64, 0x406FD00000000000#64,
     0x406FEFFFFFFFFFFF#64, 0x406FF00000000000#64, 0x405FE00000000000#64, 0xC060100000000000#64,
     0xBFF8000000000000#64, 0x7FF0000000000000#64, 0xFFF0000000000000#64].map
      (fun re => quantize num false (cx re 0#64)) =
    [.ok 0#8, .ok 0#8, .ok 0#8, .error .qRange, .ok 1#8, .ok 1#8, .ok 3#8, .ok 255#8, .ok 255#8,
     .error .qRange, .ok 128#8, .error .qRange, .error .qRange, .error .qRange,
     .error .qRange] := by decide +kernel

/-- R206's table, signed. -/
theorem test_quantize_signed :
    [0xBFE0000000000001#64, 0x406FD00000000000#64, 0x405FE00000000000#64, 0xC060100000000000#64,
     0xBFF8000000000000#64].map (fun re => quantize num true (cx re 0#64)) =
    [.ok 255#8, .error .qRange, .error .qRange, .ok 128#8, .ok 255#8] := by decide +kernel

/-- V-Q3: only the first elements are read, and only real parts. -/
theorem test_quant : (nextOf (exec (.quant 1#64)
      (withX [cx 0x401C000000000000#64 0x7FF8000000000000#64,
        cx 0x4072C00000000000#64 0#64]))).map (fun s => (s.payLen, s.payBytes)) =
    some (1#64, [7#8]) := by
  have h : ¬ Config.BUFMAX < (1#64).toNat := by have := BUFMAX_ge; simp; omega
  have hq : quantizeAll num Config.sampleSigned (Memory.toList czero
      (withX [cx 0x401C000000000000#64 0x7FF8000000000000#64,
        cx 0x4072C00000000000#64 0#64]).x (1#64).toNat) = .ok [7#8] := by
    cases Config.sampleSigned <;> decide +kernel
  simp only [exec, execQuant, if_neg h, hq]
  decide +kernel

/-- V-Q4's first row. -/
theorem test_quant_index : lastAnswer (send (withX [czero]) 0x00000041#32 2#64 0#128) =
    errDout 9#128 := by decide +kernel

/-! ### System, errors, the halted state -/

/-- V-S1, V-C1: registers of the map. -/
theorem test_rdcsr :
    lastAnswer (send State.reset 0x00000002#32 0#64 0#128) = okDout 0#128 ∧
    lastAnswer (send loadedC1 0x00000002#32 0x10#64 0#128) = okDout 0x46464952#128 ∧
    lastAnswer (send loadedC1 0x00000002#32 0x17#64 0#128) = okDout 0x1F40#128 ∧
    lastAnswer (send loadedC1 0x00000002#32 0x1C#64 0#128) = okDout 8#128 ∧
    lastAnswer (send loadedC1 0x00000002#32 4#64 0#128) = okDout 52#128 := by decide +kernel

/-- V-S2. -/
theorem test_rdcsr_errors :
    lastAnswer (send State.reset 0x00000002#32 0x17#64 0#128) = errDout 10#128 ∧
    lastAnswer (send State.reset 0x00000002#32 0x05#64 0#128) = errDout 8#128 ∧
    lastAnswer (send State.reset 0x00000002#32 0xFFFFFFFFFFFFFFFF#64 0#128) = errDout 8#128 := by
  decide +kernel

/-- V-S3, P4: a halted engine answers `STATUS` and refuses the rest. -/
theorem test_halted :
    lastAnswer (send (loadedC1.raise .invalidArg) 0x00000002#32 0#64 0#128) = okDout 3#128 ∧
    lastAnswer (send (loadedC1.raise .invalidArg) 0x00000002#32 1#64 0#128) = okDout 3#128 ∧
    lastAnswer (send (loadedC1.raise .invalidArg) 0x00000002#32 5#64 0#128) = refusedDout ∧
    lastAnswer (send (loadedC1.raise .invalidArg) 0x00000024#32 0#64 0#128) = refusedDout ∧
    lastAnswer (send (loadedC1.raise .invalidArg) 0x00000000#32 0#64 0#128) = refusedDout ∧
    lastAnswer (send (loadedC1.raise .invalidArg) 0x00000001#32 1#64 0#128) = refusedDout := by
  decide +kernel

/-- R215: `RST` leaves the halted state and the reset values. -/
theorem test_rst : (send (loadedC1.raise .invalidArg) 0x00000001#32 0#64 0#128).map
    (fun s => decide ({ s with responses := [], inputs := noInputs } = State.reset)) =
    some true := by decide +kernel

/-- V-E6: an unassigned opcode raises `E_ILLEGAL`. -/
theorem test_illegal : (send State.reset 0x00000000#32 0#64 0#128).map
    (fun s => (s.halt, s.err, s.responses)) = some (true, 8#8, [⟨.error, 8#128, none⟩]) := by
  decide +kernel

/-- The memory of the reset state has the canonical form. -/
theorem test_reset_canonical : Memory.wf czero State.reset.x ∧ Memory.wf 0#8 State.reset.buf ∧
    Memory.wf 0#8 State.reset.pay := by decide

/-! ### Witnesses: states and operands that meet the hypotheses of the statements

A witness is named after its statement. Where a statement has several cases, its witness meets each,
at values where the cases meet. Statements whose only hypothesis is an engine that is not halted
share `witness_notHalted`. -/

/-- One element, one byte of payload. -/
def small : State := { withX [cx 1#64 2#64] with pay := [(0, 3#8)], payLen := 1#64 }

/-- The state after reset whose host sends one request. -/
def asks (s : State) (cmd : BitVec 32) (arg : BitVec 64) : State :=
  { s with host := [.request (req cmd arg 0#128)] }

/-- The state after reset as an error leaves it. -/
def halted : State := State.reset.raise .index

/-- For `ZwrStoresTheDataInput`, `ZrdAnswersTheRegister`, `CaddWritesTheSum`,
`CmulWritesTheProduct`, `CdivrWritesTheQuotient`, `TwidWritesTheTwiddle`. -/
theorem witness_notHalted : State.reset.halt = false := rfl

theorem witness_EachWellFormedRequestSelectsOneCommand :
    decode 0x00003F14#32 0#64 = .ok (.cadd 3 3 3) := by decide

theorem witness_StepRunsTheDecodedCommand :
    (asks State.reset 0x24#32 0#64).host = .request (req 0x24#32 0#64 0#128) :: [] ∧
    decode 0x24#32 0#64 = .ok .fft := by decide

theorem witness_StepAnswersAnIllegalRequest :
    (asks State.reset 0x24#32 1#64).host = .request (req 0x24#32 1#64 0#128) :: [] ∧
    (asks halted 0x24#32 1#64).host = .request (req 0x24#32 1#64 0#128) :: [] ∧
    wellFormedRequest 0x24#32 1#64 = false ∧ (asks State.reset 0x24#32 1#64).halt = false ∧
    (asks halted 0x24#32 1#64).halt = true := by decide

theorem witness_ResetLeavesTheResetValues :
    ({ halted with host := [.hardwareReset] } : State).host = .hardwareReset :: [] := rfl

theorem witness_EveryStepHasANextState : State.reset.host = [] ∧
    ({ State.reset with host := [.hardwareReset] } : State).host = .hardwareReset :: [] :=
  ⟨rfl, rfl⟩

/-- An `OK`, an error, a refusal, a `SINK` and an `RST` occur. -/
theorem witness_EveryRequestGetsOneResponse :
    lastAnswer (nextOf (step (asks State.reset 0x24#32 0#64))) = okDout 0#128 ∧
    lastAnswer (nextOf (step (asks State.reset 0x22#32 0#64))) = errDout 9#128 ∧
    lastAnswer (nextOf (step (asks halted 0x22#32 0#64))) = refusedDout ∧
    lastAnswer (nextOf (step (asks halted 0x01#32 0#64))) = okDout 0#128 ∧
    lastAnswer (nextOf (step { State.reset with
      host := [.request ⟨0x31#32, 0#64, ⟨0#128, .absent, true⟩⟩] })) =
      some ⟨.ok, 0#128, some []⟩ := by decide +kernel

/-- A command that raises, and one that does not (for `CommandsRaiseOnlyTheirErrors` too). -/
theorem witness_ErrorsArePrecise :
    State.reset.halt = false ∧
    (nextOf (exec (.xrd 0#64) State.reset)).map State.halt = some true ∧
    (nextOf (exec (.zrd 0) State.reset)).map State.halt = some false := by decide +kernel

theorem witness_HaltedEngineRefusesTheRest :
    halted.halt = true ∧ halted.readCsr (1#64).toNat = .ok 9#64 ∧
    halted.readCsr (5#64).toNat = .error .illegal ∧
    halted.readCsr (0x10#64).toNat = .error .noHdr ∧
    (asks halted 0x24#32 1#64).halt = true ∧ wellFormedRequest 0x24#32 1#64 = false := by decide

theorem witness_OnlyResetLeavesTheHaltedState :
    (asks halted 0x01#32 0#64).halt = true ∧ (asks halted 0x01#32 0#64).resetComes ∧
    (asks halted 0x24#32 0#64).halt = true ∧ ¬ (asks halted 0x24#32 0#64).resetComes ∧
    (nextOf (step (asks halted 0x24#32 0#64))).isSome := by
  refine ⟨rfl, ⟨[], .inr ⟨_, rfl, by decide⟩⟩, rfl, ?_, by decide +kernel⟩
  rintro ⟨rest, h | ⟨r, h, hd⟩⟩
  · cases h
  · cases h; revert hd; decide

theorem witness_NotHaltedExactlyWhileEveryResponseIsOk :
    (State.reset.halt = false ↔ State.reset.CompletedWithoutError) ∧
    (halted.halt = false ↔ halted.CompletedWithoutError) ∧ ¬ State.reset.resetComes ∧
    step State.reset = .next State.reset := by
  refine ⟨⟨fun _ _ h => (List.not_mem_nil h).elim, fun _ => rfl⟩, ⟨fun h => (by cases h), fun h => ?_⟩,
    ?_, rfl⟩
  · have := h ⟨.error, 9#128, none⟩ (by decide)
    cases this
  · rintro ⟨rest, h | ⟨r, h, _⟩⟩ <;> cases h

/-- A state with the invariant that is not the reset state, with a step. -/
theorem witness_EveryStepKeepsTheInvariant :
    small.Inv ∧ nextOf (step small) = some small := by
  have h1 := NMAX_pos
  have h2 := BUFMAX_ge
  refine ⟨⟨by decide, by decide, by decide, by decide, by decide, by decide, ?_, ?_, ?_,
    .inl (by decide), fun d h => (by cases h), by decide, by decide⟩, rfl⟩
  · simp only [show small.xLen.toNat = 1 from rfl]; omega
  · simp only [show small.bufLen.toNat = 0 from rfl]; omega
  · simp only [show small.payLen.toNat = 1 from rfl]; omega

theorem witness_OnlyTheListedCommandsWriteEachMemory :
    (nextOf (exec (.zwr 1) { small with inputs := ⟨1#128, .absent, false⟩ })).map
      (fun t => decide (t.z = small.z)) = some false ∧
    (nextOf (exec (.ztail 0#64) small)).map (fun t => decide (t.x = small.x)) = some false ∧
    (nextOf (exec .extract loadedC1)).map (fun t => decide (t.pay = loadedC1.pay)) = some false ∧
    (nextOf (exec .rst loadedC1)).map (fun t => decide (t.derived = loadedC1.derived ∨
      t.hdrv = loadedC1.hdrv ∨ t.buf = loadedC1.buf ∨ t.bufLen = loadedC1.bufLen)) =
      some false ∧
    (nextOf (exec (.xsetlen 0#64) small)).map (fun t => decide (t.xLen = small.xLen)) =
      some false ∧
    (nextOf (exec (.psetlen 0#64) small)).map (fun t => decide (t.payLen = small.payLen)) =
      some false ∧
    (nextOf (exec (.xrd 0xFFFFFFFFFFFFFFFF#64) small)).map (fun t =>
      decide (t.halt = small.halt ∨ t.err = small.err)) = some false := by decide +kernel

theorem witness_ReadsChangeNothingAndRepeat :
    (nextOf (exec (.prd 0#64) small)).map State.responses =
      some (small.responses ++ [⟨.ok, 3#128, none⟩]) ∧
    (nextOf (exec (.rdcsr 1#64) halted)).map State.responses =
      some (halted.responses ++ [⟨.ok, 9#128, none⟩]) := by decide +kernel

theorem witness_ContainerCommandsIgnoreTheTransformSide :
    (nextOf (exec .extract loadedC1)).map State.payLen = some 8#64 := by decide +kernel

/-- Each clause, at the ends of its range of numbers. -/
theorem witness_RdcsrReadsTheRegisterMap :
    loadedC1.halt = false ∧
    (0x04#64, loadedC1.bufLen) ∈ [(0x03#64, loadedC1.payLen), (0x04#64, loadedC1.bufLen)] ∧
    (∃ d, loadedC1.derived = some d ∧ (0x1C#64, d.hdr.subchunk2Size.toNat) ∈
      [(0x1B#64, d.hdr.subchunk2Id.toNat), (0x1C#64, d.hdr.subchunk2Size.toNat)]) ∧
    State.reset.derived = none ∧ (0x10 ≤ (0x10#64).toNat ∧ (0x10#64).toNat ≤ 0x1C) ∧
    (0x10 ≤ (0x1C#64).toNat ∧ (0x1C#64).toNat ≤ 0x1C) :=
  ⟨rfl, .tail _ (.head _), ⟨_, rfl, .tail _ (.head _)⟩, rfl, by decide, by decide⟩

/-- Its numbers outside the map, next to the numbers in it. -/
theorem witness_RdcsrReadsTheRegisterMap_reserved :
    [0x05#64, 0x0F#64, 0x1D#64, 0x1F#64, 0x23#64].all (fun n =>
      !(decide (n.toNat ≤ 4) || decide (0x10 ≤ n.toNat) && decide (n.toNat ≤ 0x1C) ||
        decide (0x20 ≤ n.toNat) && decide (n.toNat ≤ 0x22))) = true := by decide

/-- Index 0 is below a length of 1, index 1 is not (`ZST`, `XWR`, `XRD`, `PWR`, `PRD` too). -/
theorem witness_ZldLoadsTheElement :
    small.halt = false ∧ (0#64).toNat < small.xLen.toNat ∧ small.xLen.toNat ≤ (1#64).toNat := by
  decide

theorem witness_ZstStoresTheElement :
    small.halt = false ∧ Memory.wf czero small.x ∧ (0#64).toNat < small.xLen.toNat ∧
    small.xLen.toNat ≤ (1#64).toNat := by decide

theorem witness_XwrStoresTheDataInput :
    small.halt = false ∧ Memory.wf czero small.x ∧ (0#64).toNat < small.xLen.toNat ∧
    small.xLen.toNat ≤ (1#64).toNat := by decide

theorem witness_XrdAnswersTheElement :
    small.halt = false ∧ (0#64).toNat < small.xLen.toNat ∧ small.xLen.toNat ≤ (1#64).toNat := by
  decide

theorem witness_PwrStoresTheLowByte :
    small.halt = false ∧ Memory.wf 0#8 small.pay ∧ (0#64).toNat < small.payLen.toNat ∧
    small.payLen.toNat ≤ (1#64).toNat := by decide

theorem witness_PrdAnswersTheByte :
    small.halt = false ∧ (0#64).toNat < small.payLen.toNat ∧ small.payLen.toNat ≤ (1#64).toNat := by
  decide

/-- `k = XLEN` and `k = XLEN + 1`. -/
theorem witness_ZtailZeroesTheTail :
    small.halt = false ∧ Memory.within small.x small.xLen.toNat ∧
    (1#64).toNat ≤ small.xLen.toNat ∧ small.xLen.toNat < (2#64).toNat := by decide

/-! Capacities: a length equal to the capacity, and the next one. -/

theorem toNat_NMAX : (BitVec.ofNat 64 Config.NMAX).toNat = Config.NMAX := by
  have := NMAX_le; simp; omega

theorem toNat_NMAX_succ : (BitVec.ofNat 64 (Config.NMAX + 1)).toNat = Config.NMAX + 1 := by
  have := NMAX_le; simp; omega

theorem toNat_BUFMAX : (BitVec.ofNat 64 Config.BUFMAX).toNat = Config.BUFMAX := by
  have := BUFMAX_le; simp; omega

theorem toNat_BUFMAX_succ : (BitVec.ofNat 64 (Config.BUFMAX + 1)).toNat = Config.BUFMAX + 1 := by
  have := BUFMAX_le; simp; omega

theorem witness_XsetlenKeepsAndZeroes :
    small.halt = false ∧ (BitVec.ofNat 64 Config.NMAX).toNat ≤ Config.NMAX ∧
    (0 < (BitVec.ofNat 64 Config.NMAX).toNat ∧ 0 < small.xLen.toNat) ∧
    State.reset.xLen.toNat ≤ 0 ∧
    Config.NMAX < (BitVec.ofNat 64 (Config.NMAX + 1)).toNat :=
  ⟨rfl, by rw [toNat_NMAX], ⟨by rw [toNat_NMAX]; exact NMAX_pos, by decide⟩, by decide,
    by rw [toNat_NMAX_succ]; omega⟩

theorem witness_PsetlenKeepsAndZeroes :
    small.halt = false ∧ (BitVec.ofNat 64 Config.BUFMAX).toNat ≤ Config.BUFMAX ∧
    (1 < (BitVec.ofNat 64 Config.BUFMAX).toNat ∧ 0 < small.payLen.toNat) ∧
    small.payLen.toNat ≤ 1 ∧
    Config.BUFMAX < (BitVec.ofNat 64 (Config.BUFMAX + 1)).toNat :=
  ⟨rfl, by rw [toNat_BUFMAX],
    ⟨by rw [toNat_BUFMAX]; have := BUFMAX_ge; omega, by decide⟩, by decide,
    by rw [toNat_BUFMAX_succ]; omega⟩

theorem witness_LiftMakesRealSamples :
    ({ State.reset with payLen := BitVec.ofNat 64 Config.NMAX } : State).payLen.toNat ≤
      Config.NMAX ∧
    Config.NMAX <
      ({ State.reset with payLen := BitVec.ofNat 64 (Config.NMAX + 1) } : State).payLen.toNat :=
  ⟨by show (BitVec.ofNat 64 Config.NMAX).toNat ≤ _; rw [toNat_NMAX],
   by show _ < (BitVec.ofNat 64 (Config.NMAX + 1)).toNat; rw [toNat_NMAX_succ]; omega⟩

/-- For `FftCommandTransformsTheSequence` and `IfftCommandInvertsTheSequence` too: a full `X`, and
one below two elements. -/
theorem witness_PadCommandPadsTheSequence :
    ({ State.reset with xLen := BitVec.ofNat 64 Config.NMAX } : State).halt = false ∧
    ({ State.reset with xLen := BitVec.ofNat 64 Config.NMAX } : State).xLen.toNat ≤ Config.NMAX ∧
    small.xLen.toNat ≤ Config.NMAX ∧ small.xLen.toNat < 2 :=
  ⟨rfl, by show (BitVec.ofNat 64 Config.NMAX).toNat ≤ _; rw [toNat_NMAX],
   by simp only [show small.xLen.toNat = 1 from rfl]; exact NMAX_pos, by decide⟩

/-- `count` beyond `XLEN`; beyond the capacity; within both with a value that fits and with one that
does not (an infinity). -/
theorem witness_QuantWritesTheSampleBytes :
    (withX [czero]).xLen.toNat < (2#64).toNat ∧
    ((BitVec.ofNat 64 (Config.BUFMAX + 1)).toNat ≤ ({ State.reset with
        xLen := BitVec.ofNat 64 (Config.BUFMAX + 1) } : State).xLen.toNat ∧
      Config.BUFMAX < (BitVec.ofNat 64 (Config.BUFMAX + 1)).toNat) ∧
    ((1#64).toNat ≤ (withX [czero]).xLen.toNat ∧ (1#64).toNat ≤ Config.BUFMAX ∧
      ∀ j, j < (1#64).toNat → quantize num Config.sampleSigned ((withX [czero]).xElem j) =
        .ok 0#8) ∧
    ((1#64).toNat ≤ (withX [cx 0x7FF0000000000000#64 0#64]).xLen.toNat ∧ 0 < (1#64).toNat ∧
      quantize num Config.sampleSigned ((withX [cx 0x7FF0000000000000#64 0#64]).xElem 0) =
        .error .qRange) := by
  have hb := BUFMAX_ge
  refine ⟨by decide, ⟨Nat.le_refl _, by rw [toNat_BUFMAX_succ]; omega⟩,
    ⟨by decide, by simp; omega, fun j hj => ?_⟩, by decide, by decide, ?_⟩
  · have hj : j = 0 := by simpa using hj
    subst hj
    cases Config.sampleSigned <;> decide +kernel
  · cases Config.sampleSigned <;> decide +kernel

/-! The container. -/

/-- An absent source; one byte above the capacity; 43 bytes; 44 bytes with a zero divisor; 44 bytes
with a duration. -/
theorem witness_LoadReplacesTheFileOrRaises :
    State.reset.halt = false ∧ State.reset.inputs.source = .absent ∧
    Config.BUFMAX < (List.replicate (Config.BUFMAX + 1) 0#8).length ∧
    (List.replicate 43 0#8).length < 44 ∧ 44 ≤ (List.replicate 44 0#8).length ∧
    (List.replicate 44 0#8).length ≤ Config.BUFMAX ∧
    duration (parseHeader (List.replicate 44 0#8)) = .error .divZero ∧
    (headerBytes 1 8000 8 8000).length = 44 ∧
    duration (parseHeader ((headerBytes 1 8000 8 8000).take 44)) = .ok ⟨0#32, 0#32, 1#32⟩ := by
  have := BUFMAX_ge
  exact ⟨rfl, rfl, by simp, by decide, by decide, by simp; omega, by decide +kernel, by decide,
    by decide +kernel⟩

theorem witness_SaveDeliversTheBuffer :
    ({ loadedC1 with inputs := ⟨0#128, .absent, true⟩ } : State).inputs.sinkOk = true ∧
    loadedC1.inputs.sinkOk = false ∧ loadedC1.halt = false ∧ 51 < loadedC1.bufLen.toNat := by
  decide

/-- A source of 44 bytes with a duration, loaded, updated by an empty payload, and saved. -/
theorem witness_SaveReproducesTheLoadedSource :
    ∃ s t v : State, s.halt = false ∧
      s.inputs.source = .present (headerBytes 1 8000 8 8000) ∧ exec .load s = .next t ∧
      t.halt = false ∧ exec .update t = .next v ∧ v.halt = false ∧ s.inputs.sinkOk = true := by
  have h : ¬ Config.BUFMAX < (headerBytes 1 8000 8 8000).length := by
    have := BUFMAX_ge
    have hl : (headerBytes 1 8000 8 8000).length = 44 := rfl
    omega
  let s : State := { State.reset with inputs := ⟨0#128, .present (headerBytes 1 8000 8 8000), true⟩ }
  let d : Derived := ⟨parseHeader ((headerBytes 1 8000 8 8000).take 44), ⟨0#32, 0#32, 1#32⟩⟩
  have hd : deriveFile (headerBytes 1 8000 8 8000) = .ok d := by
    simp only [deriveFile, if_neg h]
    decide +kernel
  refine ⟨s, ({ s.setBuf (headerBytes 1 8000 8 8000) with derived := some d } : State).respond 0#128,
    _, rfl, rfl, ?_, rfl, rfl, ?_, rfl⟩
  · simp only [exec, execLoad, s, hd]; rfl
  · decide +kernel

/-- `BUFLEN` 44 and 0. -/
theorem witness_ExtractCopiesThePayload :
    (State.reset.setBuf (headerBytes 1 8000 8 8000)).halt = false ∧
    44 ≤ (State.reset.setBuf (headerBytes 1 8000 8 8000)).bufLen.toNat ∧
    State.reset.bufLen.toNat < 44 := by decide

/-- Equal lengths, a short buffer, unequal lengths. -/
theorem witness_UpdateOverwritesThePayloadInPlace :
    loadedC1.halt = false ∧ Memory.within loadedC1.buf loadedC1.bufLen.toNat ∧
    44 ≤ loadedC1.bufLen.toNat ∧
    (loadedC1.setPaySeq (List.replicate 8 1#8)).payLen.toNat = loadedC1.bufLen.toNat - 44 ∧
    (loadedC1.setPaySeq (List.replicate 9 1#8)).payLen.toNat ≠ loadedC1.bufLen.toNat - 44 ∧
    State.reset.bufLen.toNat < 44 ∧ Memory.within State.reset.buf State.reset.bufLen.toNat := by
  decide

theorem witness_HeaderFieldsAreLittleEndian :
    ∃ at4 at2 : Nat → Nat, 44 ≤ (headerBytes 1 8000 8 8000).length ∧
      (∀ o, at2 o = ((headerBytes 1 8000 8 8000).getD o 0#8).toNat +
        2 ^ 8 * ((headerBytes 1 8000 8 8000).getD (o + 1) 0#8).toNat) ∧
      ∀ o, at4 o = at2 o + 2 ^ 16 * at2 (o + 2) :=
  ⟨_, _, by decide, fun _ => rfl, fun _ => rfl⟩

/-- A divisor that is just zero, and one that just is not. -/
theorem witness_DurationIsTheWholeSeconds :
    (parseHeader (headerBytes 1 8000 7 1)).bitsPerSample.toNat / 8 = 0 ∧
    0 < (parseHeader (headerBytes 1 8000 8 1)).bitsPerSample.toNat / 8 ∧
    0 < (parseHeader (headerBytes 1 8000 8 1)).numChannels.toNat ∧
    0 < (parseHeader (headerBytes 1 8000 8 1)).sampleRate.toNat := by decide +kernel

/-! The arithmetic. -/

/-- The least number and the greatest, whose sum overflows; and `1 - 1`. -/
theorem witness_SumsAndDifferencesAreRounded :
    f64IsFinite 1#64 = true ∧ f64IsFinite 0x7FEFFFFFFFFFFFFF#64 = true ∧
    f64Scaled 0x3FF0000000000000#64 - f64Scaled 0x3FF0000000000000#64 = 0 ∧
    f64Scaled 0#64 + f64Scaled 0x8000000000000000#64 = 0 ∧
    f64IsInf 0x7FF0000000000000#64 = true ∧ f64IsInf 0xFFF0000000000000#64 = true ∧
    f64Sign 0x7FF0000000000000#64 ≠ f64Sign 0xFFF0000000000000#64 := by decide +kernel

theorem witness_ProductsAndQuotientsAreRounded :
    f64IsFinite 0x7FEFFFFFFFFFFFFF#64 = true ∧ f64IsFinite 0x8000000000000001#64 = true ∧
    f64Scaled 0x8000000000000001#64 ≠ 0 ∧ f64IsZero 0x8000000000000001#64 = false ∧
    f64IsInf 0xFFF0000000000000#64 = true ∧ f64IsNaN 0xFFF0000000000000#64 = false ∧
    f64IsZero 0xFFF0000000000000#64 = false ∧ f64IsZero 0x8000000000000000#64 = true ∧
    f64IsFinite 0#64 = true := by decide +kernel

/-- Each way to a NaN, and none. -/
theorem witness_NaNsAreProducedExactlyByInvalidOperations :
    f64IsNaN 0x7FF0000000000001#64 = true ∧ f64IsInf 0x7FF0000000000000#64 = true ∧
    f64IsInf 0xFFF0000000000000#64 = true ∧ f64IsZero 0x8000000000000000#64 = true ∧
    f64IsNaN (num.fadd 0#64 0#64) = false ∧ f64IsFinite 0x7FF0000000000000#64 = false := by
  decide +kernel

/-- The least magnitude, the greatest finite value, and both sides of the tiny operands' bound. -/
theorem witness_CosineAndSineAreRounded :
    [0x8000000000000001#64, 0x7FEFFFFFFFFFFFFF#64, 0x3E3FFFFFFFFFFFFF#64,
      0x3E40000000000000#64].map (fun x => (f64IsFinite x, f64IsTiny x)) =
    [(true, true), (true, false), (true, true), (true, false)] := by decide +kernel

theorem witness_SumsCommuteAndZeroAndOneAreNeutral :
    f64IsNaN (num.fadd 1#64 0x7FF0000000000000#64) = false ∧
    f64IsNaN (num.fadd 0x7FF0000000000000#64 1#64) = false ∧
    f64IsNaN (num.fmul 1#64 3#64) = false ∧ f64IsNaN (num.fmul 3#64 1#64) = false ∧
    f64IsFinite 1#64 = true ∧ 0 < f64Scaled 1#64 ∧ f64IsFinite 0x8000000000000001#64 = true ∧
    f64IsZero 0x8000000000000000#64 = true ∧ f64IsZero 0x8000000000000001#64 = false ∧
    f64IsNaN 0x7FF0000000000000#64 = false ∧ (1 : Nat) ≤ 1 := by decide +kernel

theorem witness_IntegersAreRoundedAndSmallOnesExact :
    (2 : Nat) ^ 53 ≤ 2 ^ 53 ∧ (-2 ^ 53 : Int) ≤ -2 ^ 53 ∧ (-2 ^ 53 : Int) ≤ 2 ^ 53 ∧
    (-2 ^ 52 : Int) ≤ 2 ^ 52 - 1 ∧ (2 ^ 52 - 1 : Int) < 2 ^ 52 := by decide

/-- `-2^-1022` is `-2` divided by `2^1023`. -/
theorem witness_DivisionByAPowerOfTwoIsExact :
    (1023 : Nat) ≤ 1023 ∧ f64IsFinite 0xC000000000000000#64 = true ∧
    f64IsNormal 0x8010000000000000#64 = true ∧
    f64Sign 0x8010000000000000#64 = f64Sign 0xC000000000000000#64 ∧
    f64Scaled 0x8010000000000000#64 * 2 ^ 1023 = f64Scaled 0xC000000000000000#64 := by
  decide +kernel

theorem witness_FloorIsExact :
    f64IsFinite 0x8000000000000001#64 = true ∧ f64IsFinite 0x7FF0000000000000#64 = false := by
  decide

/-- Which integers fit: `-128`, `127` signed, `0`, `255` unsigned, and their neighbours. -/
theorem witness_QuantizeInvertsLifting :
    [0xC060000000000000#64, 0x405FC00000000000#64, 0#64, 0x406FE00000000000#64,
     0xC060200000000000#64, 0x4060000000000000#64, 0xBFF0000000000000#64,
     0x4070000000000000#64].map (fun re => num.toInt (num.ffloor (num.fadd re num.half))) =
    [some (-128), some 127, some 0, some 255, some (-129), some 128, some (-1), some 256] ∧
    num.toInt (num.ffloor (num.fadd 0x7FF0000000000000#64 num.half)) = none := by decide +kernel

/-! Sequences. -/

theorem witness_PadReachesTheLeastPowerOfTwo :
    ([] : List C64) = [] ∧ [czero, czero, czero] ≠ [] := by decide

theorem witness_TransformSatisfiesItsRecursion :
    [czero].length < 2 ∧ 2 ≤ [czero, czero].length := by decide

theorem witness_InverseDividesThenReversesTheTail :
    0 < (transform num [czero]).length ∧ 3 < (transform num [czero, czero, czero]).length := by
  decide +kernel

theorem witness_ExactTransformIsTheFourierSum :
    3 < (pad exactNum (List.replicate 3 exactNum.czero)).length := by
  rw [pad, List.length_append, List.length_replicate, List.length_replicate]; decide

end Sys2Proof.Tests
end

section
/-! The container commands and the transform side (00_scope R2, 10_state R26): replacing `Z`, `X` and
`XLEN` in the state commutes with the frame of a command and with the checks of a container command,
and so with each of the seven commands. -/

namespace Sys2Proof.Machine

/-- The state with another transform side: other `Z`, `X` and `XLEN`, all else kept. -/
def State.withTransform (s : State) (z : Vector C64 4) (x : List (Nat × C64)) (n : BitVec 64) :
    State :=
  { s with z := z, x := x, xLen := n }

/-- The same outcome of a command, with another transform side in the state it leaves; an error stays
as it is. -/
def withTransformEffect (r : Except ErrCode Effect) (z : Vector C64 4) (x : List (Nat × C64))
    (n : BitVec 64) : Except ErrCode Effect :=
  r.map fun e => { e with state := e.state.withTransform z x n }

variable {s t : State} {z : Vector C64 4} {x : List (Nat × C64)} {n : BitVec 64}

/-! ### What the container side reads is unchanged, and its updates commute -/

@[simp] theorem State.withTransform_bufLen : (s.withTransform z x n).bufLen = s.bufLen := rfl
@[simp] theorem State.withTransform_payLen : (s.withTransform z x n).payLen = s.payLen := rfl
@[simp] theorem State.withTransform_inputs : (s.withTransform z x n).inputs = s.inputs := rfl
@[simp] theorem State.withTransform_bufBytes :
    (s.withTransform z x n).bufBytes = s.bufBytes := rfl
@[simp] theorem State.withTransform_payBytes :
    (s.withTransform z x n).payBytes = s.payBytes := rfl
@[simp] theorem State.withTransform_payByte (i : Nat) :
    (s.withTransform z x n).payByte i = s.payByte i := rfl
@[simp] theorem State.withTransform_setBuf (bytes : List Byte) :
    (s.withTransform z x n).setBuf bytes = (s.setBuf bytes).withTransform z x n := rfl
@[simp] theorem State.withTransform_setPay (i : Nat) (b : Byte) :
    (s.withTransform z x n).setPay i b = (s.setPay i b).withTransform z x n := rfl
@[simp] theorem State.withTransform_setPaySeq (bytes : List Byte) :
    (s.withTransform z x n).setPaySeq bytes = (s.setPaySeq bytes).withTransform z x n := rfl
@[simp] theorem State.withTransform_setPayLen (k : BitVec 64) :
    (s.withTransform z x n).setPayLen k = (s.setPayLen k).withTransform z x n := rfl

/-! ### Effects and errors -/

@[simp] theorem withTransformEffect_error (c : ErrCode) :
    withTransformEffect (.error c) z x n = .error c := rfl
@[simp] theorem withTransformEffect_ok (dout : BitVec 128) (sink : Option (List Byte)) :
    withTransformEffect (.ok ⟨s, dout, sink⟩) z x n =
      .ok ⟨s.withTransform z x n, dout, sink⟩ := rfl
@[simp] theorem withTransformEffect_wrote :
    withTransformEffect (wrote s) z x n = wrote (s.withTransform z x n) := rfl
@[simp] theorem withTransformEffect_answered (dout : BitVec 128) :
    withTransformEffect (answered s dout) z x n = answered (s.withTransform z x n) dout := rfl

/-- The frame of a command: where what it does only carries another transform side along, so does
the next state, whether the command is refused, completes or raises an error. -/
theorem State.command_withTransform {r r' : Except ErrCode Effect}
    (hr : r' = withTransformEffect r z x n) (h : s.command r = .next t) :
    (s.withTransform z x n).command r' = .next (t.withTransform z x n) := by
  subst hr
  obtain ⟨hhalt, rfl⟩ | ⟨hrun, e, rfl, rfl⟩ | ⟨hrun, c, rfl, rfl⟩ := State.command_cases h
  · exact State.command_halted _ hhalt
  · exact State.command_ok _ hrun
  · exact State.command_error c hrun

/-! ### The commands -/

theorem execLoad_withTransform (h : execLoad s = .next t) :
    execLoad (s.withTransform z x n) = .next (t.withTransform z x n) := by
  refine State.command_withTransform ?_ h
  rw [State.withTransform_inputs]
  cases s.inputs.source with
  | absent => rfl
  | present bytes =>
    dsimp only
    cases deriveFile bytes with
    | error c => rfl
    | ok d => rfl

theorem execSave_withTransform (h : execSave s = .next t) :
    execSave (s.withTransform z x n) = .next (t.withTransform z x n) := by
  refine State.command_withTransform ?_ h
  by_cases hsink : s.inputs.sinkOk <;> simp [hsink]

theorem execExtract_withTransform (h : execExtract s = .next t) :
    execExtract (s.withTransform z x n) = .next (t.withTransform z x n) := by
  refine State.command_withTransform ?_ h
  by_cases hshort : s.bufLen.toNat < Config.HDRLEN <;> simp [hshort, -HDRLEN_eq]

theorem execUpdate_withTransform (h : execUpdate s = .next t) :
    execUpdate (s.withTransform z x n) = .next (t.withTransform z x n) := by
  refine State.command_withTransform ?_ h
  by_cases hshort : s.bufLen.toNat < Config.HDRLEN
  · simp [hshort, -HDRLEN_eq]
  · by_cases hlen : s.payLen.toNat = s.bufLen.toNat - Config.HDRLEN <;>
      simp [hshort, hlen, -HDRLEN_eq]

theorem execPsetlen_withTransform {k : BitVec 64} (h : execPsetlen k s = .next t) :
    execPsetlen k (s.withTransform z x n) = .next (t.withTransform z x n) := by
  refine State.command_withTransform ?_ h
  by_cases hcap : Config.BUFMAX < k.toNat <;> simp [hcap]

theorem execPwr_withTransform {k : BitVec 64} (h : execPwr k s = .next t) :
    execPwr k (s.withTransform z x n) = .next (t.withTransform z x n) := by
  refine State.command_withTransform ?_ h
  by_cases hindex : s.payLen.toNat ≤ k.toNat <;> simp [hindex]

theorem execPrd_withTransform {k : BitVec 64} (h : execPrd k s = .next t) :
    execPrd k (s.withTransform z x n) = .next (t.withTransform z x n) := by
  refine State.command_withTransform ?_ h
  by_cases hindex : s.payLen.toNat ≤ k.toNat <;> simp [hindex]

/-- Settles O18, by one lemma per container command, each an instance of the frame lemma
`State.command_withTransform`. -/
theorem containerCommandsIgnoreTheTransformSide :
    Obligations.ContainerCommandsIgnoreTheTransformSide := by
  intro i s t z x n hi h
  obtain rfl | rfl | rfl | rfl | ⟨k, rfl⟩ | ⟨k, rfl⟩ | ⟨k, rfl⟩ := hi
  · exact execLoad_withTransform h
  · exact execSave_withTransform h
  · exact execExtract_withTransform h
  · exact execUpdate_withTransform h
  · exact execPsetlen_withTransform h
  · exact execPwr_withTransform h
  · exact execPrd_withTransform h

end Sys2Proof.Machine
end

section
/-! What a command can write (10_state R22 to R36): `Writes s i u` lists the updates by which a
command `i`, completing on `s`, reaches `u`; `Leaves s i t` adds the refusal, the error and `RST`.
`exec_leaves` says that `exec` does nothing else; what a command keeps is read off from it. -/

namespace Sys2Proof.Machine

/-- The commands that write a complex scalar register (10_state R22). -/
def WritesRegister (i : Instr) : Prop :=
  (∃ d, i = .zwr d) ∨ (∃ d k, i = .zld d k) ∨ (∃ d a b, i = .cadd d a b) ∨
    (∃ d a b, i = .cmul d a b) ∨ (∃ d a n, i = .cdivr d a n) ∨ ∃ d k n, i = .twid d k n

/-- The state writes of a command that completes, by the update it makes: for each the commands that
make it, with what their checks (60_exceptions R231) have established. -/
inductive Writes (s : State) (i : Instr) : State → Prop
  | nothing : Writes s i s
  | register (hi : WritesRegister i) (d : ZReg) (v : C64) : Writes s i (s.setZ d v)
  | element (hi : (∃ k, i = .xwr k) ∨ ∃ a k, i = .zst a k) (k : Nat) (hk : k < s.xLen.toNat)
      (v : C64) : Writes s i (s.setX k v)
  | sequence (hi : i = .pad ∨ i = .fft ∨ i = .ifft ∨ i = .lift) (xs : List C64)
      (hcap : s.xLen.toNat ≤ Config.NMAX → xs.length ≤ Config.NMAX) : Writes s i (s.setXSeq xs)
  | seqLength (hi : ∃ n, i = .xsetlen n) (n : BitVec 64) (hcap : n.toNat ≤ Config.NMAX) :
      Writes s i (s.setXLen n)
  | seqTail (hi : ∃ k, i = .ztail k) (k : Nat) : Writes s i (s.zeroXFrom k)
  | file (hi : i = .load) (bytes : List Byte) (d : Derived) (hd : deriveFile bytes = .ok d) :
      Writes s i { s.setBuf bytes with derived := some d }
  | filePayload (hi : i = .update) (hlen : Config.HDRLEN ≤ s.bufLen.toNat)
      (hpay : s.payLen.toNat = s.bufLen.toNat - Config.HDRLEN) :
      Writes s i (s.setBuf (s.bufBytes.take Config.HDRLEN ++ s.payBytes))
  | payByte (hi : ∃ k, i = .pwr k) (k : Nat) (hk : k < s.payLen.toNat) (b : Byte) :
      Writes s i (s.setPay k b)
  | payload (hi : i = .extract ∨ ∃ n, i = .quant n) (bytes : List Byte)
      (hcap : s.bufLen.toNat ≤ Config.BUFMAX → bytes.length ≤ Config.BUFMAX) :
      Writes s i (s.setPaySeq bytes)
  | payLength (hi : ∃ n, i = .psetlen n) (n : BitVec 64) (hcap : n.toNat ≤ Config.BUFMAX) :
      Writes s i (s.setPayLen n)

/-- The states in which a command can leave the engine. -/
inductive Leaves (s : State) (i : Instr) : State → Prop
  | reset (hi : i = .rst) : Leaves s i (s.resetEngine.respond 0#128)
  | refused (hhalt : s.halt = true) : Leaves s i s.refuse
  | raised (hrun : s.halt = false) (c : ErrCode) : Leaves s i (s.raise c)
  | completed {u : State} (hu : Writes s i u) (dout : BitVec 128) (sink : Option (List Byte)) :
      Leaves s i (u.answer .ok dout sink)

/-- An outcome whose state, if it is no error, is one the command can write. -/
def WritesIfOk (s : State) (i : Instr) (r : Except ErrCode Effect) : Prop :=
  ∀ e, r = .ok e → Writes s i e.state

variable {s t u : State} {i : Instr} {r : Except ErrCode Effect}

/-! ### Outcomes -/

theorem writesIfOk_error (c : ErrCode) : WritesIfOk s i (.error c) := fun _ h => nomatch h

theorem writesIfOk_ok {dout : BitVec 128} {sink : Option (List Byte)} (h : Writes s i u) :
    WritesIfOk s i (.ok ⟨u, dout, sink⟩) := by
  rintro _ ⟨⟩
  exact h

theorem writesIfOk_wrote (h : Writes s i u) : WritesIfOk s i (wrote u) := writesIfOk_ok h

theorem writesIfOk_answered (dout : BitVec 128) : WritesIfOk s i (answered s dout) :=
  writesIfOk_ok .nothing

/-- Behind a check, the check has passed. -/
theorem writesIfOk_check {p : Prop} [Decidable p] {c : ErrCode} (h : ¬ p → WritesIfOk s i r) :
    WritesIfOk s i (if p then .error c else r) := by
  by_cases hp : p
  · rw [if_pos hp]; exact writesIfOk_error c
  · rw [if_neg hp]; exact h hp

/-- Behind a computation that can raise, the computation has a value. -/
theorem writesIfOk_bind {α : Type} {x : Except ErrCode α} {f : α → Except ErrCode Effect}
    (h : ∀ a, x = .ok a → WritesIfOk s i (f a)) : WritesIfOk s i (x.bind f) := by
  cases x with
  | error c => exact writesIfOk_error c
  | ok a => exact h a rfl

/-! ### The frames of a command -/

theorem State.command_leaves (hr : WritesIfOk s i r) (h : s.command r = .next t) :
    Leaves s i t := by
  obtain ⟨hhalt, rfl⟩ | ⟨-, e, he, rfl⟩ | ⟨hrun, c, -, rfl⟩ := State.command_cases h
  · exact .refused hhalt
  · exact .completed (hr e he) _ _
  · exact .raised hrun c

/-- The commands that compute a register's value without a check. -/
theorem State.command_setZ_leaves (hi : WritesRegister i) {d : ZReg} {v : C64}
    (h : s.command (wrote (s.setZ d v)) = .next t) : Leaves s i t :=
  State.command_leaves (writesIfOk_wrote (.register hi d v)) h

theorem State.readCommand_leaves (hr : WritesIfOk s i r) (h : s.readCommand r = .next t) :
    Leaves s i t := by
  obtain ⟨e, he, rfl⟩ | ⟨hhalt, -, rfl⟩ | ⟨hrun, c, -, rfl⟩ := State.readCommand_cases h
  · exact .completed (hr e he) _ _
  · exact .refused hhalt
  · exact .raised hrun c

/-! ### Every command -/

/-- `PAD`, `FFT` and `IFFT` leave the padded length, which is within the capacity where the length
was (00_scope R9). -/
theorem Writes.transform (hi : i = .pad ∨ i = .fft ∨ i = .ifft) {xs : List C64}
    (hlen : xs.length = padLength s.xSeq.length) : Writes s i (s.setXSeq xs) := by
  refine .sequence (by tauto) xs fun hcap => ?_
  rw [hlen, State.length_xSeq]
  exact padLength_le_NMAX hcap

theorem execLoad_leaves (h : execLoad s = .next t) : Leaves s .load t := by
  refine State.command_leaves ?_ h
  cases s.inputs.source with
  | absent => exact writesIfOk_error _
  | present bytes => exact writesIfOk_bind fun d hd => writesIfOk_wrote (.file rfl bytes d hd)

theorem execSave_leaves (h : execSave s = .next t) : Leaves s .save t := by
  refine State.command_leaves ?_ h
  by_cases hsink : s.inputs.sinkOk
  · rw [if_pos hsink]; exact writesIfOk_ok .nothing
  · rw [if_neg hsink]; exact writesIfOk_error _

theorem execExtract_leaves (h : execExtract s = .next t) : Leaves s .extract t :=
  State.command_leaves (writesIfOk_check fun _ => writesIfOk_wrote
    (.payload (.inl rfl) _ fun _ => by rw [List.length_drop, State.length_bufBytes]; omega)) h

theorem execUpdate_leaves (h : execUpdate s = .next t) : Leaves s .update t :=
  State.command_leaves (writesIfOk_check fun hshort => writesIfOk_check fun hlen =>
    writesIfOk_wrote (.filePayload rfl (not_lt.1 hshort) (not_not.1 hlen))) h

theorem execLift_leaves (h : execLift s = .next t) : Leaves s .lift t :=
  State.command_leaves (writesIfOk_check fun hcap => writesIfOk_wrote
    (.sequence (by simp) _ fun _ => by simpa [liftBytes] using hcap)) h

theorem execQuant_leaves {count : BitVec 64} (h : execQuant count s = .next t) :
    Leaves s (.quant count) t := by
  refine State.command_leaves (writesIfOk_check fun _ => writesIfOk_check fun hcap =>
    writesIfOk_bind fun bytes hq => writesIfOk_wrote (.payload (.inr ⟨_, rfl⟩) bytes fun _ => ?_)) h
  rw [quantizeAll_length _ _ _ _ hq, Memory.length_toList]
  exact not_lt.1 hcap

/-- The inversion of `exec`: what its next state can be. -/
theorem exec_leaves (h : exec i s = .next t) : Leaves s i t := by
  cases i with
  | rst => cases h; exact .reset rfl
  | rdcsr n => exact State.readCommand_leaves (writesIfOk_bind fun v _ => writesIfOk_answered _) h
  | zwr d => exact State.command_setZ_leaves (by simp [WritesRegister]) h
  | zrd a => exact State.command_leaves (writesIfOk_answered _) h
  | zld d k =>
    exact State.command_leaves (writesIfOk_check fun _ =>
      writesIfOk_wrote (.register (by simp [WritesRegister]) _ _)) h
  | zst a k =>
    exact State.command_leaves (writesIfOk_check fun hk =>
      writesIfOk_wrote (.element (by simp) _ (not_le.1 hk) _)) h
  | cadd d a b => exact State.command_setZ_leaves (by simp [WritesRegister]) h
  | cmul d a b => exact State.command_setZ_leaves (by simp [WritesRegister]) h
  | cdivr d a n => exact State.command_setZ_leaves (by simp [WritesRegister]) h
  | twid d k n => exact State.command_setZ_leaves (by simp [WritesRegister]) h
  | xsetlen n =>
    exact State.command_leaves (writesIfOk_check fun hcap =>
      writesIfOk_wrote (.seqLength ⟨n, rfl⟩ n (not_lt.1 hcap))) h
  | xwr k =>
    exact State.command_leaves (writesIfOk_check fun hk =>
      writesIfOk_wrote (.element (by simp) _ (not_le.1 hk) _)) h
  | xrd k => exact State.command_leaves (writesIfOk_check fun _ => writesIfOk_answered _) h
  | pad =>
    exact State.command_leaves (writesIfOk_wrote (.transform (by simp) (length_pad _ _))) h
  | fft =>
    exact State.command_leaves (writesIfOk_wrote (.transform (by simp) (length_transform _ _))) h
  | ifft =>
    exact State.command_leaves
      (writesIfOk_wrote (.transform (by simp) (length_inverseTransform _ _))) h
  | ztail k =>
    exact State.command_leaves (writesIfOk_check fun _ => writesIfOk_wrote (.seqTail ⟨k, rfl⟩ _)) h
  | load => exact execLoad_leaves h
  | save => exact execSave_leaves h
  | extract => exact execExtract_leaves h
  | update => exact execUpdate_leaves h
  | psetlen n =>
    exact State.command_leaves (writesIfOk_check fun hcap =>
      writesIfOk_wrote (.payLength ⟨n, rfl⟩ n (not_lt.1 hcap))) h
  | pwr k =>
    exact State.command_leaves (writesIfOk_check fun hk =>
      writesIfOk_wrote (.payByte ⟨k, rfl⟩ _ (not_le.1 hk) _)) h
  | prd k => exact State.command_leaves (writesIfOk_check fun _ => writesIfOk_answered _) h
  | lift => exact execLift_leaves h
  | quant n => exact execQuant_leaves h

end Sys2Proof.Machine
end

section
/-! The invariant of the engine: it holds at reset, and each update of the state keeps it under what
`Writes` says of the update. -/

namespace Sys2Proof.Machine

variable {s t u : State} {i : Instr}

/-! ### Facts about the lengths, the codes and the file -/

/-- A length within either capacity fits its register. -/
theorem toNat_ofNat_of_le {n : Nat} (h : n ≤ 2 ^ 62) : (BitVec.ofNat 64 n).toNat = n := by
  rw [BitVec.toNat_ofNat, Nat.mod_eq_of_lt (by omega)]

theorem ErrCode.code_ne_zero (c : ErrCode) : c.code ≠ 0#8 := by cases c <;> decide

theorem ErrCode.code_le (c : ErrCode) : c.code.toNat ≤ 10 := by cases c <;> decide

/-- What `LOAD` accepts as a file, and what it derives from it (42_container R175). -/
theorem deriveFile_ok {bytes : List Byte} {d : Derived} (h : deriveFile bytes = .ok d) :
    Config.HDRLEN ≤ bytes.length ∧ bytes.length ≤ Config.BUFMAX ∧
      d.hdr = parseHeader (bytes.take Config.HDRLEN) ∧ duration d.hdr = .ok d.dur := by
  unfold deriveFile at h
  by_cases hcap : Config.BUFMAX < bytes.length
  · rw [if_pos hcap] at h; cases h
  by_cases hshort : bytes.length < Config.HDRLEN
  · rw [if_neg hcap, if_pos hshort] at h; cases h
  rw [if_neg hcap, if_neg hshort] at h
  dsimp only at h
  cases hdur : duration (parseHeader (bytes.take Config.HDRLEN)) with
  | error c => rw [hdur] at h; cases h
  | ok dur =>
    rw [hdur] at h
    cases h
    exact ⟨not_lt.1 hshort, not_lt.1 hcap, rfl, hdur⟩

/-- `UPDATE` keeps the file's length. -/
theorem length_updatedFile (hlen : Config.HDRLEN ≤ s.bufLen.toNat)
    (hpay : s.payLen.toNat = s.bufLen.toNat - Config.HDRLEN) :
    (s.bufBytes.take Config.HDRLEN ++ s.payBytes).length = s.bufLen.toNat := by
  rw [List.length_append, List.length_take, State.length_bufBytes, State.length_payBytes]
  omega

/-- `UPDATE` keeps the file's header. -/
theorem take_updatedFile (hlen : Config.HDRLEN ≤ s.bufLen.toNat) :
    (s.bufBytes.take Config.HDRLEN ++ s.payBytes).take Config.HDRLEN =
      s.bufBytes.take Config.HDRLEN :=
  List.take_left' (by rw [List.length_take, State.length_bufBytes]; omega)

/-! ### The invariant at reset and after each update -/

theorem State.reset_inv : State.reset.Inv where
  xWf := Memory.wf_nil _
  bufWf := Memory.wf_nil _
  payWf := Memory.wf_nil _
  xWithin _ hc := nomatch hc
  bufWithin _ hc := nomatch hc
  payWithin _ hc := nomatch hc
  xCap := Nat.zero_le _
  bufCap := Nat.zero_le _
  payCap := Nat.zero_le _
  fileLoaded := .inl ⟨rfl, rfl⟩
  derivedOfBuf _ hd := nomatch hd
  errOfHalt := ⟨fun _ => rfl, fun _ => rfl⟩
  errCode := Nat.zero_le _

theorem State.resetEngine_inv (s : State) : s.resetEngine.Inv := { State.reset_inv with }

theorem State.Inv.answer (h : s.Inv) (rsp : Rsp) (dout : BitVec 128) (sink : Option (List Byte)) :
    (s.answer rsp dout sink).Inv := { h with }

theorem State.Inv.present (h : s.Inv) (r : Request) (rest : List HostMove) :
    (s.present r rest).Inv := { h with }

theorem State.Inv.raise (h : s.Inv) (c : ErrCode) : (s.raise c).Inv :=
  { h with
    errOfHalt := iff_of_false (by simp) c.code_ne_zero
    errCode := c.code_le }

theorem State.Inv.setZ (h : s.Inv) (d : ZReg) (v : C64) : (s.setZ d v).Inv := { h with }

theorem State.Inv.setX (h : s.Inv) {k : Nat} (hk : k < s.xLen.toNat) (v : C64) :
    (s.setX k v).Inv :=
  { h with
    xWf := Memory.wf_write _ _ _ _ h.xWf
    xWithin := Memory.within_write _ _ _ _ _ h.xWithin hk }

theorem State.Inv.setXSeq (h : s.Inv) {xs : List C64} (hcap : xs.length ≤ Config.NMAX) :
    (s.setXSeq xs).Inv :=
  have hlen : (s.setXSeq xs).xLen.toNat = xs.length := toNat_ofNat_of_le (hcap.trans NMAX_le)
  { h with
    xWf := Memory.wf_ofList _ _
    xWithin := Memory.within_ofList _ _ _ hlen.ge
    xCap := hlen.trans_le hcap }

theorem State.Inv.setXLen (h : s.Inv) {n : BitVec 64} (hcap : n.toNat ≤ Config.NMAX) :
    (s.setXLen n).Inv :=
  { h with
    xWf := Memory.wf_below _ _ _ h.xWf
    xWithin := Memory.within_below _ _ _ (Nat.min_le_left _ _)
    xCap := hcap }

theorem State.Inv.zeroXFrom (h : s.Inv) (k : Nat) : (s.zeroXFrom k).Inv :=
  { h with
    xWf := Memory.wf_below _ _ _ h.xWf
    xWithin := Memory.within_below_of_within _ _ _ h.xWithin }

/-- A loaded file with what is derived from it, whatever file stood before. -/
theorem State.Inv.setFile (h : s.Inv) {bytes : List Byte} {d : Derived}
    (hd : deriveFile bytes = .ok d) : ({ s.setBuf bytes with derived := some d } : State).Inv := by
  obtain ⟨hshort, hcap, hhdr, hdur⟩ := deriveFile_ok hd
  have hlen : (s.setBuf bytes).bufLen.toNat = bytes.length :=
    toNat_ofNat_of_le (hcap.trans BUFMAX_le)
  have hbytes : ({ s.setBuf bytes with derived := some d } : State).bufBytes = bytes :=
    State.bufBytes_setBuf (s := s) bytes (by have := BUFMAX_le; omega)
  exact
    { h with
      bufWf := Memory.wf_ofList _ _
      bufWithin := Memory.within_ofList _ _ _ hlen.ge
      bufCap := hlen.trans_le hcap
      fileLoaded := .inr ⟨hshort.trans hlen.ge, rfl⟩
      derivedOfBuf := by
        rintro _ ⟨⟩
        exact ⟨by rw [hbytes]; exact hhdr, hdur⟩ }

/-- The file with other bytes behind the same header, of the same length. -/
theorem State.Inv.setBuf (h : s.Inv) {bytes : List Byte} (hlen : bytes.length = s.bufLen.toNat)
    (htake : bytes.take Config.HDRLEN = s.bufBytes.take Config.HDRLEN) : (s.setBuf bytes).Inv := by
  have hcap : bytes.length ≤ Config.BUFMAX := hlen.trans_le h.bufCap
  have hbufLen : (s.setBuf bytes).bufLen.toNat = s.bufLen.toNat :=
    (toNat_ofNat_of_le (hcap.trans BUFMAX_le)).trans hlen
  have hbytes : (s.setBuf bytes).bufBytes = bytes :=
    State.bufBytes_setBuf bytes (by have := BUFMAX_le; omega)
  exact
    { h with
      bufWf := Memory.wf_ofList _ _
      bufWithin := Memory.within_ofList _ _ _ (hlen.trans hbufLen.symm).le
      bufCap := hbufLen.trans_le h.bufCap
      fileLoaded := by rw [hbufLen]; exact h.fileLoaded
      derivedOfBuf := by rw [hbytes, htake]; exact h.derivedOfBuf }

theorem State.Inv.setPay (h : s.Inv) {k : Nat} (hk : k < s.payLen.toNat) (b : Byte) :
    (s.setPay k b).Inv :=
  { h with
    payWf := Memory.wf_write _ _ _ _ h.payWf
    payWithin := Memory.within_write _ _ _ _ _ h.payWithin hk }

theorem State.Inv.setPaySeq (h : s.Inv) {bytes : List Byte}
    (hcap : bytes.length ≤ Config.BUFMAX) : (s.setPaySeq bytes).Inv :=
  have hlen : (s.setPaySeq bytes).payLen.toNat = bytes.length :=
    toNat_ofNat_of_le (hcap.trans BUFMAX_le)
  { h with
    payWf := Memory.wf_ofList _ _
    payWithin := Memory.within_ofList _ _ _ hlen.ge
    payCap := hlen.trans_le hcap }

theorem State.Inv.setPayLen (h : s.Inv) {n : BitVec 64} (hcap : n.toNat ≤ Config.BUFMAX) :
    (s.setPayLen n).Inv :=
  { h with
    payWf := Memory.wf_below _ _ _ h.payWf
    payWithin := Memory.within_below _ _ _ (Nat.min_le_left _ _)
    payCap := hcap }

/-! ### Commands and steps -/

theorem Writes.inv (hu : Writes s i u) (h : s.Inv) : u.Inv := by
  cases hu with
  | nothing => exact h
  | register hi d v => exact h.setZ d v
  | element hi k hk v => exact h.setX hk v
  | sequence hi xs hcap => exact h.setXSeq (hcap h.xCap)
  | seqLength hi n hcap => exact h.setXLen hcap
  | seqTail hi k => exact h.zeroXFrom k
  | file hi bytes d hd => exact h.setFile hd
  | filePayload hi hlen hpay =>
    exact h.setBuf (length_updatedFile hlen hpay) (take_updatedFile hlen)
  | payByte hi k hk b => exact h.setPay hk b
  | payload hi bytes hcap => exact h.setPaySeq (hcap h.bufCap)
  | payLength hi n hcap => exact h.setPayLen hcap

theorem exec_inv (hexec : exec i s = .next t) (h : s.Inv) : t.Inv := by
  cases exec_leaves hexec with
  | reset hi => exact (State.resetEngine_inv s).answer _ _ _
  | refused hhalt => exact h.answer _ _ _
  | raised hrun c => exact h.raise c
  | completed hu dout sink => exact (hu.inv h).answer _ _ _

theorem State.Inv.illegalRequest (h : s.Inv) : s.illegalRequest.Inv := by
  obtain ⟨-, heq⟩ | ⟨-, heq⟩ := State.illegalRequest_cases (s := s)
  · rw [heq]; exact h.answer _ _ _
  · rw [heq]; exact h.raise _

/-- Settles O14, by what a step can do (`step_cases`), what a command can write (`exec_leaves`) and
one lemma per update. -/
theorem everyStepKeepsTheInvariant : Obligations.EveryStepKeepsTheInvariant := by
  intro s t h hstep
  obtain ⟨-, heq⟩ | ⟨rest, -, heq⟩ | ⟨r, rest, i, -, -, heq⟩ | ⟨r, rest, e, -, -, heq⟩ :=
    step_cases s <;> rw [heq] at hstep
  · cases hstep; exact h
  · cases hstep; exact State.resetEngine_inv _
  · exact exec_inv hstep (h.present r rest)
  · cases hstep; exact (h.present r rest).illegalRequest

/-- Settles O15: the memories are empty and no file is loaded. -/
theorem resetHasTheInvariant : Obligations.ResetHasTheInvariant := State.reset_inv

end Sys2Proof.Machine
end

section
/-! Who writes what (10_state R22, R26, R28, R30, R32, R35, R36, R40), read off from `Writes`: for
each piece of state, only the updates that touch it remain, and they name their commands. -/

namespace Sys2Proof.Machine

variable {s t u : State} {i : Instr}

theorem Writes.keeps (h : Writes s i u) :
    u.halt = s.halt ∧ u.err = s.err ∧ u.host = s.host ∧ u.inputs = s.inputs := by
  cases h <;> exact ⟨rfl, rfl, rfl, rfl⟩

theorem Writes.z_writer (h : Writes s i u) (hne : u.z ≠ s.z) : WritesRegister i := by
  cases h with
  | register hi => exact hi
  | _ => exact absurd rfl hne

theorem Writes.x_writer (h : Writes s i u) (hne : u.x ≠ s.x) :
    (∃ n, i = .xsetlen n) ∨ (∃ k, i = .xwr k) ∨ (∃ a k, i = .zst a k) ∨ i = .pad ∨ i = .fft ∨
      i = .ifft ∨ (∃ k, i = .ztail k) ∨ i = .lift := by
  cases h with
  | element hi => exact .inr (hi.imp_right .inl)
  | sequence hi => tauto
  | seqLength hi => exact .inl hi
  | seqTail hi => simp [hi]
  | _ => exact absurd rfl hne

theorem Writes.xLen_writer (h : Writes s i u) (hne : u.xLen ≠ s.xLen) :
    (∃ n, i = .xsetlen n) ∨ i = .pad ∨ i = .fft ∨ i = .ifft ∨ i = .lift := by
  cases h with
  | sequence hi => exact .inr hi
  | seqLength hi => exact .inl hi
  | _ => exact absurd rfl hne

theorem Writes.buf_writer (h : Writes s i u) (hne : u.buf ≠ s.buf) : i = .load ∨ i = .update := by
  cases h with
  | file hi => exact .inl hi
  | filePayload hi => exact .inr hi
  | _ => exact absurd rfl hne

/-- `UPDATE` writes `BUF` but, by its check of `PAYLEN`, keeps `BUFLEN`. -/
theorem Writes.bufLen_writer (h : Writes s i u) (hne : u.bufLen ≠ s.bufLen) : i = .load := by
  cases h with
  | file hi => exact hi
  | filePayload hi hlen hpay =>
    refine absurd ?_ hne
    rw [State.setBuf_bufLen, length_updatedFile hlen hpay, BitVec.ofNat_toNat, BitVec.setWidth_eq]
  | _ => exact absurd rfl hne

theorem Writes.pay_writer (h : Writes s i u) (hne : u.pay ≠ s.pay) :
    i = .extract ∨ (∃ n, i = .quant n) ∨ (∃ n, i = .psetlen n) ∨ ∃ k, i = .pwr k := by
  cases h with
  | payByte hi | payload hi | payLength hi => tauto
  | _ => exact absurd rfl hne

theorem Writes.payLen_writer (h : Writes s i u) (hne : u.payLen ≠ s.payLen) :
    i = .extract ∨ (∃ n, i = .quant n) ∨ ∃ n, i = .psetlen n := by
  cases h with
  | payload hi | payLength hi => tauto
  | _ => exact absurd rfl hne

theorem Writes.derived_writer (h : Writes s i u) (hne : u.derived ≠ s.derived) : i = .load := by
  cases h with
  | file hi => exact hi
  | _ => exact absurd rfl hne

/-- `HDRV` is no state of its own: it changes only with `HDR` and `DUR` (10_state R35). -/
theorem derived_ne_of_derived_or_hdrv_ne (h : t.derived ≠ s.derived ∨ t.hdrv ≠ s.hdrv) :
    t.derived ≠ s.derived :=
  h.elim id fun hne heq => hne (congrArg Option.isSome heq)

/-- Settles O16, by what a command can do (`exec_leaves`) and one lemma per piece of state for a
command that completes. -/
theorem onlyTheListedCommandsWriteEachMemory :
    Obligations.OnlyTheListedCommandsWriteEachMemory := by
  intro i s t h
  cases exec_leaves h with
  | reset hi => simp [hi]
  | refused hhalt => simp [State.hdrv]
  | raised hrun c => exact ⟨by simp, by simp, by simp, by simp, by simp, by simp, by simp,
      by simp [State.hdrv], fun _ => .inr ⟨c, hrun, rfl⟩, rfl, rfl⟩
  | completed hu dout sink =>
    obtain ⟨hhalt, herr, hhost, hinputs⟩ := hu.keeps
    exact ⟨fun hne => .inr (hu.z_writer hne), fun hne => .inr (hu.x_writer hne),
      fun hne => .inr (hu.xLen_writer hne), fun hne => .inr (hu.buf_writer hne),
      fun hne => .inr (hu.bufLen_writer hne), fun hne => .inr (hu.pay_writer hne),
      fun hne => .inr (hu.payLen_writer hne),
      fun hne => .inr (hu.derived_writer (derived_ne_of_derived_or_hdrv_ne hne)),
      fun hne => (hne.elim (absurd hhalt) (absurd herr)), hhost, hinputs⟩

/-! ### Reset -/

theorem State.sameEngine_resetEngine (s : State) : State.reset.SameEngine s.resetEngine :=
  ⟨rfl, rfl, rfl, rfl, rfl, rfl, rfl, rfl, rfl, rfl⟩

theorem State.SameEngine.respond (h : s.SameEngine t) (dout : BitVec 128) :
    s.SameEngine (t.respond dout) := { h with }

theorem State.zReg_reset (i : ZReg) : State.reset.zReg i = czero := by
  simp only [State.zReg, State.reset_z, Fin.getElem_fin, Vector.getElem_replicate]

/-- Settles O6: `RST` and hardware reset both put the engine into `State.resetEngine`, which differs
from `State.reset` in the host's side only. -/
theorem resetLeavesTheResetValues : Obligations.ResetLeavesTheResetValues := by
  refine fun s => ⟨⟨_, rfl, s.sameEngine_resetEngine.respond _⟩, fun rest hs => ?_,
    State.zReg_reset, rfl, rfl, rfl, rfl, rfl, rfl, rfl, rfl, rfl, rfl⟩
  exact ⟨_, by rw [step, State.receive_hardwareReset hs], State.sameEngine_resetEngine _⟩

end Sys2Proof.Machine
end

section
/-! Reads (20_memory R67): each read command answers what a function of the state puts on `DOUT`, and
giving a response changes nothing that function looks at. So the read repeats on the state after it. -/

namespace Sys2Proof.Machine

/-- `X[idx]` on `DOUT`, or the error of an index at or beyond `XLEN` (41_transform R144). -/
def State.readX (s : State) (idx : BitVec 64) : Except ErrCode (BitVec 128) :=
  if s.xLen.toNat ≤ idx.toNat then .error .index else .ok (doutComplex (s.xElem idx.toNat))

/-- `PAY[idx]` on `DOUT`, or the error of an index at or beyond `PAYLEN` (42_container R187). -/
def State.readPay (s : State) (idx : BitVec 64) : Except ErrCode (BitVec 128) :=
  if s.payLen.toNat ≤ idx.toNat then .error .index else .ok (doutByte (s.payByte idx.toNat))

variable {s t : State} {d : BitVec 128} {x : Except ErrCode (BitVec 128)}

/-! ### The read commands by what they answer -/

theorem execXrd_eq (idx : BitVec 64) (s : State) :
    execXrd idx s = s.command ((s.readX idx).bind (answered s)) := by
  unfold execXrd State.readX
  by_cases hindex : s.xLen.toNat ≤ idx.toNat
  · rw [if_pos hindex, if_pos hindex, Except.bind]
  · rw [if_neg hindex, if_neg hindex, Except.bind]

theorem execPrd_eq (idx : BitVec 64) (s : State) :
    execPrd idx s = s.command ((s.readPay idx).bind (answered s)) := by
  unfold execPrd State.readPay
  by_cases hindex : s.payLen.toNat ≤ idx.toNat
  · rw [if_pos hindex, if_pos hindex, Except.bind]
  · rw [if_neg hindex, if_neg hindex, Except.bind]

theorem execZrd_eq (za : ZReg) (s : State) :
    execZrd za s = s.command ((Except.ok (doutComplex (s.zReg za))).bind (answered s)) := rfl

theorem execRdcsr_eq (n : BitVec 64) (s : State) :
    execRdcsr n s = s.readCommand (((s.readCsr n.toNat).map doutWord).bind (answered s)) := by
  unfold execRdcsr
  cases s.readCsr n.toNat with
  | error c => rfl
  | ok v => rfl

/-! ### A response changes nothing that a read looks at -/

@[simp] theorem State.readX_respond (idx : BitVec 64) : (s.respond d).readX idx = s.readX idx := rfl

@[simp] theorem State.readPay_respond (idx : BitVec 64) :
    (s.respond d).readPay idx = s.readPay idx := rfl

@[simp] theorem State.readCsr_respond (n : Nat) : (s.respond d).readCsr n = s.readCsr n := rfl

theorem State.SameEngine.refl (s : State) : s.SameEngine s :=
  ⟨rfl, rfl, rfl, rfl, rfl, rfl, rfl, rfl, rfl, rfl⟩

/-! ### A read that completes

The response `OK` tells it from one that is refused or raises an error; the engine is then not halted
unless the command is `RDCSR`, and the response is all that is added. -/

theorem State.command_read_ok (h : s.command (x.bind (answered s)) = .next t)
    (hd : t.responses = s.responses ++ [⟨.ok, d, none⟩]) :
    s.halt = false ∧ x = .ok d ∧ t = s.respond d := by
  obtain ⟨-, rfl⟩ | ⟨hrun, e, he, rfl⟩ | ⟨-, c, -, rfl⟩ := State.command_cases h
  · simp at hd
  · cases x with
    | error c => cases he
    | ok v =>
      cases he
      obtain rfl : v = d := by simpa using hd
      exact ⟨hrun, rfl, rfl⟩
  · simp at hd

theorem State.readCommand_read_ok (h : s.readCommand (x.bind (answered s)) = .next t)
    (hd : t.responses = s.responses ++ [⟨.ok, d, none⟩]) : x = .ok d ∧ t = s.respond d := by
  obtain ⟨e, he, rfl⟩ | ⟨-, -, rfl⟩ | ⟨-, c, -, rfl⟩ := State.readCommand_cases h
  · cases x with
    | error c => cases he
    | ok v =>
      cases he
      obtain rfl : v = d := by simpa using hd
      exact ⟨rfl, rfl⟩
  · simp at hd
  · simp at hd

/-! ### Its repetition on the state after it -/

/-- The commands that answer what a function of the state reads, refused while halted. -/
theorem State.command_read_repeats (read : State → Except ErrCode (BitVec 128))
    (hread : read (s.respond d) = read s)
    (h : s.command ((read s).bind (answered s)) = .next t)
    (hd : t.responses = s.responses ++ [⟨.ok, d, none⟩]) :
    t = s.respond d ∧ t.command ((read t).bind (answered t)) = .next (t.respond d) := by
  obtain ⟨hrun, hok, rfl⟩ := State.command_read_ok h hd
  refine ⟨rfl, ?_⟩
  rw [hread, hok]
  exact State.command_answered d hrun

/-- `RDCSR`, which a halted engine executes too. -/
theorem State.readCommand_read_repeats (read : State → Except ErrCode (BitVec 128))
    (hread : read (s.respond d) = read s)
    (h : s.readCommand ((read s).bind (answered s)) = .next t)
    (hd : t.responses = s.responses ++ [⟨.ok, d, none⟩]) :
    t = s.respond d ∧ t.readCommand ((read t).bind (answered t)) = .next (t.respond d) := by
  obtain ⟨hok, rfl⟩ := State.readCommand_read_ok h hd
  refine ⟨rfl, ?_⟩
  rw [hread, hok]
  exact State.readCommand_ok _

theorem execXrd_repeats {k : BitVec 64} (h : execXrd k s = .next t)
    (hd : t.responses = s.responses ++ [⟨.ok, d, none⟩]) :
    t = s.respond d ∧ execXrd k t = .next (t.respond d) := by
  rw [execXrd_eq] at h ⊢
  exact State.command_read_repeats (·.readX k) (State.readX_respond k) h hd

theorem execPrd_repeats {k : BitVec 64} (h : execPrd k s = .next t)
    (hd : t.responses = s.responses ++ [⟨.ok, d, none⟩]) :
    t = s.respond d ∧ execPrd k t = .next (t.respond d) := by
  rw [execPrd_eq] at h ⊢
  exact State.command_read_repeats (·.readPay k) (State.readPay_respond k) h hd

theorem execZrd_repeats {za : ZReg} (h : execZrd za s = .next t)
    (hd : t.responses = s.responses ++ [⟨.ok, d, none⟩]) :
    t = s.respond d ∧ execZrd za t = .next (t.respond d) := by
  rw [execZrd_eq] at h ⊢
  exact State.command_read_repeats (fun s => .ok (doutComplex (s.zReg za)))
    (by rw [State.zReg_respond]) h hd

theorem execRdcsr_repeats {n : BitVec 64} (h : execRdcsr n s = .next t)
    (hd : t.responses = s.responses ++ [⟨.ok, d, none⟩]) :
    t = s.respond d ∧ execRdcsr n t = .next (t.respond d) := by
  rw [execRdcsr_eq] at h ⊢
  exact State.readCommand_read_repeats (fun s => (s.readCsr n.toNat).map doutWord)
    (by rw [State.readCsr_respond]) h hd

/-- Settles O17, by one lemma per read command: each only adds its response, and then repeats. -/
theorem readsChangeNothingAndRepeat : Obligations.ReadsChangeNothingAndRepeat := by
  intro i s t d hi h hd
  have hrepeats : t = s.respond d ∧ exec i t = .next (t.respond d) := by
    obtain ⟨k, rfl⟩ | ⟨k, rfl⟩ | ⟨a, rfl⟩ | ⟨n, rfl⟩ := hi
    · exact execXrd_repeats h hd
    · exact execPrd_repeats h hd
    · exact execZrd_repeats h hd
    · exact execRdcsr_repeats h hd
  obtain ⟨rfl, hagain⟩ := hrepeats
  have hsame : s.SameEngine (s.respond d) := (State.SameEngine.refl s).respond d
  exact ⟨hsame, _, hagain, hsame.respond d, rfl⟩

end Sys2Proof.Machine
end

section
/-! Decoding and encoding (30_encoding R81 to R87, R95). The decoder follows the opcode map row by row
(`decodeOp_row`); what it accepts is taken apart by `requireZero_ok` and put together again by
`encode`. -/

namespace Sys2Proof

/-! ### The fields of a word -/

theorem toNat_extractLsb' {w : Nat} (v : BitVec w) (lo n : Nat) :
    (v.extractLsb' lo n).toNat = slice v lo n := by
  rw [BitVec.extractLsb'_toNat, Nat.shiftRight_eq_div_pow, slice]

/-- The two ways of reading a field of a request, `extractLsb'` and `slice`, agree on its value. -/
theorem extractLsb'_beq_ofNat {w : Nat} (v : BitVec w) (lo n : Nat) {k : Nat} (h : k < 2 ^ n) :
    (v.extractLsb' lo n == BitVec.ofNat n k) = true ↔ slice v lo n = k := by
  rw [beq_iff_eq, ← BitVec.toNat_inj, toNat_extractLsb', BitVec.toNat_ofNat, Nat.mod_eq_of_lt h]

theorem slice_lt {w : Nat} (v : BitVec w) (lo n : Nat) : slice v lo n < 2 ^ n :=
  Nat.mod_lt _ (Nat.two_pow_pos n)

/-- `ARG` of `TWID`, taken apart (30_encoding R85). -/
theorem slices_twidArg (i sz : BitVec 32) :
    slice (BitVec.ofNat 64 (sz.toNat * 2 ^ 32 + i.toNat)) 0 32 = i.toNat ∧
    slice (BitVec.ofNat 64 (sz.toNat * 2 ^ 32 + i.toNat)) 32 32 = sz.toNat := by
  have := i.isLt; have := sz.isLt
  simp only [slice, BitVec.toNat_ofNat]
  omega

/-- `ARG` of `TWID`, put together from its two halves. -/
theorem twidArg_slices (arg : BitVec 64) :
    BitVec.ofNat 64 ((BitVec.ofNat 32 (slice arg 32 32)).toNat * 2 ^ 32 +
      (BitVec.ofNat 32 (slice arg 0 32)).toNat) = arg := by
  apply BitVec.eq_of_toNat_eq
  have := arg.isLt
  simp only [slice, BitVec.toNat_ofNat]
  omega

/-! ### Decoding an encoding -/

theorem requireZero_of_zero {l : List Nat} {a : Option (BitVec 64)} (i : Instr)
    (hl : ∀ n ∈ l, n = 0) (ha : ∀ b, a = some b → b = 0#64) : requireZero l a i = .ok i := by
  have hregs : ¬ l.any (· != 0) = true := by simpa using hl
  have harg : ¬ a.any (· != 0#64) = true := by
    cases a with
    | none => simp
    | some b => simpa using ha b rfl
  rw [requireZero, if_neg hregs, if_neg harg]

/-- Settles O1: every field of the word is what `encode` put there (`decode_formatC`), and `encode`
puts zero in the fields the command does not use. -/
theorem decodeOfEncodeIsTheCommand : Obligations.DecodeOfEncodeIsTheCommand := by
  intro i
  cases i with
  | twid zd i sz =>
    obtain ⟨hlow, hhigh⟩ := slices_twidArg i sz
    rw [encode, decode_formatC _ (by decide), decodeOp, hlow, hhigh]
    simp [requireZero_of_zero]
  | _ => simp [encode, decode_formatC, decodeOp, requireZero_of_zero]

/-! ### Encoding what was decoded -/

/-- What `decodeOp` accepts carries exactly the fields it was given: a field is an operand of the
command, or `requireZero` has found it zero, which is what `encode` puts there. -/
theorem encode_of_decodeOp {op zd za zb : Nat} {arg : BitVec 64} {i : Instr}
    (h : decodeOp op zd za zb arg = .ok i) :
    encode i = (formatC op (regOf zd) (regOf za) (regOf zb), arg) := by
  unfold decodeOp at h
  split at h
  case h_10 => -- `TWID`, whose `ARG` is two operands
    obtain ⟨rfl, hregs, -⟩ := requireZero_ok h
    obtain ⟨rfl, rfl⟩ : za = 0 ∧ zb = 0 := by simpa using hregs
    rw [encode, twidArg_slices]
    rfl
  case h_27 => cases h -- an unassigned opcode
  all_goals
    obtain ⟨rfl, hregs, harg⟩ := requireZero_ok h
    simp_all [encode, regOf]

theorem decode_ok {cmd : BitVec 32} {arg : BitVec 64} {i : Instr} (h : decode cmd arg = .ok i) :
    fieldReserved cmd = 0 ∧
    decodeOp (fieldOp cmd) (fieldZd cmd) (fieldZa cmd) (fieldZb cmd) arg = .ok i := by
  unfold decode at h
  split at h
  · cases h
  · exact ⟨not_not.1 ‹_›, h⟩

theorem encode_of_decode {cmd : BitVec 32} {arg : BitVec 64} {i : Instr}
    (h : decode cmd arg = .ok i) : encode i = (cmd, arg) := by
  obtain ⟨hreserved, hop⟩ := decode_ok h
  have hword := formatC_fields cmd (fieldOp cmd) (regOf (fieldZd cmd)) (regOf (fieldZa cmd))
    (regOf (fieldZb cmd)) hreserved rfl (val_regOf _ (slice_lt cmd 8 2)).symm
    (val_regOf _ (slice_lt cmd 10 2)).symm (val_regOf _ (slice_lt cmd 12 2)).symm
  rw [encode_of_decodeOp hop, hword]

/-! ### Well-formed requests -/

theorem encode_wellFormed : ∀ i : Instr, wellFormedRequest (encode i).1 (encode i).2 = true
  | .rst => Laws.EncodesWellFormed.rst
  | .rdcsr n => Laws.EncodesWellFormed.rdcsr n
  | .zwr zd => Laws.EncodesWellFormed.zwr zd
  | .zrd za => Laws.EncodesWellFormed.zrd za
  | .zld zd idx => Laws.EncodesWellFormed.zld zd idx
  | .zst za idx => Laws.EncodesWellFormed.zst za idx
  | .cadd zd za zb => Laws.EncodesWellFormed.cadd zd za zb
  | .cmul zd za zb => Laws.EncodesWellFormed.cmul zd za zb
  | .cdivr zd za n => Laws.EncodesWellFormed.cdivr zd za n
  | .twid zd i sz => Laws.EncodesWellFormed.twid zd i sz
  | .xsetlen n => Laws.EncodesWellFormed.xsetlen n
  | .xwr idx => Laws.EncodesWellFormed.xwr idx
  | .xrd idx => Laws.EncodesWellFormed.xrd idx
  | .pad => Laws.EncodesWellFormed.pad
  | .fft => Laws.EncodesWellFormed.fft
  | .ifft => Laws.EncodesWellFormed.ifft
  | .ztail k => Laws.EncodesWellFormed.ztail k
  | .load => Laws.EncodesWellFormed.load
  | .save => Laws.EncodesWellFormed.save
  | .extract => Laws.EncodesWellFormed.extract
  | .update => Laws.EncodesWellFormed.update
  | .psetlen n => Laws.EncodesWellFormed.psetlen n
  | .pwr idx => Laws.EncodesWellFormed.pwr idx
  | .prd idx => Laws.EncodesWellFormed.prd idx
  | .lift => Laws.EncodesWellFormed.lift
  | .quant count => Laws.EncodesWellFormed.quant count

/-- The register fields, of those given, that the row's command does not use. -/
def OpcodeRow.unusedRegisters (r : OpcodeRow) (zd za zb : Nat) : List Nat :=
  (if r.usesZd then [] else [zd]) ++ (if r.usesZa then [] else [za]) ++
    (if r.usesZb then [] else [zb])

/-- `ARG`, if the row's command does not use it. -/
def OpcodeRow.unusedArg (r : OpcodeRow) (arg : BitVec 64) : Option (BitVec 64) :=
  if r.usesArg then none else some arg

theorem forall_mem_unused (used : Bool) (n : Nat) :
    (∀ m ∈ (if used then [] else [n]), m = 0) ↔ used = true ∨ n = 0 := by
  cases used <;> simp

theorem OpcodeRow.unusedRegisters_zero_iff (r : OpcodeRow) (zd za zb : Nat) :
    (∀ n ∈ r.unusedRegisters zd za zb, n = 0) ↔
      (r.usesZd = true ∨ zd = 0) ∧ (r.usesZa = true ∨ za = 0) ∧ (r.usesZb = true ∨ zb = 0) := by
  rw [OpcodeRow.unusedRegisters, List.forall_mem_append, List.forall_mem_append,
    forall_mem_unused, forall_mem_unused, forall_mem_unused, and_assoc]

theorem OpcodeRow.unusedArg_zero_iff (r : OpcodeRow) (arg : BitVec 64) :
    (∀ b, r.unusedArg arg = some b → b = 0#64) ↔ r.usesArg = true ∨ arg = 0#64 := by
  unfold OpcodeRow.unusedArg
  cases r.usesArg <;> simp

/-- The decoder follows the opcode map: on a row's opcode it checks the fields which that row does not
use. -/
theorem decodeOp_row {r : OpcodeRow} (hr : r ∈ opcodeMap) (zd za zb : Nat) (arg : BitVec 64) :
    ∃ i, decodeOp r.op zd za zb arg =
      requireZero (r.unusedRegisters zd za zb) (r.unusedArg arg) i := by
  fin_cases hr <;> exact ⟨_, rfl⟩

theorem op_lt_of_mem_opcodeMap : ∀ r ∈ opcodeMap, r.op < 2 ^ 8 := by decide

/-- What it means that a row selects a request, by the fields of the request. -/
theorem OpcodeRow.selects_iff {r : OpcodeRow} (hop : r.op < 2 ^ 8) (cmd : BitVec 32)
    (arg : BitVec 64) :
    r.selects cmd arg = true ↔ fieldReserved cmd = 0 ∧ fieldOp cmd = r.op ∧
      (∀ n ∈ r.unusedRegisters (fieldZd cmd) (fieldZa cmd) (fieldZb cmd), n = 0) ∧
      ∀ b, r.unusedArg arg = some b → b = 0#64 := by
  simp only [OpcodeRow.selects, Bool.and_eq_true, Bool.or_eq_true,
    extractLsb'_beq_ofNat _ _ _ hop, extractLsb'_beq_ofNat _ _ _ (Nat.two_pow_pos _), beq_iff_eq,
    r.unusedRegisters_zero_iff, r.unusedArg_zero_iff, fieldReserved, fieldOp, fieldZd, fieldZa,
    fieldZb, and_assoc]

theorem decode_of_selects {r : OpcodeRow} (hr : r ∈ opcodeMap) {cmd : BitVec 32} {arg : BitVec 64}
    (hs : r.selects cmd arg = true) : ∃ i, decode cmd arg = .ok i := by
  obtain ⟨hreserved, hop, hregs, harg⟩ :=
    (OpcodeRow.selects_iff (op_lt_of_mem_opcodeMap r hr) cmd arg).1 hs
  obtain ⟨i, hi⟩ := decodeOp_row hr (fieldZd cmd) (fieldZa cmd) (fieldZb cmd) arg
  refine ⟨i, ?_⟩
  rw [decode, if_neg (not_not.2 hreserved), hop, hi, requireZero_of_zero i hregs harg]

theorem decode_ok_iff_wellFormed (cmd : BitVec 32) (arg : BitVec 64) :
    (∃ i, decode cmd arg = .ok i) ↔ wellFormedRequest cmd arg = true := by
  constructor
  · rintro ⟨i, hi⟩
    have hwf := encode_wellFormed i
    rwa [encode_of_decode hi] at hwf
  · intro hwf
    obtain ⟨r, hr, hs⟩ := List.any_eq_true.1 hwf
    exact decode_of_selects hr hs

theorem decode_error_of_not_wellFormed {cmd : BitVec 32} {arg : BitVec 64}
    (h : wellFormedRequest cmd arg = false) : ∃ e, decode cmd arg = .error e := by
  cases hd : decode cmd arg with
  | error e => exact ⟨e, rfl⟩
  | ok i => simp [(decode_ok_iff_wellFormed cmd arg).1 ⟨i, hd⟩] at h

/-- Settles O2: the decoder accepts what some row of the opcode map selects, and its word is made of
its fields. -/
theorem eachWellFormedRequestSelectsOneCommand :
    Obligations.EachWellFormedRequestSelectsOneCommand :=
  fun cmd arg => ⟨decode_ok_iff_wellFormed cmd arg, fun _ => encode_of_decode⟩

end Sys2Proof
end

section
/-! Requests and their responses (30_encoding R80, R83, R84, R95). Every command but `RST` runs in one
of the two frames `State.command` and `State.readCommand`, and only `SAVE` puts bytes on the sink
(`exec_frame`); with what a command leaves (`exec_leaves`) this gives the one response of a request
(`OneResponse`). -/

namespace Sys2Proof.Machine

variable {s t u : State} {i : Instr} {r : Except ErrCode Effect}

/-! ### The step on a request -/

theorem step_of_decode_ok {q : Request} {rest : List HostMove} (hs : s.host = .request q :: rest)
    (hd : decode q.cmd q.arg = .ok i) : step s = exec i (s.present q rest) := by
  rw [step, State.receive_command hs hd]

theorem step_of_decode_error {q : Request} {rest : List HostMove} {e : DecodeError}
    (hs : s.host = .request q :: rest) (hd : decode q.cmd q.arg = .error e) :
    step s = .next (s.present q rest).illegalRequest := by
  rw [step, State.receive_illegal hs hd]

/-- Settles O4: what a step receives is the decoded command. -/
theorem stepRunsTheDecodedCommand : Obligations.StepRunsTheDecodedCommand :=
  fun _ _ _ _ hs hd => step_of_decode_ok hs hd

/-- Settles O5: a request that is not well-formed is not decoded, and `State.illegalRequest` raises
`E_ILLEGAL` or refuses. -/
theorem stepAnswersAnIllegalRequest : Obligations.StepAnswersAnIllegalRequest := by
  intro s q rest hs hwf
  obtain ⟨e, he⟩ := decode_error_of_not_wellFormed hwf
  have hstep := step_of_decode_error hs he
  obtain ⟨hhalt, heq⟩ | ⟨hrun, heq⟩ := State.illegalRequest_cases (s := s.present q rest)
  · have hhalt : s.halt = true := hhalt
    refine ⟨fun hrun => by simp [hhalt] at hrun, fun _ => ?_⟩
    rw [hstep, heq]; rfl
  · have hrun : s.halt = false := hrun
    refine ⟨fun _ => ?_, fun hhalt => by simp [hrun] at hhalt⟩
    rw [hstep, heq]; rfl

/-! ### Outcomes without a sink -/

/-- An outcome that, if it is no error, delivers nothing to the sink. -/
def SilentIfOk (r : Except ErrCode Effect) : Prop := ∀ e, r = .ok e → e.sink = none

theorem silentIfOk_error (c : ErrCode) : SilentIfOk (.error c) := fun _ h => nomatch h

theorem silentIfOk_wrote (u : State) : SilentIfOk (wrote u) := by rintro _ ⟨⟩; rfl

theorem silentIfOk_answered (s : State) (dout : BitVec 128) : SilentIfOk (answered s dout) := by
  rintro _ ⟨⟩; rfl

theorem silentIfOk_check {p : Prop} [Decidable p] {c : ErrCode} (h : SilentIfOk r) :
    SilentIfOk (if p then .error c else r) := by
  by_cases hp : p
  · rw [if_pos hp]; exact silentIfOk_error c
  · rw [if_neg hp]; exact h

theorem silentIfOk_bind {α : Type} (x : Except ErrCode α) {f : α → Except ErrCode Effect}
    (h : ∀ a, SilentIfOk (f a)) : SilentIfOk (x.bind f) := by
  cases x with
  | error c => exact silentIfOk_error c
  | ok a => exact h a

/-! ### The frame of every command -/

/-- Every command but `RST` runs in a frame, on an outcome that delivers nothing to the sink unless
the command is `SAVE`. -/
theorem exec_frame (i : Instr) (s : State) (hi : i ≠ .rst) :
    ∃ r, (exec i s = s.command r ∨ exec i s = s.readCommand r) ∧ (i ≠ .save → SilentIfOk r) := by
  cases i with
  | rst => exact absurd rfl hi
  | rdcsr n =>
    exact ⟨_, .inr rfl, fun _ => silentIfOk_bind _ fun _ => silentIfOk_answered _ _⟩
  | zwr d => exact ⟨_, .inl rfl, fun _ => silentIfOk_wrote _⟩
  | zrd a => exact ⟨_, .inl rfl, fun _ => silentIfOk_answered _ _⟩
  | zld d k => exact ⟨_, .inl rfl, fun _ => silentIfOk_check (silentIfOk_wrote _)⟩
  | zst a k => exact ⟨_, .inl rfl, fun _ => silentIfOk_check (silentIfOk_wrote _)⟩
  | cadd d a b => exact ⟨_, .inl rfl, fun _ => silentIfOk_wrote _⟩
  | cmul d a b => exact ⟨_, .inl rfl, fun _ => silentIfOk_wrote _⟩
  | cdivr d a n => exact ⟨_, .inl rfl, fun _ => silentIfOk_wrote _⟩
  | twid d k n => exact ⟨_, .inl rfl, fun _ => silentIfOk_wrote _⟩
  | xsetlen n => exact ⟨_, .inl rfl, fun _ => silentIfOk_check (silentIfOk_wrote _)⟩
  | xwr k => exact ⟨_, .inl rfl, fun _ => silentIfOk_check (silentIfOk_wrote _)⟩
  | xrd k => exact ⟨_, .inl rfl, fun _ => silentIfOk_check (silentIfOk_answered _ _)⟩
  | pad => exact ⟨_, .inl rfl, fun _ => silentIfOk_wrote _⟩
  | fft => exact ⟨_, .inl rfl, fun _ => silentIfOk_wrote _⟩
  | ifft => exact ⟨_, .inl rfl, fun _ => silentIfOk_wrote _⟩
  | ztail k => exact ⟨_, .inl rfl, fun _ => silentIfOk_check (silentIfOk_wrote _)⟩
  | load =>
    refine ⟨_, .inl rfl, fun _ => ?_⟩
    cases s.inputs.source with
    | absent => exact silentIfOk_error _
    | present bytes => exact silentIfOk_bind _ fun _ => silentIfOk_wrote _
  | save => exact ⟨_, .inl rfl, fun hsave => absurd rfl hsave⟩
  | extract => exact ⟨_, .inl rfl, fun _ => silentIfOk_check (silentIfOk_wrote _)⟩
  | update =>
    exact ⟨_, .inl rfl, fun _ => silentIfOk_check (silentIfOk_check (silentIfOk_wrote _))⟩
  | psetlen n => exact ⟨_, .inl rfl, fun _ => silentIfOk_check (silentIfOk_wrote _)⟩
  | pwr k => exact ⟨_, .inl rfl, fun _ => silentIfOk_check (silentIfOk_wrote _)⟩
  | prd k => exact ⟨_, .inl rfl, fun _ => silentIfOk_check (silentIfOk_answered _ _)⟩
  | lift => exact ⟨_, .inl rfl, fun _ => silentIfOk_check (silentIfOk_wrote _)⟩
  | quant n =>
    exact ⟨_, .inl rfl, fun _ => silentIfOk_check (silentIfOk_check
      (silentIfOk_bind _ fun _ => silentIfOk_wrote _))⟩

theorem State.readCommand_next (r : Except ErrCode Effect) : ∃ t, s.readCommand r = .next t := by
  cases r with
  | ok e => exact ⟨_, rfl⟩
  | error c => exact ⟨_, rfl⟩

/-- Every command answers a next state. -/
theorem exec_next (i : Instr) (s : State) : ∃ t, exec i s = .next t := by
  by_cases hi : i = .rst
  · subst hi; exact ⟨_, rfl⟩
  · obtain ⟨r, heq | heq, -⟩ := exec_frame i s hi
    · rw [heq]; exact State.command_next r
    · rw [heq]; exact State.readCommand_next r

theorem SilentIfOk.lastResponse (hr : SilentIfOk r)
    (h : s.command r = .next t ∨ s.readCommand r = .next t) :
    ∃ l rsp dout, t.responses = l ++ [⟨rsp, dout, none⟩] := by
  rcases h with h | h
  · obtain ⟨-, rfl⟩ | ⟨-, e, he, rfl⟩ | ⟨-, c, -, rfl⟩ := State.command_cases h
    · exact ⟨_, _, _, rfl⟩
    · exact ⟨_, _, _, by rw [State.answer_responses, hr e he]⟩
    · exact ⟨_, _, _, rfl⟩
  · obtain ⟨e, he, rfl⟩ | ⟨-, -, rfl⟩ | ⟨-, c, -, rfl⟩ := State.readCommand_cases h
    · exact ⟨_, _, _, by rw [State.answer_responses, hr e he]⟩
    · exact ⟨_, _, _, rfl⟩
    · exact ⟨_, _, _, rfl⟩

theorem exec_lastResponse (hi : i ≠ .save) (h : exec i s = .next t) :
    ∃ l rsp dout, t.responses = l ++ [⟨rsp, dout, none⟩] := by
  by_cases hrst : i = .rst
  · subst hrst
    cases h
    exact ⟨_, _, _, rfl⟩
  · obtain ⟨r, heq, hr⟩ := exec_frame i s hrst
    exact (hr hi).lastResponse (heq.imp (·.symm.trans h) (·.symm.trans h))

/-- Only `SAVE` delivers bytes to the sink (42_container R180). -/
theorem exec_sink (h : exec i s = .next t) {l : List Response} {a : Response}
    (ha : t.responses = l ++ [a]) (hsink : a.sink.isSome) : i = .save := by
  by_contra hi
  obtain ⟨l', rsp, dout, hlast⟩ := exec_lastResponse hi h
  obtain ⟨-, rfl⟩ : l = l' ∧ a = ⟨rsp, dout, none⟩ := by simpa using ha.symm.trans hlast
  cases hsink

/-! ### The one response -/

/-- The engine has answered the request that decodes to `d`, on the ports in `s`, with exactly one
response `a`, and `a` is as R83 and R84 of 30_encoding say. -/
structure OneResponse (s t : State) (d : Except DecodeError Instr) (a : Response) : Prop where
  host : t.host = s.host
  responses : t.responses = s.responses ++ [a]
  error : a.rsp = .error → s.halt = false ∧ t.halt = true ∧ a.dout = t.err.setWidth 128
  refused : a.rsp = .refused → s.halt = true ∧ a.dout = 0#128 ∧ s.SameEngine t
  sink : a.sink.isSome → a.rsp = .ok ∧ d = .ok .save
  rst : d = .ok .rst → a = ⟨.ok, 0#128, none⟩

variable {d : Except DecodeError Instr}

theorem OneResponse.refuse (hhalt : s.halt = true) (hd : d ≠ .ok .rst) :
    OneResponse s s.refuse d ⟨.refused, 0#128, none⟩ where
  host := rfl
  responses := rfl
  error := nofun
  refused _ := ⟨hhalt, rfl, { State.SameEngine.refl s with }⟩
  sink := nofun
  rst h := absurd h hd

theorem OneResponse.raise (hrun : s.halt = false) (c : ErrCode) (hd : d ≠ .ok .rst) :
    OneResponse s (s.raise c) d ⟨.error, c.code.setWidth 128, none⟩ where
  host := rfl
  responses := rfl
  error _ := ⟨hrun, rfl, rfl⟩
  refused := nofun
  sink := nofun
  rst h := absurd h hd

theorem OneResponse.reset : OneResponse s (s.resetEngine.respond 0#128) d ⟨.ok, 0#128, none⟩ where
  host := rfl
  responses := rfl
  error := nofun
  refused := nofun
  sink := nofun
  rst _ := rfl

theorem Writes.responses (h : Writes s i u) : u.responses = s.responses := by cases h <;> rfl

theorem OneResponse.completed (hu : Writes s i u) {dout : BitVec 128} {sink : Option (List Byte)}
    (h : exec i s = .next (u.answer .ok dout sink)) (hi : i ≠ .rst) :
    OneResponse s (u.answer .ok dout sink) (.ok i) ⟨.ok, dout, sink⟩ where
  host := by
    obtain ⟨-, -, hhost, -⟩ := hu.keeps
    exact hhost
  responses := by rw [State.answer_responses, hu.responses]
  error := nofun
  refused := nofun
  sink hsink := ⟨rfl, congrArg Except.ok (exec_sink h (State.answer_responses ..) hsink)⟩
  rst hd := absurd (Except.ok.inj hd) hi

theorem exec_oneResponse (h : exec i s = .next t) : ∃ a, OneResponse s t (.ok i) a := by
  by_cases hi : i = .rst
  · subst hi
    cases h
    exact ⟨_, .reset⟩
  · have hd : Except.ok i ≠ (.ok .rst : Except DecodeError Instr) := fun hd =>
      hi (Except.ok.inj hd)
    cases exec_leaves h with
    | reset hrst => exact absurd hrst hi
    | refused hhalt => exact ⟨_, .refuse hhalt hd⟩
    | raised hrun c => exact ⟨_, .raise hrun c hd⟩
    | completed hu dout sink => exact ⟨_, .completed hu h hi⟩

theorem State.illegalRequest_oneResponse (s : State) (e : DecodeError) :
    ∃ a, OneResponse s s.illegalRequest (.error e) a := by
  obtain ⟨hhalt, heq⟩ | ⟨hrun, heq⟩ := State.illegalRequest_cases (s := s)
  · rw [heq]; exact ⟨_, .refuse hhalt nofun⟩
  · rw [heq]; exact ⟨_, .raise hrun _ nofun⟩

theorem step_oneResponse {q : Request} {rest : List HostMove}
    (hs : s.host = .request q :: rest) :
    ∃ t a, step s = .next t ∧ OneResponse (s.present q rest) t (decode q.cmd q.arg) a := by
  cases hd : decode q.cmd q.arg with
  | ok i =>
    obtain ⟨t, ht⟩ := exec_next i (s.present q rest)
    obtain ⟨a, ha⟩ := exec_oneResponse ht
    exact ⟨t, a, (step_of_decode_ok hs hd).trans ht, ha⟩
  | error e =>
    obtain ⟨a, ha⟩ := (s.present q rest).illegalRequest_oneResponse e
    exact ⟨_, a, step_of_decode_error hs hd, ha⟩

/-- Settles O8, by what a command can leave (`exec_leaves`) and one lemma per kind of response.
Presenting the request changes neither the engine nor the responses. -/
theorem everyRequestGetsOneResponse : Obligations.EveryRequestGetsOneResponse := by
  intro s q rest hs
  obtain ⟨t, a, hstep, ha⟩ := step_oneResponse hs
  refine ⟨t, a, hstep, ha.host, ha.responses, ha.error, fun h => ?_, ha.sink, ha.rst⟩
  obtain ⟨hhalt, hdout, hsame⟩ := ha.refused h
  exact ⟨hhalt, hdout, { hsame with }⟩

end Sys2Proof.Machine
end

section
/-! Binary64 values by their sign and their bits 62:0 (40_complex_alu R111; 30_encoding R83): the
bits 62:0 decide the class of a value, and the exact value decides the bits. So a fraction that is a
binary64 value rounds to itself (`roundRatio_exact`), which every exactness law of R112 comes down
to. -/

namespace Sys2Proof.Machine

/-! ### Sign and magnitude bits -/

/-- Bits 62:0 of a value: its exponent and its fraction. -/
def f64Low (x : F64) : Nat := x.toNat % 2 ^ 63

theorem f64Low_lt (x : F64) : f64Low x < 2 ^ 63 := Nat.mod_lt _ (by decide)

theorem f64Exp_eq (x : F64) : f64Exp x = f64Low x / 2 ^ 52 := by
  simp only [f64Exp, f64Low]; omega

theorem f64Frac_eq (x : F64) : f64Frac x = f64Low x % 2 ^ 52 := by
  simp only [f64Frac, f64Low]; omega

theorem f64Low_pack (neg : Bool) {low : Nat} (h : low < 2 ^ 63) :
    f64Low (f64Pack neg low) = low := by
  rw [f64Low, f64Pack_toNat neg h]
  cases neg <;> simp <;> omega

/-- A value is its sign and its bits 62:0. -/
@[simp] theorem f64Pack_sign_low (x : F64) : f64Pack (f64Sign x) (f64Low x) = x := by
  apply BitVec.eq_of_toNat_eq
  rw [f64Pack_toNat _ (f64Low_lt x), f64Low]
  have := x.isLt
  by_cases h : 2 ^ 63 ≤ x.toNat
  · simp only [f64Sign, h, decide_true, if_true]; omega
  · simp only [f64Sign, h, decide_false, Bool.false_eq_true, if_false]; omega

theorem f64_ext {x y : F64} (hsign : f64Sign x = f64Sign y) (hlow : f64Low x = f64Low y) :
    x = y := by
  rw [← f64Pack_sign_low x, ← f64Pack_sign_low y, hsign, hlow]

/-! ### Classes -/

theorem f64IsNaN_iff (x : F64) : f64IsNaN x = true ↔ f64InfLow < f64Low x := by
  have := f64Low_lt x
  simp only [f64IsNaN, f64Exp_eq, f64Frac_eq, f64InfLow, Bool.and_eq_true, beq_iff_eq, bne_iff_ne]
  omega

theorem f64IsInf_iff (x : F64) : f64IsInf x = true ↔ f64Low x = f64InfLow := by
  simp only [f64IsInf, f64Exp_eq, f64Frac_eq, f64InfLow, Bool.and_eq_true, beq_iff_eq]
  omega

theorem f64IsFinite_iff (x : F64) : f64IsFinite x = true ↔ f64Low x < f64InfLow := by
  have := f64Low_lt x
  simp only [f64IsFinite, f64Exp_eq, f64InfLow, bne_iff_ne]
  omega

theorem f64IsZero_iff (x : F64) : f64IsZero x = true ↔ f64Low x = 0 := by
  simp only [f64IsZero, f64Exp_eq, f64Frac_eq, Bool.and_eq_true, beq_iff_eq]
  omega

/-- The three classes exclude each other, and there is no other. -/
inductive F64Class (x : F64) : Prop
  | nan (isNaN : f64IsNaN x = true) (isInf : f64IsInf x = false) (isFinite : f64IsFinite x = false)
      (isZero : f64IsZero x = false)
  | inf (isNaN : f64IsNaN x = false) (isInf : f64IsInf x = true) (isFinite : f64IsFinite x = false)
      (isZero : f64IsZero x = false)
  | finite (isNaN : f64IsNaN x = false) (isInf : f64IsInf x = false)
      (isFinite : f64IsFinite x = true)

theorem f64_class (x : F64) : F64Class x := by
  have hNaN := f64IsNaN_iff x
  have hInf := f64IsInf_iff x
  have hFinite := f64IsFinite_iff x
  have hZero := f64IsZero_iff x
  have : 0 < f64InfLow := by decide
  rcases Nat.lt_trichotomy f64InfLow (f64Low x) with h | h | h
  · exact .nan (hNaN.2 h) (by grind) (by grind) (by grind)
  · exact .inf (by grind) (hInf.2 h.symm) (by grind) (by grind)
  · exact .finite (by grind) (by grind) (hFinite.2 h)

theorem f64IsNaN_of_finite {x : F64} (h : f64IsFinite x = true) : f64IsNaN x = false := by
  cases f64_class x <;> simp_all

theorem f64IsInf_of_finite {x : F64} (h : f64IsFinite x = true) : f64IsInf x = false := by
  cases f64_class x <;> simp_all

theorem f64IsNaN_of_inf {x : F64} (h : f64IsInf x = true) : f64IsNaN x = false := by
  cases f64_class x <;> simp_all

theorem f64IsZero_of_inf {x : F64} (h : f64IsInf x = true) : f64IsZero x = false := by
  cases f64_class x <;> simp_all

theorem f64IsFinite_of_isZero {x : F64} (h : f64IsZero x = true) : f64IsFinite x = true := by
  cases f64_class x <;> simp_all

@[simp] theorem f64IsNaN_neg (x : F64) : f64IsNaN (f64Neg x) = f64IsNaN x := by
  simp only [f64IsNaN, f64Exp_neg, f64Frac_neg]

@[simp] theorem f64IsInf_neg (x : F64) : f64IsInf (f64Neg x) = f64IsInf x := by
  simp only [f64IsInf, f64Exp_neg, f64Frac_neg]

@[simp] theorem f64IsZero_neg (x : F64) : f64IsZero (f64Neg x) = f64IsZero x := by
  simp only [f64IsZero, f64Exp_neg, f64Frac_neg]

theorem f64Low_inf (neg : Bool) : f64Low (f64Inf neg) = f64InfLow := f64Low_pack neg (by decide)

@[simp] theorem f64IsNaN_inf (neg : Bool) : f64IsNaN (f64Inf neg) = false :=
  f64IsNaN_of_inf ((f64IsInf_iff _).2 (f64Low_inf neg))

/-- There is one infinity of each sign. -/
theorem f64Inf_sign {x : F64} (h : f64IsInf x = true) : f64Inf (f64Sign x) = x := by
  rw [f64Inf, ← (f64IsInf_iff x).1 h, f64Pack_sign_low]

@[simp] theorem f64IsNaN_producedNaN (op : Config.FpOp) (a b : F64) :
    f64IsNaN (producedNaN op a b) = true := by
  have := (Config.nanPayload op a b).isLt
  have hlow : f64InfLow + (if (Config.nanPayload op a b).toNat = 0 then 1
      else (Config.nanPayload op a b).toNat) < 2 ^ 63 := by
    simp only [f64InfLow]; split <;> omega
  rw [f64IsNaN_iff, producedNaN, f64Low_pack _ hlow]
  split <;> omega

/-! ### Exact values -/

theorem f64IsZero_iff_mag (x : F64) : f64IsZero x = true ↔ f64Mag x = 0 := by
  rw [f64IsZero_iff, f64Mag, f64Exp_eq, f64Frac_eq]
  split
  · omega
  · exact iff_of_false (by omega) (Nat.mul_ne_zero (by omega) (Nat.two_pow_pos _).ne')

theorem natAbs_f64Scaled (x : F64) : (f64Scaled x).natAbs = f64Mag x := by
  unfold f64Scaled; split <;> simp

theorem f64Scaled_of_sign_false {x : F64} (h : f64Sign x = false) : f64Scaled x = f64Mag x := by
  rw [f64Scaled, h, if_neg Bool.false_ne_true]

theorem f64Scaled_of_sign_true {x : F64} (h : f64Sign x = true) :
    f64Scaled x = -(f64Mag x : Int) := by
  rw [f64Scaled, if_pos h]

theorem f64Mag_le (x : F64) : f64Mag x ≤ (2 ^ 53 - 1) * 2 ^ (f64Exp x - 1) := by
  have hfrac : f64Frac x < 2 ^ 52 := Nat.mod_lt _ (by decide)
  unfold f64Mag
  split
  · have : f64Frac x ≤ 2 ^ 53 - 1 := by omega
    exact this.trans (Nat.le_mul_of_pos_right _ (Nat.two_pow_pos _))
  · exact Nat.mul_le_mul_right _ (by omega)

theorem le_f64Mag {x : F64} (h : 0 < f64Exp x) : 2 ^ 52 * 2 ^ (f64Exp x - 1) ≤ f64Mag x := by
  rw [f64Mag, if_neg h.ne']
  exact Nat.mul_le_mul_right _ (Nat.le_add_right _ _)

/-- A greater exponent is a greater magnitude: the binades lie one above the other. -/
theorem f64Mag_lt_of_exp_lt {x y : F64} (h : f64Exp x < f64Exp y) : f64Mag x < f64Mag y := by
  by_cases hx : f64Exp x = 0
  · have hfrac : f64Frac x < 2 ^ 52 := Nat.mod_lt _ (by decide)
    rw [f64Mag, if_pos hx]
    exact hfrac.trans_le ((Nat.le_mul_of_pos_right _ (Nat.two_pow_pos _)).trans
      (le_f64Mag (Nat.zero_lt_of_lt h)))
  · obtain ⟨e, he⟩ := Nat.exists_eq_succ_of_ne_zero hx
    calc f64Mag x ≤ (2 ^ 53 - 1) * 2 ^ e := by simpa [he] using f64Mag_le x
      _ < 2 ^ 53 * 2 ^ e := Nat.mul_lt_mul_of_pos_right (by decide) (Nat.two_pow_pos _)
      _ = 2 ^ 52 * 2 ^ (e + 1) := by rw [pow_succ 2 e]; ring
      _ ≤ 2 ^ 52 * 2 ^ (f64Exp y - 1) :=
          Nat.mul_le_mul_left _ (Nat.pow_le_pow_right (by decide) (by omega))
      _ ≤ f64Mag y := le_f64Mag (Nat.zero_lt_of_lt h)

/-- The magnitude decides the bits 62:0. -/
theorem f64Low_eq_of_mag {x y : F64} (h : f64Mag x = f64Mag y) : f64Low x = f64Low y := by
  have hexp : f64Exp x = f64Exp y := by
    rcases Nat.lt_trichotomy (f64Exp x) (f64Exp y) with hlt | heq | hlt
    · exact absurd h (f64Mag_lt_of_exp_lt hlt).ne
    · exact heq
    · exact absurd h (f64Mag_lt_of_exp_lt hlt).ne'
  have hfrac : f64Frac x = f64Frac y := by
    unfold f64Mag at h
    rw [hexp] at h
    split at h
    · exact h
    · exact Nat.add_left_cancel (Nat.eq_of_mul_eq_mul_right (Nat.two_pow_pos _) h)
  rw [f64Exp_eq, f64Exp_eq] at hexp
  rw [f64Frac_eq, f64Frac_eq] at hfrac
  omega

/-- A finite magnitude is below the bound from which rounding overflows. -/
theorem f64Mag_lt_overflow {x : F64} (h : f64IsFinite x = true) :
    f64Mag x < (2 ^ 54 - 1) * 2 ^ 2044 := by
  have hexp : f64Exp x ≤ 2046 := by
    have := (f64IsFinite_iff x).1 h
    rw [f64Exp_eq]
    simp only [f64InfLow] at this
    omega
  calc f64Mag x ≤ (2 ^ 53 - 1) * 2 ^ (f64Exp x - 1) := f64Mag_le x
    _ ≤ (2 ^ 53 - 1) * 2 ^ (2044 + 1) :=
        Nat.mul_le_mul_left _ (Nat.pow_le_pow_right (by decide) (by omega))
    _ = (2 ^ 54 - 2) * 2 ^ 2044 := by rw [pow_succ 2 2044]; ring
    _ < (2 ^ 54 - 1) * 2 ^ 2044 := Nat.mul_lt_mul_of_pos_right (by decide) (Nat.two_pow_pos 2044)

/-- Every number of at most 53 bits times a power of two is a binary64 value, within the range of
the exponents. -/
theorem exists_f64_of_mag (neg : Bool) {q m : Nat} (hm : m ≤ 2 ^ 53)
    (hl : q * 2 ^ 52 + m < f64InfLow) :
    ∃ x : F64, f64IsFinite x = true ∧ f64Sign x = neg ∧ f64Mag x = m * 2 ^ q := by
  induction q generalizing m with
  | zero =>
    have hlow : 0 * 2 ^ 52 + m < 2 ^ 63 := by simp only [f64InfLow] at hl; omega
    exact ⟨_, by rwa [f64IsFinite_iff, f64Low_pack neg hlow], f64Sign_pack neg hlow,
      f64Mag_pack neg hm (by omega) hl⟩
  | succ q ih =>
    by_cases hnormal : 2 ^ 52 ≤ m
    · have hlow : (q + 1) * 2 ^ 52 + m < 2 ^ 63 := by simp only [f64InfLow] at hl; omega
      exact ⟨_, by rwa [f64IsFinite_iff, f64Low_pack neg hlow], f64Sign_pack neg hlow,
        f64Mag_pack neg hm (fun _ => hnormal) hl⟩
    · have hl' : q * 2 ^ 52 + 2 * m < f64InfLow := by
        rw [Nat.add_mul, Nat.one_mul] at hl
        generalize q * 2 ^ 52 = a at *
        omega
      obtain ⟨x, hfin, hsign, hmag⟩ := ih (m := 2 * m) (by omega) hl'
      exact ⟨x, hfin, hsign, by rw [hmag, pow_succ 2 q, Nat.mul_comm 2 m, Nat.mul_assoc,
        Nat.mul_comm 2]⟩

/-! ### Rounding what needs no rounding -/

theorem roundMag_le (num den : Nat) : roundMag num den ≤ f64InfLow := Nat.min_le_right _ _

theorem roundMag_lt (num den : Nat) : roundMag num den < 2 ^ 63 :=
  (roundMag_le num den).trans_lt (by decide)

@[simp] theorem f64Low_roundRatio (neg : Bool) (num den : Nat) :
    f64Low (roundRatio neg num den) = roundMag num den := f64Low_pack neg (roundMag_lt num den)

@[simp] theorem f64Sign_roundRatio (neg : Bool) (num den : Nat) :
    f64Sign (roundRatio neg num den) = neg := f64Sign_pack neg (roundMag_lt num den)

@[simp] theorem f64IsNaN_roundRatio (neg : Bool) (num den : Nat) :
    f64IsNaN (roundRatio neg num den) = false := by
  rw [Bool.eq_false_iff, ne_eq, f64IsNaN_iff, f64Low_roundRatio]
  exact Nat.not_lt.2 (roundMag_le num den)

/-- A finite value rounds to itself, up to the sign of a zero. -/
theorem RoundsTo.exact {r x : F64} {num : Int} {den : Nat} (h : RoundsTo r num den) (hd : 0 < den)
    (hx : f64IsFinite x = true) (hnum : num = f64Scaled x * den) :
    f64IsFinite r = true ∧ f64Scaled r = f64Scaled x := by
  have hlt : num.natAbs < (2 ^ 54 - 1) * 2 ^ 2044 * den := by
    rw [hnum, Int.natAbs_mul, natAbs_f64Scaled, Int.natAbs_natCast]
    exact Nat.mul_lt_mul_of_pos_right (f64Mag_lt_overflow hx) hd
  obtain ⟨hfinite, hnearest⟩ := h.2 hlt
  have hdist := (hnearest x hx).1
  rw [hnum, sub_self, Int.natAbs_zero, Nat.le_zero, Int.natAbs_eq_zero, sub_eq_zero] at hdist
  exact ⟨hfinite, Int.eq_of_mul_eq_mul_right (by omega) hdist⟩

/-- The exact value and the sign decide a value. -/
theorem f64_eq_of_scaled {x y : F64} (hsign : f64Sign x = f64Sign y)
    (h : f64Scaled x = f64Scaled y) : x = y := by
  refine f64_ext hsign (f64Low_eq_of_mag ?_)
  rw [← natAbs_f64Scaled, h, natAbs_f64Scaled]

/-- A fraction that is the magnitude of a finite value rounds to that value. -/
theorem roundRatio_exact {neg : Bool} {num den : Nat} {x : F64} (hd : 0 < den)
    (hx : f64IsFinite x = true) (hsign : f64Sign x = neg)
    (h : num * 2 ^ 1074 = f64Mag x * den) : roundRatio neg num den = x := by
  obtain ⟨hround, hneg⟩ := roundRatio_roundsTo neg hd h
  refine f64_eq_of_scaled (hneg.trans hsign.symm) (hround.exact hd hx ?_).2
  rw [f64Scaled, hsign]
  cases neg <;> simp

theorem roundRatio_zero (neg : Bool) {den : Nat} (hd : 0 < den) :
    roundRatio neg 0 den = f64Pack neg 0 := by
  have hlow : (0 : Nat) < 2 ^ 63 := by decide
  have hzero : f64IsZero (f64Pack neg 0) = true := (f64IsZero_iff _).2 (f64Low_pack neg hlow)
  refine roundRatio_exact hd (f64IsFinite_of_isZero hzero) (f64Sign_pack neg hlow) ?_
  rw [(f64IsZero_iff_mag _).1 hzero, Nat.zero_mul, Nat.zero_mul]

/-- What is at least the least positive value does not round to zero. -/
theorem roundMag_pos {num den : Nat} (hd : 0 < den) (h : den ≤ num * 2 ^ 1074) :
    0 < roundMag num den := by
  obtain ⟨q, m, r, hm, hq, hr, hN, hR⟩ := roundMag_parts hd rfl
  have hge := (roundTiesEven_bounds m r (den * 2 ^ q)).1
  rw [hR]
  refine lt_min ?_ (by decide)
  rcases Nat.eq_zero_or_pos q with rfl | hpos
  · rw [pow_zero, Nat.mul_one] at *
    have : m ≠ 0 := by
      rintro rfl
      rw [hN, Nat.zero_mul, Nat.zero_add] at h
      omega
    omega
  · have := hq hpos; omega

end Sys2Proof.Machine
end

section
/-! The four operations of the default `Num` by the classes of their operands (40_complex_alu R111,
R113): one equation per case, an operation on finite values being one rounding of its exact
result. -/

namespace Sys2Proof.Machine

variable {a b n : F64}

/-- An integer by its sign and its magnitude. -/
theorem ite_neg_natAbs (v : Int) :
    (if decide (v < 0) then -(v.natAbs : Int) else v.natAbs) = v := by
  by_cases hneg : v < 0
  · simp only [hneg, decide_true, if_true]; omega
  · simp only [hneg, decide_false, if_false, Bool.false_eq_true]; omega

/-- A rounding of an exact value given in units of `2^-1074` as a fraction of denominator `unit`. -/
theorem roundRatio_roundsTo_value {neg : Bool} {value : Int} {unit : Nat} (hu : 0 < unit)
    (hneg : (if neg then -(value.natAbs : Int) else value.natAbs) = value) :
    RoundsTo (roundRatio neg value.natAbs (unit * 2 ^ 1074)) value unit := by
  have hP := Nat.two_pow_pos 1074
  refine roundRatio_roundsTo_of_eq neg (Nat.mul_pos hu hP) hP rfl rfl ?_
  generalize 2 ^ 1074 = P at *
  conv_rhs => rw [← hneg]
  cases neg <;> simp

/-! ### Sums and differences -/

theorem f64Sum_nan (h : f64IsNaN a = true ∨ f64IsNaN b = true) : f64Sum n a b = n := by
  rw [f64Sum, if_pos (by simpa using h)]

theorem f64Sum_inf_left (ha : f64IsInf a = true) (hb : f64IsNaN b = false)
    (hsign : f64IsInf b = true → f64Sign a = f64Sign b) : f64Sum n a b = a := by
  have hsame : ¬ (f64IsInf b && f64Sign a != f64Sign b) = true := by simpa using hsign
  rw [f64Sum, f64IsNaN_of_inf ha, hb, if_neg (by decide), if_pos ha, if_neg hsame]

theorem f64Sum_inf_opposite (ha : f64IsInf a = true) (hb : f64IsInf b = true)
    (hsign : f64Sign a ≠ f64Sign b) : f64Sum n a b = n := by
  have hopposite : (f64IsInf b && f64Sign a != f64Sign b) = true := by simp [hb, hsign]
  rw [f64Sum, f64IsNaN_of_inf ha, f64IsNaN_of_inf hb, if_neg (by decide), if_pos ha,
    if_pos hopposite]

theorem f64Sum_inf_right (ha : f64IsFinite a = true) (hb : f64IsInf b = true) :
    f64Sum n a b = b := by
  rw [f64Sum, f64IsNaN_of_finite ha, f64IsNaN_of_inf hb, if_neg (by decide), f64IsInf_of_finite ha,
    if_neg Bool.false_ne_true, if_pos hb]

/-- The sign of a sum of finite values: of an exact zero, negative only where both terms are. -/
def f64SumSign (a b : F64) : Bool :=
  if f64Scaled a + f64Scaled b = 0 then f64Sign a && f64Sign b
  else decide (f64Scaled a + f64Scaled b < 0)

theorem f64SumSign_value (a b : F64) :
    (if f64SumSign a b then -((f64Scaled a + f64Scaled b).natAbs : Int)
      else (f64Scaled a + f64Scaled b).natAbs) = f64Scaled a + f64Scaled b := by
  unfold f64SumSign
  split
  · rename_i hzero
    simp [hzero]
  · exact ite_neg_natAbs _

theorem f64Sum_finite (ha : f64IsFinite a = true) (hb : f64IsFinite b = true) :
    f64Sum n a b =
      roundRatio (f64SumSign a b) (f64Scaled a + f64Scaled b).natAbs (1 * 2 ^ 1074) := by
  rw [f64Sum, f64IsNaN_of_finite ha, f64IsNaN_of_finite hb, if_neg (by decide),
    f64IsInf_of_finite ha, f64IsInf_of_finite hb, if_neg Bool.false_ne_true,
    if_neg Bool.false_ne_true, f64SumSign, Nat.one_mul]
  dsimp only
  split
  · rename_i hzero
    rw [hzero, Int.natAbs_zero, roundRatio_zero _ (Nat.two_pow_pos 1074)]
  · rfl

theorem f64Sum_roundsTo (ha : f64IsFinite a = true) (hb : f64IsFinite b = true) :
    RoundsTo (f64Sum n a b) (f64Scaled a + f64Scaled b) 1 := by
  rw [f64Sum_finite ha hb]
  exact roundRatio_roundsTo_value Nat.one_pos (f64SumSign_value a b)

theorem f64Sign_sum (ha : f64IsFinite a = true) (hb : f64IsFinite b = true)
    (hzero : f64Scaled a + f64Scaled b = 0) :
    f64Sign (f64Sum n a b) = (f64Sign a && f64Sign b) := by
  rw [f64Sum_finite ha hb, f64Sign_roundRatio, f64SumSign, if_pos hzero]

/-- Which sums are NaNs, given a NaN for them. -/
theorem f64IsNaN_sum (hn : f64IsNaN n = true) (a b : F64) :
    f64IsNaN (f64Sum n a b) = true ↔ f64IsNaN a = true ∨ f64IsNaN b = true ∨
      f64IsInf a = true ∧ f64IsInf b = true ∧ f64Sign a ≠ f64Sign b := by
  cases f64_class a with
  | nan ha => simp [f64Sum_nan (.inl ha), ha, hn]
  | inf haN ha =>
    cases f64_class b with
    | nan hb => simp [f64Sum_nan (.inr hb), hb, hn]
    | inf hbN hb =>
      by_cases hsign : f64Sign a = f64Sign b
      · simp [f64Sum_inf_left ha hbN fun _ => hsign, haN, hbN, hsign]
      · simp [f64Sum_inf_opposite ha hb hsign, ha, hb, hsign, hn]
    | finite hbN hb => simp [f64Sum_inf_left ha hbN (by simp [hb]), haN, hbN, hb]
  | finite haN ha haF =>
    cases f64_class b with
    | nan hb => simp [f64Sum_nan (.inr hb), hb, hn]
    | inf hbN hb => simp [f64Sum_inf_right haF hb, haN, hbN, ha]
    | finite hbN hb hbF => simp [f64Sum_finite haF hbF, haN, hbN, ha]

/-- Sums commute, but for the NaN they give. -/
theorem f64Sum_comm {n' : F64} (hn : f64IsNaN n = true) (h : f64IsNaN (f64Sum n a b) = false) :
    f64Sum n a b = f64Sum n' b a := by
  rw [← Bool.not_eq_true, f64IsNaN_sum hn] at h
  push Not at h
  obtain ⟨haN, hbN, hsign⟩ := h
  simp only [ne_eq, Bool.not_eq_true] at haN hbN
  cases f64_class a with
  | nan ha => simp [ha] at haN
  | inf _ ha =>
    cases f64_class b with
    | nan hb => simp [hb] at hbN
    | inf _ hb =>
      have hsame := hsign ha hb
      rw [f64Sum_inf_left ha hbN fun _ => hsame, f64Sum_inf_left hb haN fun _ => hsame.symm,
        ← f64Inf_sign ha, ← f64Inf_sign hb, hsame]
    | finite _ hb hbF =>
      rw [f64Sum_inf_left ha hbN (by simp [hb]), f64Sum_inf_right hbF ha]
  | finite _ ha haF =>
    cases f64_class b with
    | nan hb => simp [hb] at hbN
    | inf _ hb => rw [f64Sum_inf_right haF hb, f64Sum_inf_left hb haN (by simp [ha])]
    | finite _ _ hbF =>
      rw [f64Sum_finite haF hbF, f64Sum_finite hbF haF, f64SumSign, f64SumSign,
        Int.add_comm (f64Scaled b), Bool.and_comm (f64Sign b)]

/-- A zero added to a finite value other than zero changes nothing. -/
theorem f64Sum_zero_right (ha : f64IsFinite a = true) (hne : f64IsZero a = false)
    (hb : f64IsZero b = true) : f64Sum n a b = a := by
  have hbmag := (f64IsZero_iff_mag b).1 hb
  have hbzero : f64Scaled b = 0 := by simp [f64Scaled, hbmag]
  have hmag : f64Mag a ≠ 0 := by simp [← f64IsZero_iff_mag, hne]
  rw [f64Sum_finite ha (f64IsFinite_of_isZero hb), hbzero, Int.add_zero, natAbs_f64Scaled,
    Nat.one_mul]
  refine roundRatio_exact (Nat.two_pow_pos 1074) ha ?_ rfl
  rw [f64SumSign, hbzero, Int.add_zero]
  cases hsign : f64Sign a <;> simp [f64Scaled, hsign, hmag]
  omega

/-! ### Products -/

theorem f64Mul_nan (h : f64IsNaN a = true ∨ f64IsNaN b = true) :
    f64Mul a b = producedNaN .mul a b := by
  rw [f64Mul, if_pos (by simpa using h)]

theorem f64Mul_inf (h : f64IsInf a = true ∨ f64IsInf b = true) (ha : f64IsNaN a = false)
    (hb : f64IsNaN b = false) (hza : f64IsZero a = false) (hzb : f64IsZero b = false) :
    f64Mul a b = f64Inf (f64Sign a != f64Sign b) := by
  rw [f64Mul, ha, hb, if_neg (by decide), if_pos (by simpa using h), hza, hzb, if_neg (by decide)]

theorem f64Mul_inf_zero (h : f64IsInf a = true ∧ f64IsZero b = true ∨
    f64IsZero a = true ∧ f64IsInf b = true) : f64Mul a b = producedNaN .mul a b := by
  by_cases hNaN : f64IsNaN a = true ∨ f64IsNaN b = true
  · exact f64Mul_nan hNaN
  · rw [f64Mul, if_neg (by simpa using hNaN), if_pos (by grind), if_pos (by grind)]

theorem f64Mul_finite (ha : f64IsFinite a = true) (hb : f64IsFinite b = true) :
    f64Mul a b = roundRatio (f64Sign a != f64Sign b) (f64Mag a * f64Mag b) (2 ^ 2148) := by
  rw [f64Mul, f64IsNaN_of_finite ha, f64IsNaN_of_finite hb, if_neg (by decide),
    f64IsInf_of_finite ha, f64IsInf_of_finite hb, if_neg (by decide)]

/-- Which products are NaNs. -/
theorem f64IsNaN_mul (a b : F64) :
    f64IsNaN (f64Mul a b) = true ↔ f64IsNaN a = true ∨ f64IsNaN b = true ∨
      f64IsInf a = true ∧ f64IsZero b = true ∨ f64IsZero a = true ∧ f64IsInf b = true := by
  cases f64_class a with
  | nan ha => simp [f64Mul_nan (.inl ha), ha]
  | inf haN ha haF haZ =>
    cases f64_class b with
    | nan hb => simp [f64Mul_nan (.inr hb), hb]
    | inf hbN hb hbF hbZ => simp [f64Mul_inf (.inl ha) haN hbN haZ hbZ, haN, hbN, haZ, hbZ]
    | finite hbN hb =>
      cases hbZ : f64IsZero b with
      | true => simp [f64Mul_inf_zero (.inl ⟨ha, hbZ⟩), ha]
      | false => simp [f64Mul_inf (.inl ha) haN hbN haZ hbZ, haN, hbN, haZ]
  | finite haN ha haF =>
    cases f64_class b with
    | nan hb => simp [f64Mul_nan (.inr hb), hb]
    | inf hbN hb hbF hbZ =>
      cases haZ : f64IsZero a with
      | true => simp [f64Mul_inf_zero (.inr ⟨haZ, hb⟩), hb]
      | false => simp [f64Mul_inf (.inr hb) haN hbN haZ hbZ, haN, hbN, hbZ]
    | finite hbN hb hbF => simp [f64Mul_finite haF hbF, haN, hbN, ha, hb]

/-- Products commute, but for the NaN they give: no other branch tells the factors apart. -/
theorem f64Mul_comm (h : f64IsNaN (f64Mul a b) = false) : f64Mul a b = f64Mul b a := by
  unfold f64Mul at h ⊢
  rw [Bool.or_comm (f64IsNaN b), Bool.or_comm (f64IsInf b), Bool.or_comm (f64IsZero b),
    bne_comm (a := f64Sign b), Nat.mul_comm (f64Mag b)]
  split_ifs at h ⊢ <;> simp_all

/-- The sign of an exact product. -/
theorem f64Scaled_mul (a b : F64) :
    f64Scaled a * f64Scaled b =
      if f64Sign a != f64Sign b then -((f64Mag a * f64Mag b : Nat) : Int)
      else (f64Mag a * f64Mag b : Nat) := by
  unfold f64Scaled
  cases f64Sign a <;> cases f64Sign b <;> simp

theorem f64Mul_roundsTo (ha : f64IsFinite a = true) (hb : f64IsFinite b = true) :
    RoundsTo (f64Mul a b) (f64Scaled a * f64Scaled b) (2 ^ 1074) := by
  have habs : (f64Scaled a * f64Scaled b).natAbs = f64Mag a * f64Mag b := by
    rw [Int.natAbs_mul, natAbs_f64Scaled, natAbs_f64Scaled]
  rw [f64Mul_finite ha hb, ← habs, show 2148 = 1074 + 1074 from rfl, pow_add]
  refine roundRatio_roundsTo_value (Nat.two_pow_pos 1074) ?_
  rw [habs, f64Scaled_mul]

/-- A finite value times a zero is a zero. -/
theorem f64Mul_zero_right (ha : f64IsFinite a = true) (hb : f64IsZero b = true) :
    f64Mul a b = f64Pack (f64Sign a != f64Sign b) 0 := by
  rw [f64Mul_finite ha (f64IsFinite_of_isZero hb), (f64IsZero_iff_mag b).1 hb, Nat.mul_zero,
    roundRatio_zero _ (Nat.two_pow_pos 2148)]

/-! ### Quotients -/

theorem f64Div_nan (h : f64IsNaN a = true ∨ f64IsNaN b = true) :
    f64Div a b = producedNaN .div a b := by
  rw [f64Div, if_pos (by simpa using h)]

theorem f64Div_inf_inf (ha : f64IsInf a = true) (hb : f64IsInf b = true) :
    f64Div a b = producedNaN .div a b := by
  rw [f64Div, f64IsNaN_of_inf ha, f64IsNaN_of_inf hb, if_neg (by decide), if_pos ha, if_pos hb]

theorem f64Div_inf_left (ha : f64IsInf a = true) (hb : f64IsFinite b = true) :
    f64Div a b = f64Inf (f64Sign a != f64Sign b) := by
  rw [f64Div, f64IsNaN_of_inf ha, f64IsNaN_of_finite hb, if_neg (by decide), if_pos ha,
    f64IsInf_of_finite hb, if_neg Bool.false_ne_true]

theorem f64Div_inf_right (ha : f64IsFinite a = true) (hb : f64IsInf b = true) :
    f64Div a b = f64Pack (f64Sign a != f64Sign b) 0 := by
  rw [f64Div, f64IsNaN_of_finite ha, f64IsNaN_of_inf hb, if_neg (by decide), f64IsInf_of_finite ha,
    if_neg Bool.false_ne_true, if_pos hb]

theorem f64Div_zero_right (ha : f64IsFinite a = true) (hb : f64IsZero b = true) :
    f64Div a b = if f64IsZero a then producedNaN .div a b else f64Inf (f64Sign a != f64Sign b) := by
  have hbF := f64IsFinite_of_isZero hb
  rw [f64Div, f64IsNaN_of_finite ha, f64IsNaN_of_finite hbF, if_neg (by decide),
    f64IsInf_of_finite ha, if_neg Bool.false_ne_true, f64IsInf_of_finite hbF,
    if_neg Bool.false_ne_true, if_pos hb]

theorem f64Div_finite (ha : f64IsFinite a = true) (hb : f64IsFinite b = true)
    (hne : f64IsZero b = false) :
    f64Div a b = roundRatio (f64Sign a != f64Sign b) (f64Mag a) (f64Mag b) := by
  rw [f64Div, f64IsNaN_of_finite ha, f64IsNaN_of_finite hb, if_neg (by decide),
    f64IsInf_of_finite ha, if_neg Bool.false_ne_true, f64IsInf_of_finite hb,
    if_neg Bool.false_ne_true, hne, if_neg Bool.false_ne_true]

/-- Which quotients are NaNs. -/
theorem f64IsNaN_div (a b : F64) :
    f64IsNaN (f64Div a b) = true ↔ f64IsNaN a = true ∨ f64IsNaN b = true ∨
      f64IsInf a = true ∧ f64IsInf b = true ∨ f64IsZero a = true ∧ f64IsZero b = true := by
  have hpack : ∀ neg, f64IsNaN (f64Pack neg 0) = false := by decide
  cases f64_class a with
  | nan ha => simp [f64Div_nan (.inl ha), ha]
  | inf haN ha haF haZ =>
    cases f64_class b with
    | nan hb => simp [f64Div_nan (.inr hb), hb]
    | inf hbN hb => simp [f64Div_inf_inf ha hb, ha, hb]
    | finite hbN hb hbF => simp [f64Div_inf_left ha hbF, haN, hbN, hb, haZ]
  | finite haN ha haF =>
    cases f64_class b with
    | nan hb => simp [f64Div_nan (.inr hb), hb]
    | inf hbN hb hbF hbZ => simp [f64Div_inf_right haF hb, hpack, haN, hbN, ha, hbZ]
    | finite hbN hb hbF =>
      cases hbZ : f64IsZero b with
      | true => cases haZ : f64IsZero a <;> simp [f64Div_zero_right haF hbZ, haN, hbN, ha, haZ]
      | false => simp [f64Div_finite haF hbF hbZ, haN, hbN, ha]

theorem f64Div_roundsTo (ha : f64IsFinite a = true) (hb : f64IsFinite b = true)
    (hne : f64IsZero b = false) :
    RoundsTo (f64Div a b) (f64Scaled a * 2 ^ 1074 * (f64Scaled b).sign) (f64Scaled b).natAbs := by
  have hpos : 0 < f64Mag b := Nat.pos_of_ne_zero (by simp [← f64IsZero_iff_mag, hne])
  have hvalue : f64Scaled a * 2 ^ 1074 * (f64Scaled b).sign =
      if f64Sign a != f64Sign b then -((f64Mag a * 2 ^ 1074 : Nat) : Int)
      else (f64Mag a * 2 ^ 1074 : Nat) := by
    push_cast
    generalize (2 : Int) ^ 1074 = P
    cases ha : f64Sign a <;> cases hb : f64Sign b <;>
      simp [f64Scaled, ha, hb, Int.sign_eq_one_of_pos, hpos]
  rw [f64Div_finite ha hb hne, natAbs_f64Scaled, hvalue]
  exact (roundRatio_roundsTo _ hpos rfl).1

end Sys2Proof.Machine
end

section
/-! The arithmetic of the default `Num` (40_complex_alu R111 to R113): rounding, infinities, zeros
and NaNs of the four operations, the cosine and the sine. -/

namespace Sys2Proof.Machine

theorem num_fadd : num.fadd = f64Add := rfl

theorem num_fsub : num.fsub = f64Sub := rfl

theorem num_fmul : num.fmul = f64Mul := rfl

theorem num_fdiv : num.fdiv = f64Div := rfl

/-! ### Sums and differences -/

/-- Settles O28: a difference is the sum with the second operand negated. -/
theorem sumsAndDifferencesAreRounded : Obligations.SumsAndDifferencesAreRounded := by
  unfold Obligations.SumsAndDifferencesAreRounded
  simp only [num_fadd, num_fsub, f64Add, f64Sub]
  refine ⟨fun a b ha hb => ?_, fun a b ha hb => ?_, fun a b ha hb => ?_⟩
  · have hnb : f64IsFinite (f64Neg b) = true := by rwa [f64IsFinite_neg]
    rw [Int.sub_eq_add_neg, ← f64Scaled_neg b, ← f64Sign_neg b]
    exact ⟨f64Sum_roundsTo ha hb, f64Sum_roundsTo ha hnb, f64Sign_sum ha hb, f64Sign_sum ha hnb⟩
  · have hnb : f64IsFinite (f64Neg b) = true := by rwa [f64IsFinite_neg]
    have hna : f64IsInf (f64Neg a) = true := by rwa [f64IsInf_neg]
    rw [← f64Sign_neg a, f64Inf_sign ha, f64Inf_sign hna]
    exact ⟨f64Sum_inf_left ha (f64IsNaN_of_finite hb) (by simp [f64IsInf_of_finite hb]),
      f64Sum_inf_right hb ha,
      f64Sum_inf_left ha (f64IsNaN_of_finite hnb) (by simp [f64IsInf_of_finite hb]),
      f64Sum_inf_right hb hna⟩
  · have hnb : f64IsNaN (f64Neg b) = false := by rw [f64IsNaN_neg, f64IsNaN_of_inf hb]
    rw [f64Inf_sign ha]
    refine ⟨fun hsign => f64Sum_inf_left ha (f64IsNaN_of_inf hb) fun _ => hsign,
      fun hsign => f64Sum_inf_left ha hnb fun _ => ?_⟩
    rw [f64Sign_neg]
    exact Bool.eq_not_of_ne hsign

/-! ### Products and quotients -/

theorem f64IsZero_pack_zero (neg : Bool) : f64IsZero (f64Pack neg 0) = true := by
  revert neg; decide

theorem f64Sign_pack_zero (neg : Bool) : f64Sign (f64Pack neg 0) = neg :=
  f64Sign_pack neg (by decide)

/-- Settles O29: on finite values one rounding of the exact result (`f64Mul_finite`,
`f64Div_finite`), and an equation for each of the other cases. -/
theorem productsAndQuotientsAreRounded : Obligations.ProductsAndQuotientsAreRounded := by
  unfold Obligations.ProductsAndQuotientsAreRounded
  simp only [num_fmul, num_fdiv]
  refine ⟨fun a b ha hb => ⟨f64Mul_roundsTo ha hb, ?_, fun hne => ?_⟩, fun a b ha hbN hbZ => ?_,
    fun a b ha hb => ?_, fun a b ha haZ hb => ?_⟩
  · rw [f64Mul_finite ha hb, f64Sign_roundRatio]
  · have hbZ : f64IsZero b = false := by
      rw [Bool.eq_false_iff, ne_eq, f64IsZero_iff_mag, ← natAbs_f64Scaled, Int.natAbs_eq_zero]
      exact hne
    exact ⟨f64Div_roundsTo ha hb hbZ, by rw [f64Div_finite ha hb hbZ, f64Sign_roundRatio]⟩
  · have haN := f64IsNaN_of_inf ha
    have haZ := f64IsZero_of_inf ha
    rw [f64Mul_inf (.inl ha) haN hbN haZ hbZ, f64Mul_inf (.inr ha) hbN haN hbZ haZ,
      bne_comm (a := f64Sign b)]
    exact ⟨rfl, rfl⟩
  · rw [f64Div_inf_left ha hb, f64Div_inf_right hb ha, bne_comm (a := f64Sign b)]
    exact ⟨rfl, f64IsZero_pack_zero _, f64Sign_pack_zero _⟩
  · rw [f64Div_zero_right ha hb, haZ, if_neg Bool.false_ne_true]

/-- Settles O30: which results of each operation are NaNs, class by class of its operands. -/
theorem naNsAreProducedExactlyByInvalidOperations :
    Obligations.NaNsAreProducedExactlyByInvalidOperations := by
  intro a b
  refine ⟨f64IsNaN_sum (f64IsNaN_producedNaN _ _ _) a b, ?_, f64IsNaN_mul a b, f64IsNaN_div a b,
    fun ha => ?_⟩
  · rw [num_fsub, f64Sub, f64IsNaN_sum (f64IsNaN_producedNaN _ _ _), f64IsNaN_neg, f64IsInf_neg,
      f64Sign_neg, ne_eq, Bool.eq_not, not_not]
  · rw [num_fcos, num_fsin, f64Cos, f64Sin, ha, Bool.not_false, if_pos rfl, if_pos rfl]
    exact ⟨f64IsNaN_producedNaN _ _ _, f64IsNaN_producedNaN _ _ _⟩

/-! ### Cosine and sine -/

theorem f64Mag_pos_of_not_tiny {x : F64} (h : f64IsTiny x = false) : 0 < f64Mag x :=
  (Nat.two_pow_pos 1047).trans_le (Nat.not_lt.1 (of_decide_eq_false h))

theorem f64Real_of_sign_false {x : F64} (h : f64Sign x = false) :
    f64Real x = f64Mag x / 2 ^ 1074 := by
  rw [f64Real, f64Scaled_of_sign_false h, Int.cast_natCast]

theorem f64Real_of_sign_true {x : F64} (h : f64Sign x = true) :
    f64Real x = -(f64Mag x / 2 ^ 1074) := by
  rw [f64Real, f64Scaled_of_sign_true h, Int.cast_neg, Int.cast_natCast, neg_div]

theorem f64Cos_nearest {x : F64} (hx : f64IsFinite x = true) :
    RoundsToReal (f64Cos x) (Real.cos (f64Real x)) := by
  cases htiny : f64IsTiny x with
  | true => rw [f64Cos_of_tiny hx htiny]; exact tiny_cosine_nearest htiny
  | false =>
    have hnear := nearestSine_nearest (f64Mag_pos_of_not_tiny htiny) (f64Mag_lt hx) (le_refl 1)
    rwa [Nat.cast_one, one_mul, Real.sin_add_pi_div_two, ← f64Real_abs, Real.cos_abs,
      ← f64Cos_of_not_tiny hx htiny] at hnear

theorem f64Sin_nearest {x : F64} (hx : f64IsFinite x = true) :
    RoundsToReal (f64Sin x) (Real.sin (f64Real x)) := by
  cases htiny : f64IsTiny x with
  | true => rw [f64Sin_of_tiny hx htiny]; exact tiny_sine_nearest hx htiny
  | false =>
    have hnear := nearestSine_nearest (f64Mag_pos_of_not_tiny htiny) (f64Mag_lt hx) (Nat.zero_le 1)
    rw [Nat.cast_zero, zero_mul, add_zero] at hnear
    rw [f64Sin_of_not_tiny hx htiny]
    cases hsign : f64Sign x with
    | true => rw [if_pos rfl, f64Real_of_sign_true hsign, Real.sin_neg]; exact hnear.neg
    | false => rwa [if_neg Bool.false_ne_true, f64Real_of_sign_false hsign]

/-- Settles O31: tiny operands by `Laws/Tiny`, all others by the enclosures and the search of
`nearestSine_nearest`; the cosine is even and the sine odd. -/
theorem cosineAndSineAreRounded : Obligations.CosineAndSineAreRounded :=
  fun _ hx => ⟨f64Cos_nearest hx, f64Sin_nearest hx⟩

end Sys2Proof.Machine
end

section
/-! Integers, exact quotients and the floor of the default `Num` (40_complex_alu R110 to R112), and
its laws of zero and one. -/

namespace Sys2Proof.Machine

theorem num_ofNat : num.ofNat = f64OfNat := rfl

theorem num_ofInt : num.ofInt = f64OfInt := rfl

theorem num_toInt : num.toInt = f64ToInt := rfl

theorem num_ffloor : num.ffloor = f64Floor := rfl

/-! ### Conversions -/

theorem f64OfInt_natCast (n : Nat) : f64OfInt n = f64OfNat n := by
  rw [f64OfInt, f64OfNat, Int.natAbs_natCast, decide_eq_false (Int.natCast_nonneg n).not_gt]

theorem f64OfInt_roundsTo (v : Int) : RoundsTo (f64OfInt v) (v * 2 ^ 1074) 1 := by
  have hvalue : v * 2 ^ 1074 = if decide (v < 0) then -((v.natAbs * 2 ^ 1074 : Nat) : Int)
      else (v.natAbs * 2 ^ 1074 : Nat) := by
    conv_lhs => rw [← ite_neg_natAbs v]
    rw [Nat.cast_mul, Nat.cast_pow, Nat.cast_ofNat]
    split
    · exact Int.neg_mul _ _
    · rfl
  rw [f64OfInt, hvalue]
  exact (roundRatio_roundsTo _ Nat.one_pos rfl).1

/-- An integer times a power of two is a binary64 value, within 53 bits and the range of the
exponents. -/
theorem exists_f64_of_int (v : Int) (q : Nat) (hv : v.natAbs ≤ 2 ^ 53) (hq : q ≤ 2044) :
    ∃ x : F64, f64IsFinite x = true ∧ f64Scaled x = v * 2 ^ q := by
  obtain ⟨x, hfinite, hsign, hmag⟩ := exists_f64_of_mag (decide (v < 0)) (q := q) hv
    (by simp only [f64InfLow]; omega)
  refine ⟨x, hfinite, ?_⟩
  conv_rhs => rw [← ite_neg_natAbs v]
  rw [f64Scaled, hsign, hmag, Nat.cast_mul, Nat.cast_pow, Nat.cast_ofNat]
  split
  · exact (Int.neg_mul _ _).symm
  · rfl

theorem f64OfInt_exact {v : Int} (hv : v.natAbs ≤ 2 ^ 53) :
    f64IsFinite (f64OfInt v) = true ∧ f64Scaled (f64OfInt v) = v * 2 ^ 1074 := by
  obtain ⟨x, hfinite, hscaled⟩ := exists_f64_of_int v 1074 hv (by decide)
  rw [← hscaled]
  exact (f64OfInt_roundsTo v).exact Nat.one_pos hfinite (by rw [hscaled, Nat.cast_one, mul_one])

/-- A power of two that binary64 has is exact as an integer. -/
theorem f64OfNat_two_pow {k : Nat} (hk : k ≤ 1023) :
    f64IsFinite (f64OfNat (2 ^ k)) = true ∧ f64Mag (f64OfNat (2 ^ k)) = 2 ^ (k + 1074) := by
  obtain ⟨x, hfinite, hsign, hmag⟩ := exists_f64_of_mag false (q := k + 1022) (m := 2 ^ 52)
    (by decide) (by
      rw [← Nat.succ_mul]
      exact Nat.mul_lt_mul_of_pos_right (by omega) (by decide))
  rw [← pow_add, show 52 + (k + 1022) = k + 1074 by omega] at hmag
  have heq : f64OfNat (2 ^ k) = x :=
    roundRatio_exact Nat.one_pos hfinite hsign (by rw [hmag, Nat.mul_one, ← pow_add])
  rw [heq]
  exact ⟨hfinite, hmag⟩

theorem f64ToInt_of_scaled {x : F64} {v : Int} (hx : f64IsFinite x = true)
    (h : f64Scaled x = v * 2 ^ 1074) : f64ToInt x = some v := by
  have hmag : f64Mag x = v.natAbs * 2 ^ 1074 := by
    rw [← natAbs_f64Scaled, h, Int.natAbs_mul, Int.natAbs_pow]; rfl
  have hP : (2 : Int) ^ 1074 ≠ 0 := by positivity
  rw [f64ToInt, hx, hmag, Nat.mul_mod_left, if_pos (by decide), h, Int.mul_ediv_cancel _ hP]

/-- Settles O33: what rounds to an integer of at most 53 bits is that integer, and one half more has
at most 53 bits in units of one half. -/
theorem integersAreRoundedAndSmallOnesExact : Obligations.IntegersAreRoundedAndSmallOnesExact := by
  unfold Obligations.IntegersAreRoundedAndSmallOnesExact
  simp only [num_ofNat, num_ofInt, num_toInt, num_fadd, ← f64OfInt_natCast]
  refine ⟨fun n => f64OfInt_roundsTo n, f64OfInt_roundsTo,
    fun n hn => f64OfInt_exact (by simpa using hn), fun v hlow hhigh => ?_, fun v hlow hhigh => ?_⟩
  · obtain ⟨hfinite, hscaled⟩ := f64OfInt_exact (v := v) (by omega)
    exact ⟨hfinite, hscaled, f64ToInt_of_scaled hfinite hscaled⟩
  · obtain ⟨hfinite, hscaled⟩ := f64OfInt_exact (v := v) (by omega)
    have hhalf : f64IsFinite num.half = true ∧ f64Scaled num.half = 2 ^ 1073 := by decide +kernel
    obtain ⟨x, hxF, hx⟩ := exists_f64_of_int (2 * v + 1) 1073 (by omega) (by decide)
    have hsum : f64Scaled (f64OfInt v) + f64Scaled num.half = f64Scaled x := by
      rw [hscaled, hhalf.2, hx, pow_succ (2 : Int) 1073]
      generalize (2 : Int) ^ 1073 = P
      ring
    rw [← hx]
    exact (f64Sum_roundsTo hfinite hhalf.1).exact Nat.one_pos hxF
      (by rw [hsum, Nat.cast_one, mul_one])

/-! ### Division by a power of two -/

/-- Settles O34: the quotient is a binary64 value, so it rounds to itself. -/
theorem divisionByAPowerOfTwoIsExact : Obligations.DivisionByAPowerOfTwoIsExact := by
  intro x q k hk hx hq hsign hscaled
  have hqF : f64IsFinite q = true := by
    rcases hq with hnormal | hzero
    · exact (Bool.and_eq_true_iff.1 hnormal).1
    · exact f64IsFinite_of_isZero hzero
  obtain ⟨hdF, hdmag⟩ := f64OfNat_two_pow hk
  have hdpos : 0 < f64Mag (f64OfNat (2 ^ k)) := by
    rw [hdmag]; exact Nat.two_pow_pos _
  have hdZ : f64IsZero (f64OfNat (2 ^ k)) = false := by
    rw [Bool.eq_false_iff, ne_eq, f64IsZero_iff_mag]; exact hdpos.ne'
  have hdsign : f64Sign (f64OfNat (2 ^ k)) = false := f64Sign_roundRatio _ _ _
  have hmag : f64Mag q * 2 ^ k = f64Mag x := by
    rw [← natAbs_f64Scaled x, ← hscaled, Int.natAbs_mul, natAbs_f64Scaled, Int.natAbs_pow]; rfl
  rw [num_fdiv, num_ofNat, f64Div_finite hx hdF hdZ, hdsign, Bool.bne_false]
  exact roundRatio_exact hdpos hqF hsign (by rw [hdmag, ← hmag, pow_add, Nat.mul_assoc])

/-! ### The floor -/

/-- A value that is no integer has less than 53 bits before the point. -/
theorem f64Mag_lt_of_not_integral {x : F64} (h : f64Mag x % 2 ^ 1074 ≠ 0) :
    f64Mag x < 2 ^ 53 * 2 ^ 1074 := by
  have hexp : f64Exp x - 1 ≤ 1074 := by
    by_contra hlarge
    refine h (Nat.mod_eq_zero_of_dvd ?_)
    rw [f64Mag, if_neg (by omega)]
    exact Dvd.dvd.mul_left (pow_dvd_pow 2 (by omega)) _
  have hpow : 2 ^ (f64Exp x - 1) ≤ 2 ^ 1074 := Nat.pow_le_pow_right (by decide) hexp
  exact (f64Mag_le x).trans_lt ((Nat.mul_le_mul_left _ hpow).trans_lt
    (Nat.mul_lt_mul_of_pos_right (by decide) (Nat.two_pow_pos 1074)))

theorem f64Floor_integral {x : F64} (h : f64Mag x % 2 ^ 1074 = 0) : f64Floor x = x := by
  rw [f64Floor, h, if_neg (by simp)]

theorem f64Floor_not_integral {x : F64} (hx : f64IsFinite x = true) (h : f64Mag x % 2 ^ 1074 ≠ 0) :
    f64Floor x = f64OfInt (f64Scaled x / 2 ^ 1074) := by
  rw [f64Floor, hx, if_pos (by simpa using h)]

theorem natAbs_ediv_le {v : Int} {m P : Nat} (hP : 0 < P) (h : v.natAbs < m * P) :
    (v / P).natAbs ≤ m := by
  have hP' : (0 : Int) < P := by exact_mod_cast hP
  have hcast : (v.natAbs : Int) < m * P := by exact_mod_cast h
  have hlow : -(m : Int) ≤ v / P := by rw [Int.le_ediv_iff_mul_le hP', Int.neg_mul]; omega
  have hhigh : v / P < m := by rw [Int.ediv_lt_iff_lt_mul hP']; omega
  omega

theorem f64Floor_exact {x : F64} (hx : f64IsFinite x = true) :
    f64IsFinite (f64Floor x) = true ∧
    f64Scaled (f64Floor x) = f64Scaled x / 2 ^ 1074 * 2 ^ 1074 := by
  by_cases h : f64Mag x % 2 ^ 1074 = 0
  · have hdvd : (2 : Int) ^ 1074 ∣ f64Scaled x := by
      rw [← Int.natAbs_dvd_natAbs, natAbs_f64Scaled, Int.natAbs_pow]
      exact Nat.dvd_of_mod_eq_zero h
    rw [f64Floor_integral h, Int.ediv_mul_cancel hdvd]
    exact ⟨hx, rfl⟩
  · have hlt := f64Mag_lt_of_not_integral h
    rw [← natAbs_f64Scaled] at hlt
    have hbound : (f64Scaled x / (2 ^ 1074 : Nat)).natAbs ≤ 2 ^ 53 :=
      natAbs_ediv_le (pow_pos Nat.two_pos 1074) hlt
    rw [Nat.cast_pow, Nat.cast_ofNat] at hbound
    rw [f64Floor_not_integral hx h]
    exact f64OfInt_exact hbound

/-- Settles O35: a value that is no integer has a floor of at most 53 bits, which is exact. -/
theorem floorIsExact : Obligations.FloorIsExact := by
  intro x
  rw [num_ffloor, num_toInt]
  refine ⟨fun hx => ?_, fun hx => ?_⟩
  · obtain ⟨hfinite, hscaled⟩ := f64Floor_exact hx
    exact ⟨hfinite, hscaled, f64ToInt_of_scaled hfinite hscaled⟩
  · rw [f64Floor, f64ToInt, hx, Bool.false_and, Bool.false_and, if_neg Bool.false_ne_true,
      if_neg Bool.false_ne_true]
    exact ⟨rfl, rfl⟩

/-! ### The laws of zero and one -/

theorem f64Sum_zeros {a b n : F64} (ha : f64IsZero a = true) (hb : f64IsZero b = true) :
    f64Sum n a b = f64Pack (f64Sign a && f64Sign b) 0 := by
  have hsum : f64Scaled a + f64Scaled b = 0 := by
    simp [f64Scaled, (f64IsZero_iff_mag a).1 ha, (f64IsZero_iff_mag b).1 hb]
  rw [f64Sum_finite (f64IsFinite_of_isZero ha) (f64IsFinite_of_isZero hb), f64SumSign, if_pos hsum,
    hsum, Int.natAbs_zero, Nat.one_mul, roundRatio_zero _ (Nat.two_pow_pos 1074)]

theorem f64Div_zero_left {a b : F64} (ha : f64IsZero a = true) (hbN : f64IsNaN b = false)
    (hbZ : f64IsZero b = false) : f64Div a b = f64Pack (f64Sign a != f64Sign b) 0 := by
  have haF := f64IsFinite_of_isZero ha
  cases f64_class b with
  | nan hb => simp [hb] at hbN
  | inf _ hb => exact f64Div_inf_right haF hb
  | finite _ _ hb =>
    have hpos : 0 < f64Mag b := Nat.pos_of_ne_zero (by simp [← f64IsZero_iff_mag, hbZ])
    rw [f64Div_finite haF hb hbZ, (f64IsZero_iff_mag a).1 ha, roundRatio_zero _ hpos]

theorem f64IsTiny_of_isZero {x : F64} (h : f64IsZero x = true) : f64IsTiny x = true := by
  rw [f64IsTiny, (f64IsZero_iff_mag x).1 h]
  exact decide_eq_true (Nat.two_pow_pos 1047)

theorem f64Cos_zero {x : F64} (h : f64IsZero x = true) : f64Cos x = f64OfNat 1 :=
  f64Cos_of_tiny (f64IsFinite_of_isZero h) (f64IsTiny_of_isZero h)

theorem f64Sin_zero {x : F64} (h : f64IsZero x = true) : f64Sin x = x :=
  f64Sin_of_tiny (f64IsFinite_of_isZero h) (f64IsTiny_of_isZero h)

theorem f64Sign_ofNat (n : Nat) : f64Sign (f64OfNat n) = false := f64Sign_roundRatio _ _ _

theorem f64IsNaN_ofNat (n : Nat) : f64IsNaN (f64OfNat n) = false := f64IsNaN_roundRatio _ _ _

theorem f64OfNat_zero : f64OfNat 0 = 0#64 := (roundRatio_zero false Nat.one_pos).trans (by decide)

theorem f64IsZero_ofNat {n : Nat} (h : 1 ≤ n) : f64IsZero (f64OfNat n) = false := by
  rw [Bool.eq_false_iff, ne_eq, f64IsZero_iff, f64OfNat, f64Low_roundRatio]
  exact (roundMag_pos Nat.one_pos (Nat.mul_pos h (Nat.two_pow_pos 1074))).ne'

theorem f64OfNat_one : f64IsFinite (f64OfNat 1) = true ∧ f64Mag (f64OfNat 1) = 2 ^ 1074 := by
  have h := f64OfNat_two_pow (Nat.zero_le 1023)
  rwa [pow_zero, Nat.zero_add] at h

theorem f64Mul_one_left {x : F64} (hx : f64IsNaN x = false) : f64Mul (f64OfNat 1) x = x := by
  obtain ⟨honeF, hone⟩ := f64OfNat_one
  cases f64_class x with
  | nan hN => simp [hN] at hx
  | inf _ hI _ hZ =>
    rw [f64Mul_inf (.inr hI) (f64IsNaN_of_finite honeF) hx (f64IsZero_ofNat (le_refl 1)) hZ,
      f64Sign_ofNat, Bool.false_bne, f64Inf_sign hI]
  | finite _ _ hF =>
    rw [f64Mul_finite honeF hF, f64Sign_ofNat, Bool.false_bne, hone]
    refine roundRatio_exact (Nat.two_pow_pos 2148) hF rfl ?_
    rw [show 2148 = 1074 + 1074 from rfl, pow_add, Nat.mul_comm _ (f64Mag x), Nat.mul_assoc]

theorem f64Div_one_right {x : F64} (hx : f64IsNaN x = false) : f64Div x (f64OfNat 1) = x := by
  obtain ⟨honeF, hone⟩ := f64OfNat_one
  cases f64_class x with
  | nan hN => simp [hN] at hx
  | inf _ hI => rw [f64Div_inf_left hI honeF, f64Sign_ofNat, Bool.bne_false, f64Inf_sign hI]
  | finite _ _ hF =>
    rw [f64Div_finite hF honeF (f64IsZero_ofNat (le_refl 1)), f64Sign_ofNat, Bool.bne_false, hone]
    exact roundRatio_exact (Nat.two_pow_pos 1074) hF rfl rfl

/-- Doubling `PI` is exact (40_complex_alu R112 NP9). -/
theorem f64Scaled_twoPi : f64Scaled num.twoPi = 2 * f64Scaled num.pi := by decide +kernel

/-- The angle of the first twiddle is `+0`, even where `of_nat(sz)` is an infinity. -/
theorem twiddleAngle_zero {sz : Nat} (h : 1 ≤ sz) : twiddleAngle num 0 sz = 0#64 := by
  have hfinite : f64IsFinite num.twoPi = true := by decide +kernel
  have hsign : f64Sign num.twoPi = false := by decide +kernel
  rw [twiddleAngle, num_fmul, num_fdiv, num_ofNat, f64OfNat_zero,
    f64Mul_zero_right hfinite (by decide), hsign,
    f64Div_zero_left (f64IsZero_pack_zero _) (f64IsNaN_ofNat sz) (f64IsZero_ofNat h),
    f64Sign_ofNat]
  decide

/-- Settles O32: no branch but the NaN tells the operands of a sum or a product apart; a zero
operand leaves nothing to round (`roundRatio_zero`), and what one leaves is exact
(`roundRatio_exact`). -/
theorem sumsCommuteAndZeroAndOneAreNeutral : Obligations.SumsCommuteAndZeroAndOneAreNeutral := by
  unfold Obligations.SumsCommuteAndZeroAndOneAreNeutral
  simp only [num_fadd, num_fsub, num_fmul, num_fdiv, num_fcos, num_fsin, num_ofNat]
  have hpos : f64IsZero 0#64 = true := by decide
  have hneg : f64IsZero 0x8000000000000000#64 = true := by decide
  refine ⟨fun a b =>
      ⟨fun h _ => f64Sum_comm (f64IsNaN_producedNaN _ _ _) h, fun h _ => f64Mul_comm h⟩,
    f64Cos_zero hpos, f64Sin_zero hpos, f64Cos_zero hneg, f64Sin_zero hneg, f64OfNat_zero,
    fun y hy hscaled => ?_, fun x z hx hz => ⟨?_, fun hne => f64Sum_zero_right hx hne hz⟩,
    (f64Sum_zeros hpos hpos).trans (by decide), (f64Sum_zeros hpos hneg).trans (by decide),
    (f64Sum_zeros hneg hpos).trans (by decide), (f64Sum_zeros hneg hneg).trans (by decide),
    fun y z hy hz => ?_, fun x hx => ⟨f64Mul_one_left hx, f64Div_one_right hx⟩,
    f64Scaled_twoPi, fun sz hsz => ?_⟩
  · have hsign : f64Sign y = false := by
      by_contra h
      rw [f64Scaled_of_sign_true (by simpa using h)] at hscaled
      omega
    have hyZ : f64IsZero y = false := by
      rw [Bool.eq_false_iff, ne_eq, f64IsZero_iff_mag, ← natAbs_f64Scaled]
      omega
    rw [f64Div_zero_left hpos (f64IsNaN_of_finite hy) hyZ, f64Mul_zero_right hy hpos, hsign]
    decide
  · rw [f64Mul_zero_right hx hz]
    exact f64IsZero_pack_zero _
  · rw [f64Sub, f64Sum_zeros hy (by rwa [f64IsZero_neg])]
    exact f64IsZero_pack_zero _
  · rw [twiddle, twiddleAngle_zero hsz, num_fcos, num_fsin, f64Cos_zero hpos, f64Sin_zero hpos]

end Sys2Proof.Machine
end

section
/-! The commands on the complex scalar registers (40_complex_alu R119 to R126). None of them has an
error of its own but `E_INDEX`; what a command that completes leaves is the state it wrote with one
response (`State.command_wrote`). -/

namespace Sys2Proof.Machine

/-! ### The words -/

/-- A command word with its register fields written out (30_encoding R81). -/
theorem formatC_eq (op : Nat) (zd za zb : ZReg) :
    formatC op zd za zb =
      BitVec.ofNat 32 (op + 0x100 * zd.val + 0x400 * za.val + 0x1000 * zb.val) := rfl

/-- `ARG` of `TWID` is `{sz, i}` (30_encoding R85). -/
theorem ofNat_twidArg (i sz : BitVec 32) :
    BitVec.ofNat 64 (sz.toNat * 2 ^ 32 + i.toNat) = sz ++ i := by
  have := sz.isLt
  apply BitVec.eq_of_toNat_eq
  rw [BitVec.toNat_append, ← Nat.shiftLeft_add_eq_or_of_lt i.isLt, Nat.shiftLeft_eq,
    BitVec.toNat_ofNat]
  exact Nat.mod_eq_of_lt (by have := i.isLt; omega)

/-! ### Registers and ports -/

/-- Settles O20: `DIN` is split into its two halves and stored as it is. -/
theorem zwrStoresTheDataInput : Obligations.ZwrStoresTheDataInput := fun s zd hrun =>
  ⟨by simp [encode, formatC_eq], State.command_wrote (s.setZ zd (dinComplex s.inputs.din)) hrun⟩

/-- Settles O21: the state is answered as it was. -/
theorem zrdAnswersTheRegister : Obligations.ZrdAnswersTheRegister := fun s za hrun =>
  ⟨by simp [encode, formatC_eq], State.command_answered (doutComplex (s.zReg za)) hrun⟩

/-! ### Registers and elements -/

/-- Settles O22, by the check of the index. -/
theorem zldLoadsTheElement : Obligations.ZldLoadsTheElement := by
  intro s zd idx hrun
  refine ⟨by simp [encode, formatC_eq], fun hlt => ?_, fun hge => ?_⟩
  · exact (congrArg s.command (if_neg (Nat.not_le.2 hlt))).trans (State.command_wrote _ hrun)
  · exact (congrArg s.command (if_pos hge)).trans (State.command_error _ hrun)

/-- Settles O23, by the check of the index; in canonical form a write is read at its own address
only (`State.xElem_setX`). -/
theorem zstStoresTheElement : Obligations.ZstStoresTheElement := by
  intro s za idx hrun hwf
  refine ⟨by simp [encode, formatC_eq], fun hlt => ?_, fun hge => ?_⟩
  · exact ⟨(s.setX idx.toNat (s.zReg za)).respond 0#128,
      (congrArg s.command (if_neg (Nat.not_le.2 hlt))).trans (State.command_wrote _ hrun),
      fun j => State.xElem_setX idx.toNat j (s.zReg za) hwf, rfl⟩
  · exact (congrArg s.command (if_pos hge)).trans (State.command_error _ hrun)

/-! ### The functional units -/

/-- Settles O24: the operands are those of the state before the command. -/
theorem caddWritesTheSum : Obligations.CaddWritesTheSum := fun s zd za zb hrun =>
  ⟨rfl, State.command_wrote (s.setZ zd (cadd num (s.zReg za) (s.zReg zb))) hrun⟩

/-- Settles O25: both products of either component are of the old registers. -/
theorem cmulWritesTheProduct : Obligations.CmulWritesTheProduct := fun s zd za zb hrun =>
  ⟨rfl, State.command_wrote (s.setZ zd (cmul num (s.zReg za) (s.zReg zb))) hrun⟩

/-- Settles O26: a zero divisor takes no branch of its own. -/
theorem cdivrWritesTheQuotient : Obligations.CdivrWritesTheQuotient := fun s zd za n hrun =>
  ⟨rfl, State.command_wrote (s.setZ zd (cdivr num (s.zReg za) (num.ofNat n.toNat))) hrun⟩

/-- Settles O27: the angle is that of `TW(i, sz)`. -/
theorem twidWritesTheTwiddle : Obligations.TwidWritesTheTwiddle := fun s zd i sz hrun =>
  ⟨by rw [encode, formatC_eq, ofNat_twidArg]; rfl, twiddleAngle num i.toNat sz.toNat, rfl,
    State.command_wrote (s.setZ zd (twiddle num i.toNat sz.toNat)) hrun⟩

end Sys2Proof.Machine
end

section
/-! `Pad`, `T` and `IT` over any `Num` (41_transform R143, R146, R150). The padded length is the power
of two that `Nat.clog` names, so padding is idempotent and a padded sequence halves evenly; enough
fuel is any fuel from the length on, so `T` satisfies its own recursion. -/

namespace Sys2Proof.Machine

variable {F : Type} (N : Num F)

/-! ### The padded length -/

theorem padLength_eq_pow_clog {n : Nat} (hn : n ≠ 0) : padLength n = 2 ^ Nat.clog 2 n := by
  obtain rfl | h1 := eq_or_ne n 1
  · rfl
  have hclog : Nat.log2 (n - 1) + 1 = Nat.clog 2 n := by
    apply le_antisymm
    · have := Nat.log2_self_le (n := n - 1) (by omega)
      exact (Nat.lt_clog_iff_pow_lt Nat.one_lt_two).2 (by omega)
    · have := Nat.lt_log2_self (n := n - 1)
      exact Nat.clog_le_of_le_pow (by omega)
  rw [padLength, if_neg hn, if_neg h1, hclog]

theorem padLength_of_lt_two {n : Nat} (h : n < 2) : padLength n = n := by
  obtain rfl | rfl : n = 0 ∨ n = 1 := by omega
  · rfl
  · rfl

theorem padLength_two_pow (k : Nat) : padLength (2 ^ k) = 2 ^ k := by
  rw [padLength_eq_pow_clog (Nat.two_pow_pos k).ne', Nat.clog_pow 2 k Nat.one_lt_two]

/-- A padded length is 0 or a power of two. -/
theorem padLength_eq_zero_or_pow (n : Nat) : padLength n = 0 ∨ ∃ k, padLength n = 2 ^ k := by
  obtain rfl | hn := eq_or_ne n 0
  · exact .inl rfl
  · exact .inr ⟨_, padLength_eq_pow_clog hn⟩

@[simp] theorem padLength_padLength (n : Nat) : padLength (padLength n) = padLength n := by
  obtain h | ⟨k, h⟩ := padLength_eq_zero_or_pow n
  · rw [h]; rfl
  · rw [h, padLength_two_pow]

theorem padLength_lt_two_mul {n : Nat} (hn : n ≠ 0) : padLength n < 2 * n := by
  obtain rfl | h1 := eq_or_ne n 1
  · decide
  · have hpos := Nat.clog_pos Nat.one_lt_two (show 1 < n by omega)
    have hlt := Nat.pow_pred_clog_lt_self Nat.one_lt_two (show 1 < n by omega)
    calc padLength n = 2 ^ (Nat.clog 2 n).pred * 2 := by
          rw [padLength_eq_pow_clog hn, ← pow_succ, ← Nat.succ_eq_add_one,
            Nat.succ_pred_eq_of_pos hpos]
      _ < 2 * n := by omega

/-- From length 2 on, a padded length is twice a power of two. -/
theorem padLength_eq_pow_succ {n : Nat} (h : 2 ≤ n) : ∃ k, padLength n = 2 ^ (k + 1) := by
  obtain h0 | ⟨k, hk⟩ := padLength_eq_zero_or_pow n
  · have := le_padLength n; omega
  · cases k with
    | zero => have := le_padLength n; omega
    | succ k => exact ⟨k, hk⟩

/-! ### `Pad` -/

theorem pad_eq_self {x : List (Cplx F)} (h : padLength x.length = x.length) : pad N x = x := by
  rw [pad, h, Nat.sub_self, List.replicate_zero, List.append_nil]

theorem pad_pad (x : List (Cplx F)) : pad N (pad N x) = pad N x :=
  pad_eq_self N (by rw [length_pad, padLength_padLength])

theorem take_pad (x : List (Cplx F)) : (pad N x).take x.length = x := List.take_left

/-- Settles O36, by the least power of two at or above the length being `2 ^ Nat.clog 2 _`. -/
theorem padReachesTheLeastPowerOfTwo : Obligations.PadReachesTheLeastPowerOfTwo := by
  intro F N x
  refine ⟨fun hnil => by subst hnil; rfl, fun hne => ?_, ?_, pad_pad N x, by decide +kernel⟩
  · have hlen : x.length ≠ 0 := fun h => hne (List.length_eq_zero_iff.1 h)
    refine ⟨Nat.clog 2 x.length, Nat.le_pow_clog Nat.one_lt_two _,
      fun j hj => Nat.clog_le_of_le_pow hj, ?_, ?_⟩
    · rw [← padLength_eq_pow_clog hlen]; rfl
    · rw [length_pad]; exact padLength_lt_two_mul hlen
  · rw [length_pad]; exact le_padLength _

/-! ### The recursion of `T` -/

/-- The halves of a padded sequence are shorter than the sequence (41_transform R147 (d)). -/
theorem padLength_half_lt {n : Nat} (h : 2 ≤ n) : padLength n / 2 < n := by
  have := padLength_lt_two_mul (n := n) (by omega)
  omega

theorem transformFuel_of_short {fuel : Nat} {x : List (Cplx F)} (h : x.length < 2) :
    transformFuel N fuel x = x := by
  cases fuel with
  | zero => rfl
  | succ fuel => rw [transformFuel, if_pos h]

/-- Fuel from the length on is never met: any two such bounds give the same result. -/
theorem transformFuel_congr {f g : Nat} {x : List (Cplx F)} (hf : x.length ≤ f)
    (hg : x.length ≤ g) : transformFuel N f x = transformFuel N g x := by
  induction f generalizing g x with
  | zero => rw [transformFuel_of_short N (by omega), transformFuel_of_short N (by omega)]
  | succ f ih =>
    obtain hshort | hlong := Nat.lt_or_ge x.length 2
    · rw [transformFuel_of_short N hshort, transformFuel_of_short N hshort]
    · obtain ⟨g, rfl⟩ : ∃ g', g = g' + 1 := ⟨g - 1, by omega⟩
      have := padLength_half_lt hlong
      have hev : (evens N (pad N x)).length = padLength x.length / 2 := by simp
      have hod : (odds N (pad N x)).length = padLength x.length / 2 := by simp
      rw [transformFuel, transformFuel, ih (x := evens N (pad N x)) (g := g) (by omega) (by omega),
        ih (x := odds N (pad N x)) (g := g) (by omega) (by omega)]

theorem transformFuel_eq_transform {fuel : Nat} {x : List (Cplx F)} (h : x.length ≤ fuel) :
    transformFuel N fuel x = transform N x := transformFuel_congr N h le_rfl

theorem transform_of_short {x : List (Cplx F)} (h : x.length < 2) : transform N x = x :=
  transformFuel_of_short N h

/-- The recursion of `T` (41_transform R146). -/
theorem transform_eq_combine {x : List (Cplx F)} (h : 2 ≤ x.length) :
    transform N x = combine N (pad N x).length (transform N (evens N (pad N x)))
      (transform N (odds N (pad N x))) := by
  have := padLength_half_lt h
  obtain ⟨n, hn⟩ : ∃ n, x.length = n + 1 := ⟨x.length - 1, by omega⟩
  rw [transform, hn, transformFuel, if_neg (by omega),
    transformFuel_eq_transform N (by rw [length_evens, length_pad]; omega),
    transformFuel_eq_transform N (by rw [length_odds, length_pad]; omega)]

theorem padLength_half_eq {n : Nat} (h : 2 ≤ n) :
    padLength (padLength n / 2) = padLength n / 2 := by
  obtain ⟨k, hk⟩ := padLength_eq_pow_succ h
  rw [hk, pow_succ, Nat.mul_div_cancel _ Nat.two_pos, padLength_two_pow]

/-- Padding first does not change the transform. -/
theorem transform_pad (x : List (Cplx F)) : transform N (pad N x) = transform N x := by
  obtain hshort | hlong := Nat.lt_or_ge x.length 2
  · rw [pad_eq_self N (padLength_of_lt_two hshort)]
  · have := le_padLength x.length
    rw [transform_eq_combine N (x := pad N x) (by rw [length_pad]; omega), pad_pad,
      ← transform_eq_combine N hlong]

/-- Settles O37: a padded sequence has halves whose length is a power of two again, so their
transforms have the length of the halves. -/
theorem transformSatisfiesItsRecursion : Obligations.TransformSatisfiesItsRecursion := by
  intro F N x
  refine ⟨transform_of_short N, fun hlong => ⟨pad N x, transform N (evens N (pad N x)),
    transform N (odds N (pad N x)), rfl, rfl, rfl, ?_, ?_, transform_eq_combine N hlong⟩⟩
  · rw [length_transform, length_evens, length_pad, padLength_half_eq hlong]
  · rw [length_transform, length_odds, length_pad, padLength_half_eq hlong]

/-! ### `IT` -/

/-- Where index `j` of `IT` is taken from, of `n` (41_transform R150). -/
def mirror (n j : Nat) : Nat := if j = 0 then 0 else n - j

theorem mirror_lt {n j : Nat} (hj : j < n) : mirror n j < n := by
  unfold mirror; split <;> omega

theorem getD_reverseTail {α : Type} (xs : List α) (d : α) {j : Nat} (hj : j < xs.length) :
    (reverseTail xs).getD j d = xs.getD (mirror xs.length j) d := by
  cases xs with
  | nil => cases hj
  | cons v vs =>
    cases j with
    | zero => rfl
    | succ j =>
      have hj : j < vs.length := Nat.lt_of_succ_lt_succ hj
      have hidx : mirror (v :: vs).length (j + 1) = vs.length - 1 - j + 1 := by
        rw [mirror, if_neg j.succ_ne_zero, List.length_cons]; omega
      rw [hidx, reverseTail, List.getD_cons_succ, List.getD_cons_succ, List.getD_reverse j hj]

/-- The elements of `IT` (41_transform R150). -/
theorem getD_inverseTransform (x : List (Cplx F)) (d : Cplx F) {j : Nat}
    (hj : j < padLength x.length) :
    (inverseTransform N x).getD j d =
      cdivr N ((transform N x).getD (mirror (padLength x.length) j) d)
        (N.ofNat (padLength x.length)) := by
  have hm := mirror_lt hj
  simp only [inverseTransform, length_transform]
  rw [getD_reverseTail _ _ (by simpa using hj), List.length_map, length_transform,
    List.getD_eq_getElem _ _ (by simpa using hm), List.getElem_map,
    ← List.getD_eq_getElem _ d]

/-- Settles O38, by the elements of `IT`. -/
theorem inverseDividesThenReversesTheTail : Obligations.InverseDividesThenReversesTheTail := by
  intro F N x d
  rw [length_transform]
  exact ⟨length_inverseTransform N x, fun j hj => getD_inverseTransform N x d hj⟩

end Sys2Proof.Machine
end

section
/-! The transform in exact arithmetic (41_transform R147 (e), R152). Pairs of real numbers compute as
complex numbers and the twiddles are the powers of one primitive root of unity, so `T` is the
Fourier sum: the sum of a sequence of even length splits into those of its halves. `IT` undoes it,
since the powers of a root of unity other than 1 sum to 0. -/

namespace Sys2Proof.Machine

/-! ### Pairs as complex numbers -/

theorem pairToComplex_injective : Function.Injective pairToComplex := by
  rintro ⟨a, b⟩ ⟨c, d⟩ h
  obtain ⟨hre, him⟩ := Complex.ext_iff.1 h
  exact congrArg₂ Cplx.mk hre him

@[simp] theorem pairToComplex_cadd (a b : Cplx ℝ) :
    pairToComplex (cadd exactNum a b) = pairToComplex a + pairToComplex b := rfl

@[simp] theorem pairToComplex_cmul (a b : Cplx ℝ) :
    pairToComplex (cmul exactNum a b) = pairToComplex a * pairToComplex b :=
  (Complex.ext (Complex.mul_re (pairToComplex a) (pairToComplex b))
    (Complex.mul_im (pairToComplex a) (pairToComplex b))).symm

@[simp] theorem pairToComplex_cdivr (a : Cplx ℝ) (n : ℕ) :
    pairToComplex (cdivr exactNum a (exactNum.ofNat n)) = pairToComplex a / n :=
  (Complex.ext (Complex.div_natCast_re (pairToComplex a) n)
    (Complex.div_natCast_im (pairToComplex a) n)).symm

/-! ### Roots of unity -/

/-- `e^(2πi/n)`. -/
noncomputable def unitRoot (n : ℕ) : ℂ := Complex.exp (2 * Real.pi * Complex.I / n)

theorem unitRoot_isPrimitiveRoot {n : ℕ} (hn : n ≠ 0) : IsPrimitiveRoot (unitRoot n) n :=
  Complex.isPrimitiveRoot_exp n hn

theorem rootOfUnity_eq_pow (j k n : ℕ) : rootOfUnity j k n = unitRoot n ^ (j * k) := by
  rw [rootOfUnity, unitRoot, ← Complex.exp_nat_mul]
  push_cast
  ring_nf

@[simp] theorem pairToComplex_twiddle (i n : ℕ) :
    pairToComplex (twiddle exactNum i n) = unitRoot n ^ i := by
  have hangle : i * (2 * Real.pi * Complex.I / n) =
      ((twiddleAngle exactNum i n : ℝ) : ℂ) * Complex.I := by
    simp only [twiddleAngle, Num.twoPi, exactNum]
    push_cast
    ring
  rw [unitRoot, ← Complex.exp_nat_mul, hangle, Complex.exp_mul_I, ← Complex.ofReal_cos,
    ← Complex.ofReal_sin]
  exact Complex.mk_eq_add_mul_I _ _

theorem unitRoot_two_mul_sq (n : ℕ) : unitRoot (2 * n) ^ 2 = unitRoot n := by
  rw [unitRoot, unitRoot, ← Complex.exp_nat_mul, ← mul_div_assoc]
  push_cast
  rw [mul_div_mul_left _ _ two_ne_zero]

/-- The powers of `e^(2πi·m/n)` sum to `n` where that is 1, and to 0 where it is not. -/
theorem sum_unitRoot_pow {n : ℕ} (hn : n ≠ 0) (m : ℕ) :
    ∑ j ∈ Finset.range n, (unitRoot n ^ m) ^ j = if n ∣ m then (n : ℂ) else 0 := by
  have hone := (unitRoot_isPrimitiveRoot hn).pow_eq_one_iff_dvd m
  split
  case isTrue h => simp [hone.2 h]
  case isFalse h =>
    have hsub : unitRoot n ^ m - 1 ≠ 0 := sub_ne_zero.2 (mt hone.1 h)
    apply (mul_eq_zero.1 ?_).resolve_right hsub
    rw [geom_sum_mul, pow_right_comm, (unitRoot_isPrimitiveRoot hn).pow_eq_one, one_pow, sub_self]

/-! ### The Fourier sum -/

/-- Bin `k` of the discrete Fourier transform of `p`, with a positive exponent. -/
noncomputable def fourierSum (p : List (Cplx ℝ)) (k : ℕ) : ℂ :=
  ∑ j ∈ Finset.range p.length,
    pairToComplex (p.getD j exactNum.czero) * unitRoot p.length ^ (j * k)

theorem sum_range_two_mul (f : ℕ → ℂ) (n : ℕ) :
    ∑ j ∈ Finset.range (2 * n), f j =
      ∑ j ∈ Finset.range n, f (2 * j) + ∑ j ∈ Finset.range n, f (2 * j + 1) := by
  rw [← Finset.sum_add_distrib]
  induction n with
  | zero => rfl
  | succ n ih =>
    rw [Nat.mul_succ, Finset.sum_range_succ, Finset.sum_range_succ, ih, Finset.sum_range_succ,
      add_assoc]

theorem getD_evens {F : Type} (N : Num F) (p : List (Cplx F)) {j : ℕ} (hj : j < p.length / 2) :
    (evens N p).getD j N.czero = p.getD (2 * j) N.czero := by
  rw [List.getD_eq_getElem _ _ (by simpa using hj)]
  simp [evens]

theorem getD_odds {F : Type} (N : Num F) (p : List (Cplx F)) {j : ℕ} (hj : j < p.length / 2) :
    (odds N p).getD j N.czero = p.getD (2 * j + 1) N.czero := by
  rw [List.getD_eq_getElem _ _ (by simpa using hj)]
  simp [odds]

theorem getD_combine {F : Type} (N : Num F) (sz : ℕ) (ev od : List (Cplx F)) (d : Cplx F) {i : ℕ}
    (hi : i < sz) : (combine N sz ev od).getD i d = butterfly N sz ev od i := by
  rw [List.getD_eq_getElem _ _ (by simpa using hi)]
  simp [combine]

/-- A bin of the whole from a bin of each half. -/
theorem fourierSum_split {p : List (Cplx ℝ)} {h : ℕ} (hp : p.length = 2 * h) (hh : h ≠ 0) (k : ℕ) :
    fourierSum p k = fourierSum (evens exactNum p) (k % h) +
      unitRoot (2 * h) ^ k * fourierSum (odds exactNum p) (k % h) := by
  have hhalf : p.length / 2 = h := by omega
  have hroot (j : ℕ) : unitRoot h ^ (j * (k % h)) = unitRoot (2 * h) ^ (2 * j * k) := by
    rw [mul_comm j, pow_mul, ← pow_eq_pow_mod k (unitRoot_isPrimitiveRoot hh).pow_eq_one, ← pow_mul,
      ← unitRoot_two_mul_sq, ← pow_mul]
    ring_nf
  simp only [fourierSum, length_evens, length_odds, hhalf]
  rw [hp, sum_range_two_mul, Finset.mul_sum]
  congr 1 <;> refine Finset.sum_congr rfl fun j hj => ?_
  · rw [getD_evens _ _ (hhalf ▸ Finset.mem_range.1 hj), hroot]
  · rw [getD_odds _ _ (hhalf ▸ Finset.mem_range.1 hj), hroot]
    ring

/-- On a length that is a power of two, `T` is the Fourier sum. -/
theorem transform_eq_fourierSum (m : ℕ) {p : List (Cplx ℝ)} (hp : p.length = 2 ^ m) {k : ℕ}
    (hk : k < p.length) :
    pairToComplex ((transform exactNum p).getD k exactNum.czero) = fourierSum p k := by
  induction m generalizing p k with
  | zero =>
    obtain ⟨v, rfl⟩ := List.length_eq_one_iff.1 hp
    obtain rfl : k = 0 := by simpa using hk
    simp [transform_of_short, fourierSum]
  | succ m ih =>
    have hlen : p.length = 2 * 2 ^ m := by rw [hp, pow_succ, mul_comm]
    have hpos : 0 < 2 ^ m := Nat.two_pow_pos m
    have hhalf : p.length / 2 = 2 ^ m := by omega
    have hmod : k % 2 ^ m < 2 ^ m := Nat.mod_lt _ hpos
    have hpad : pad exactNum p = p := pad_eq_self _ (by rw [hp, padLength_two_pow])
    rw [transform_eq_combine _ (by omega), hpad, getD_combine _ _ _ _ _ hk, butterfly, hhalf,
      pairToComplex_cadd, pairToComplex_cmul, pairToComplex_twiddle,
      ih (by rw [length_evens, hhalf]) (by rwa [length_evens, hhalf]),
      ih (by rw [length_odds, hhalf]) (by rwa [length_odds, hhalf]),
      fourierSum_split hlen hpos.ne', hlen]

theorem transform_eq_fourierSum_pad (x : List (Cplx ℝ)) {k : ℕ}
    (hk : k < (pad exactNum x).length) :
    pairToComplex ((transform exactNum x).getD k exactNum.czero) =
      fourierSum (pad exactNum x) k := by
  obtain h | ⟨m, h⟩ := padLength_eq_zero_or_pow x.length
  · rw [length_pad] at hk; omega
  · rw [← transform_pad, transform_eq_fourierSum m (by rw [length_pad, h]) hk]

/-- Settles O39: `T` of a sequence is that of the padded one, whose length is a power of two. -/
theorem exactTransformIsTheFourierSum : Obligations.ExactTransformIsTheFourierSum := by
  intro x k hk
  refine ⟨by rw [length_transform, length_pad], ?_⟩
  simp only [rootOfUnity_eq_pow]
  exact transform_eq_fourierSum_pad x hk

/-! ### The inverse -/

theorem dvd_add_mirror_iff {n j l : ℕ} (hj : j < n) (hl : l < n) :
    n ∣ l + mirror n j ↔ l = j := by
  rw [mirror]
  constructor
  · rintro ⟨c, hc⟩
    have hc2 : c < 2 := by
      by_contra hge
      have := Nat.mul_le_mul_left n (Nat.not_lt.1 hge)
      split at hc <;> omega
    obtain rfl | rfl : c = 0 ∨ c = 1 := by omega
    · split at hc <;> omega
    · split at hc <;> omega
  · rintro rfl
    split
    · simp_all
    · exact ⟨1, by omega⟩

/-- The Fourier sum of the Fourier sums, at the mirrored bin, is the sequence times its length. -/
theorem fourierSum_mirror {p q : List (Cplx ℝ)} (hlen : q.length = p.length)
    (hq : ∀ k < p.length, pairToComplex (q.getD k exactNum.czero) = fourierSum p k)
    {j : ℕ} (hj : j < p.length) :
    fourierSum q (mirror p.length j) = pairToComplex (p.getD j exactNum.czero) * p.length := by
  have hn : p.length ≠ 0 := by omega
  calc fourierSum q (mirror p.length j)
      = ∑ k ∈ Finset.range p.length, ∑ l ∈ Finset.range p.length,
          pairToComplex (p.getD l exactNum.czero) *
            (unitRoot p.length ^ (l + mirror p.length j)) ^ k := by
        rw [fourierSum, hlen]
        refine Finset.sum_congr rfl fun k hk => ?_
        rw [hq k (Finset.mem_range.1 hk), fourierSum, Finset.sum_mul]
        refine Finset.sum_congr rfl fun l _ => ?_
        rw [mul_assoc, ← pow_add, ← pow_mul]
        ring_nf
    _ = ∑ l ∈ Finset.range p.length, pairToComplex (p.getD l exactNum.czero) *
          (if p.length ∣ l + mirror p.length j then (p.length : ℂ) else 0) := by
        rw [Finset.sum_comm]
        simp only [← Finset.mul_sum, sum_unitRoot_pow hn]
    _ = ∑ l ∈ Finset.range p.length,
          if l = j then pairToComplex (p.getD j exactNum.czero) * p.length else 0 := by
        refine Finset.sum_congr rfl fun l hl => ?_
        simp only [dvd_add_mirror_iff hj (Finset.mem_range.1 hl)]
        split <;> simp_all
    _ = pairToComplex (p.getD j exactNum.czero) * p.length := by
        rw [Finset.sum_ite_eq', if_pos (Finset.mem_range.2 hj)]

theorem inverseTransform_transform (x : List (Cplx ℝ)) :
    inverseTransform exactNum (transform exactNum x) = pad exactNum x := by
  have hlen : (transform exactNum x).length = (pad exactNum x).length := by
    rw [length_transform, length_pad]
  have hpad : pad exactNum (transform exactNum x) = transform exactNum x :=
    pad_eq_self _ (by rw [length_transform, padLength_padLength])
  refine List.ext_getElem (by simp) fun j hj hj' => pairToComplex_injective ?_
  have hn : ((pad exactNum x).length : ℂ) ≠ 0 := Nat.cast_ne_zero.2 (by omega)
  have hfull : padLength (transform exactNum x).length = (pad exactNum x).length := by simp
  rw [← List.getD_eq_getElem _ exactNum.czero hj, ← List.getD_eq_getElem _ exactNum.czero hj',
    getD_inverseTransform _ _ _ (hfull ▸ hj'), hfull, pairToComplex_cdivr,
    transform_eq_fourierSum_pad _ (by rw [hpad, hlen]; exact mirror_lt hj'), hpad,
    fourierSum_mirror hlen (fun k hk => transform_eq_fourierSum_pad x hk) hj',
    mul_div_cancel_right₀ _ hn]

/-- Settles O40; the second clause is the first for the padded sequence. -/
theorem exactInverseUndoesTheTransform : Obligations.ExactInverseUndoesTheTransform := fun x =>
  ⟨inverseTransform_transform x, by rw [inverseTransform_transform, pad_pad, take_pad]⟩

end Sys2Proof.Machine
end

section
/-! The commands on the sequence memory (41_transform R141 to R153). Each either raises the error its
check names (`State.command_error`) or leaves the state it wrote with one response
(`State.command_wrote`); `PAD`, `FFT` and `IFFT` write a sequence of the padded length, which the
capacity holds. -/

namespace Sys2Proof.Machine

variable {s : State}

/-! ### A check before the effect -/

theorem State.command_checked_error {p : Prop} [Decidable p] (c : ErrCode)
    (r : Except ErrCode Effect) (hrun : s.halt = false) (hp : p) :
    s.command (if p then .error c else r) = .next (s.raise c) :=
  (congrArg s.command (if_pos hp)).trans (State.command_error c hrun)

theorem State.command_checked_wrote {p : Prop} [Decidable p] (c : ErrCode) (t : State)
    (hrun : s.halt = false) (hp : ¬ p) :
    s.command (if p then .error c else wrote t) = .next (t.respond 0#128) :=
  (congrArg s.command (if_neg hp)).trans (State.command_wrote t hrun)

/-! ### Lengths and elements -/

/-- Settles O41, by the check of the capacity; what a read gives after a change of length is
`State.xElem_setXLen`. -/
theorem xsetlenKeepsAndZeroes : Obligations.XsetlenKeepsAndZeroes := by
  intro s n hrun
  refine ⟨rfl, fun hle => ⟨(s.setXLen n).respond 0#128,
    State.command_checked_wrote _ _ hrun (Nat.not_lt.2 hle), fun j hn hold => ?_,
    fun j _ hnew => ?_, rfl⟩, State.command_checked_error _ _ hrun⟩
  · exact (State.xElem_setXLen n j).trans (if_pos (lt_min hn hold))
  · exact (State.xElem_setXLen n j).trans
      (if_neg fun hlt => Nat.not_lt.2 hnew (lt_min_iff.1 hlt).2)

/-- Settles O42, by the check of the index; in canonical form a write is read at its own index
only (`State.xElem_setX`). -/
theorem xwrStoresTheDataInput : Obligations.XwrStoresTheDataInput := by
  intro s idx hrun hwf
  exact ⟨rfl, fun hlt => ⟨(s.setX idx.toNat (dinComplex s.inputs.din)).respond 0#128,
    State.command_checked_wrote _ _ hrun (Nat.not_le.2 hlt),
    fun j => State.xElem_setX idx.toNat j _ hwf, rfl⟩, State.command_checked_error _ _ hrun⟩

/-- Settles O43, by the check of the index; the state is answered as it was. -/
theorem xrdAnswersTheElement : Obligations.XrdAnswersTheElement := by
  intro s idx hrun
  exact ⟨rfl, fun hlt => (congrArg s.command (if_neg (Nat.not_le.2 hlt))).trans
    (State.command_answered _ hrun), State.command_checked_error _ _ hrun⟩

/-- Settles O47, by the check of the index; an element from `XLEN` on reads as zero before and
after. -/
theorem ztailZeroesTheTail : Obligations.ZtailZeroesTheTail := by
  intro s k hrun hwithin
  refine ⟨rfl, fun hle => ⟨(s.zeroXFrom k.toNat).respond 0#128,
    State.command_checked_wrote _ _ hrun (Nat.not_lt.2 hle), fun j => ?_, rfl⟩,
    State.command_checked_error _ _ hrun⟩
  refine (State.xElem_zeroXFrom k.toNat j).trans ?_
  obtain hbelow | htail := Nat.lt_or_ge j k.toNat
  · rw [if_pos hbelow, if_neg (by omega)]
  · rw [if_neg (Nat.not_lt.2 htail)]
    obtain hin | hbeyond := Nat.lt_or_ge j s.xLen.toNat
    · rw [if_pos ⟨htail, hin⟩]; rfl
    · rw [if_neg (by omega)]
      exact (Memory.read_beyond czero s.x _ j hwithin hbeyond).symm

/-! ### Whole sequences -/

/-- What a whole-sequence command leaves: the sequence, and its length without wrapping, within the
capacity. -/
theorem State.setXSeq_of_length_eq_padLength {xs : List C64}
    (hxs : xs.length = padLength s.xLen.toNat) (hcap : s.xLen.toNat ≤ Config.NMAX) :
    (s.setXSeq xs).xSeq = xs ∧ (s.setXSeq xs).xLen.toNat = (pad num s.xSeq).length ∧
      (s.setXSeq xs).xLen.toNat ≤ Config.NMAX := by
  have hle : xs.length ≤ Config.NMAX := hxs ▸ padLength_le_NMAX hcap
  have hwrap : xs.length < 2 ^ 64 := by have := NMAX_le; omega
  have hlen : (s.setXSeq xs).xLen.toNat = xs.length :=
    (BitVec.toNat_ofNat _ _).trans (Nat.mod_eq_of_lt hwrap)
  exact ⟨State.xSeq_setXSeq xs hwrap, by rw [hlen, hxs, length_pad, State.length_xSeq],
    hlen ▸ hle⟩

/-- Settles O44: the padded sequence has the padded length, which the capacity holds. -/
theorem padCommandPadsTheSequence : Obligations.PadCommandPadsTheSequence := by
  intro s hrun hcap
  obtain ⟨hseq, hlen, hle⟩ := State.setXSeq_of_length_eq_padLength (s := s)
    (xs := pad num s.xSeq) (by rw [length_pad, State.length_xSeq]) hcap
  exact ⟨rfl, (s.setXSeq (pad num s.xSeq)).respond 0#128, State.command_wrote _ hrun, hseq, hlen,
    hle, rfl⟩

/-- Settles O45: the transform has the padded length, and a sequence of length 0 or 1 is its own
transform. -/
theorem fftCommandTransformsTheSequence : Obligations.FftCommandTransformsTheSequence := by
  intro s hrun hcap
  obtain ⟨hseq, hlen, hle⟩ := State.setXSeq_of_length_eq_padLength (s := s)
    (xs := transform num s.xSeq) (by rw [length_transform, State.length_xSeq]) hcap
  exact ⟨rfl, (s.setXSeq (transform num s.xSeq)).respond 0#128, State.command_wrote _ hrun, hseq,
    hlen, hle, fun hshort => hseq.trans (transform_of_short num (by rwa [State.length_xSeq])), rfl⟩

/-- Settles O46: the inverse transform has the padded length too. -/
theorem ifftCommandInvertsTheSequence : Obligations.IfftCommandInvertsTheSequence := by
  intro s hrun hcap
  obtain ⟨hseq, hlen, hle⟩ := State.setXSeq_of_length_eq_padLength (s := s)
    (xs := inverseTransform num s.xSeq) (by rw [length_inverseTransform, State.length_xSeq]) hcap
  exact ⟨rfl, (s.setXSeq (inverseTransform num s.xSeq)).respond 0#128, State.command_wrote _ hrun,
    hseq, hlen, hle, rfl⟩

end Sys2Proof.Machine
end

section
/-! The header and the duration (42_container R172 to R174; 20_memory R61). A field is assembled from
its bytes one at a time, and the duration's whole seconds fit the 32 bits of a duration register. -/

namespace Sys2Proof.Machine

/-! ### Little-endian numbers -/

/-- The byte at an offset is the least significant one, and the next offset has the rest; beyond the
end both are zero. -/
theorem leNat_take_drop_succ (b : List Byte) (o n : Nat) :
    leNat ((b.drop o).take (n + 1)) =
      (b.getD o 0#8).toNat + 2 ^ 8 * leNat ((b.drop (o + 1)).take n) := by
  obtain hin | hbeyond := Nat.lt_or_ge o b.length
  · rw [List.drop_eq_getElem_cons hin, List.take_succ_cons, leNat, List.getD_eq_getElem _ _ hin]
  · simp [List.drop_eq_nil_of_le, hbeyond, Nat.le_succ_of_le hbeyond, leNat]

theorem le16At_toNat (b : List Byte) (o : Nat) :
    (le16At b o).toNat = (b.getD o 0#8).toNat + 2 ^ 8 * (b.getD (o + 1) 0#8).toNat := by
  have hlow := (b.getD o 0#8).isLt
  have hhigh := (b.getD (o + 1) 0#8).isLt
  rw [le16At, leNat_take_drop_succ, leNat_take_drop_succ, List.take_zero, leNat, BitVec.toNat_ofNat]
  omega

theorem le32At_toNat (b : List Byte) (o : Nat) :
    (le32At b o).toNat = (le16At b o).toNat + 2 ^ 16 * (le16At b (o + 2)).toNat := by
  have hlow := (le16At b o).isLt
  have hhigh := (le16At b (o + 2)).isLt
  rw [le32At, leNat_take_drop_succ, leNat_take_drop_succ, leNat_take_drop_succ,
    leNat_take_drop_succ, List.take_zero, leNat, BitVec.toNat_ofNat]
  simp only [le16At_toNat, Nat.add_assoc, Nat.reduceAdd] at hlow hhigh ⊢
  omega

/-- Settles O48: the fields of the header are the model's assemblies at the offsets of R172. -/
theorem headerFieldsAreLittleEndian : Obligations.HeaderFieldsAreLittleEndian := by
  intro b at4 at2 _ hat2 hat4
  have h16 : ∀ o, (le16At b o).toNat = at2 o := fun o => (le16At_toNat b o).trans (hat2 o).symm
  have h32 : ∀ o, (le32At b o).toNat = at4 o := fun o => by
    rw [le32At_toNat, h16, h16, hat4]
  exact ⟨h32 0, h32 4, h32 8, h32 12, h32 16, h16 20, h16 22, h32 24, h32 28, h16 32, h16 34,
    h32 36, h32 40⟩

/-! ### The duration -/

theorem duration_of_zero_divisor {h : Header} (hz : h.bitsPerSample.toNat / 8 = 0 ∨
    h.numChannels.toNat = 0 ∨ h.sampleRate.toNat = 0) : duration h = .error .divZero := if_pos hz

theorem duration_of_pos {h : Header} (hbps : 0 < h.bitsPerSample.toNat / 8)
    (hch : 0 < h.numChannels.toNat) (hrate : 0 < h.sampleRate.toNat) :
    duration h = .ok (splitSeconds (h.subchunk2Size.toNat / (h.bitsPerSample.toNat / 8) /
      h.numChannels.toNat / h.sampleRate.toNat)) := if_neg (by omega)

/-- A number of seconds that fits 32 bits is split without wrapping. -/
theorem splitSeconds_toNat {t : Nat} (ht : t < 2 ^ 32) :
    (splitSeconds t).hours.toNat = t / 3600 ∧ (splitSeconds t).minutes.toNat = t % 3600 / 60 ∧
      (splitSeconds t).seconds.toNat = t % 60 := by
  refine ⟨?_, ?_, ?_⟩ <;> simp only [splitSeconds, BitVec.toNat_ofNat] <;>
    exact Nat.mod_eq_of_lt (by omega)

/-- Settles O49: a quotient of the 32-bit `subchunk2Size` fits 32 bits. -/
theorem durationIsTheWholeSeconds : Obligations.DurationIsTheWholeSeconds := by
  intro h
  refine ⟨duration_of_zero_divisor, fun hbps hch hrate => ?_⟩
  set t := h.subchunk2Size.toNat / (h.bitsPerSample.toNat / 8) / h.numChannels.toNat /
    h.sampleRate.toNat with ht_def
  have ht : t < 2 ^ 32 :=
    calc t ≤ h.subchunk2Size.toNat :=
          (Nat.div_le_self _ _).trans ((Nat.div_le_self _ _).trans (Nat.div_le_self _ _))
      _ < 2 ^ 32 := h.subchunk2Size.isLt
  obtain ⟨hhours, hminutes, hseconds⟩ := splitSeconds_toNat ht
  exact ⟨splitSeconds t, t, duration_of_pos hbps hch hrate, rfl,
    by rw [ht_def, Nat.div_div_eq_div_mul, Nat.div_div_eq_div_mul, Nat.mul_assoc], hhours,
    hminutes, hseconds, by omega, by omega, by omega, by omega⟩

end Sys2Proof.Machine
end

section
/-! The commands on the file and the payload (42_container R175 to R188). `LOAD` is its derivation
`deriveFile` in the frame of a command; a completed `LOAD` or `UPDATE` is told from an error by the
halted state, and leaves `BUF` as the bytes that a later `SAVE` delivers. -/

namespace Sys2Proof.Machine

variable {s t u v : State} {bytes : List Byte}

/-! ### A command that leaves the engine running -/

/-- A command that does not leave the engine halted has completed. -/
theorem State.command_completed {r : Except ErrCode Effect} (h : s.command r = .next t)
    (ht : t.halt = false) : ∃ e, r = .ok e ∧ t = e.state.answer .ok e.dout e.sink := by
  obtain ⟨hhalt, rfl⟩ | ⟨-, he⟩ | ⟨-, c, -, rfl⟩ := State.command_cases h
  · exact absurd (hhalt.symm.trans ht) (by decide)
  · exact he
  · exact absurd ht (by simp)

/-! ### `LOAD` -/

/-- `BUF` and `BUFLEN` become a file, with what is derived from it (42_container R175). -/
def State.setFile (s : State) (bytes : List Byte) (d : Derived) : State :=
  { s.setBuf bytes with derived := some d }

theorem State.bufBytes_setFile (d : Derived) (hcap : bytes.length ≤ Config.BUFMAX) :
    (s.setFile bytes d).bufBytes = bytes :=
  State.bufBytes_setBuf (s := s) bytes (by have := BUFMAX_le; omega)

theorem execLoad_absent (hsrc : s.inputs.source = .absent) :
    execLoad s = s.command (.error .notFound) := by
  rw [execLoad, hsrc]

theorem execLoad_present (hsrc : s.inputs.source = .present bytes) :
    execLoad s = s.command ((deriveFile bytes).bind fun d => wrote (s.setFile bytes d)) := by
  rw [execLoad, hsrc]
  rfl

theorem execLoad_error {c : ErrCode} (hrun : s.halt = false)
    (hsrc : s.inputs.source = .present bytes) (hd : deriveFile bytes = .error c) :
    execLoad s = .next (s.raise c) := by
  rw [execLoad_present hsrc, hd]
  exact State.command_error c hrun

theorem execLoad_ok {d : Derived} (hrun : s.halt = false)
    (hsrc : s.inputs.source = .present bytes) (hd : deriveFile bytes = .ok d) :
    execLoad s = .next ((s.setFile bytes d).respond 0#128) := by
  rw [execLoad_present hsrc, hd]
  exact State.command_wrote _ hrun

theorem deriveFile_of_cap (hcap : Config.BUFMAX < bytes.length) :
    deriveFile bytes = .error .cap := if_pos hcap

/-- A file without a whole header is within the capacity. -/
theorem deriveFile_of_short (hshort : bytes.length < Config.HDRLEN) :
    deriveFile bytes = .error .short :=
  (if_neg (by have := BUFMAX_ge; have := HDRLEN_eq; omega)).trans (if_pos hshort)

theorem deriveFile_of_header (hlen : Config.HDRLEN ≤ bytes.length)
    (hcap : bytes.length ≤ Config.BUFMAX) :
    deriveFile bytes = (duration (parseHeader (bytes.take Config.HDRLEN))).map fun d =>
      ⟨parseHeader (bytes.take Config.HDRLEN), d⟩ :=
  (if_neg (Nat.not_lt.2 hcap)).trans (if_neg (Nat.not_lt.2 hlen))

/-- Settles O50, by the checks of `deriveFile` in their order. -/
theorem loadReplacesTheFileOrRaises : Obligations.LoadReplacesTheFileOrRaises := by
  intro s hrun
  refine ⟨rfl, fun hsrc => (execLoad_absent hsrc).trans (State.command_error _ hrun),
    fun bytes hsrc => ⟨fun hcap => execLoad_error hrun hsrc (deriveFile_of_cap hcap),
      fun hshort => execLoad_error hrun hsrc (deriveFile_of_short hshort), ?_⟩⟩
  rintro hlen hcap h rfl
  have hderive := deriveFile_of_header hlen hcap
  refine ⟨fun hzero => execLoad_error hrun hsrc ?_, fun d hdur => ?_⟩
  · rw [hderive, HDRLEN_eq, hzero]; rfl
  · have hd : deriveFile bytes = .ok ⟨parseHeader (bytes.take 44), d⟩ := by
      rw [hderive, HDRLEN_eq, hdur]; rfl
    exact ⟨_, execLoad_ok hrun hsrc hd,
      State.bufBytes_setFile (s := s) ⟨parseHeader (bytes.take 44), d⟩ hcap,
      toNat_ofNat_of_le (hcap.trans BUFMAX_le), rfl, rfl, rfl⟩

/-- A completed `LOAD` has accepted its source, which is then the file. -/
theorem bufBytes_of_execLoad (hsrc : s.inputs.source = .present bytes)
    (h : execLoad s = .next t) (ht : t.halt = false) : t.bufBytes = bytes := by
  rw [execLoad_present hsrc] at h
  obtain ⟨e, he, rfl⟩ := State.command_completed h ht
  cases hd : deriveFile bytes with
  | error c => rw [hd] at he; cases he
  | ok d =>
    rw [hd] at he
    cases he
    obtain ⟨-, hcap, -, -⟩ := deriveFile_ok hd
    exact State.bufBytes_setFile (s := s) d hcap

/-! ### `SAVE` -/

theorem execSave_delivers (hrun : s.halt = false) (hsink : s.inputs.sinkOk = true) :
    execSave s = .next { s with
      responses := s.responses ++ [⟨.ok, 0#128, some s.bufBytes⟩] } :=
  (congrArg s.command (if_pos hsink)).trans (State.command_ok _ hrun)

theorem execSave_unwritable (hrun : s.halt = false) (hsink : s.inputs.sinkOk = false) :
    execSave s = .next (s.raise .unwritable) :=
  (congrArg s.command (if_neg (by simp [hsink]))).trans (State.command_error _ hrun)

/-- Settles O51: what is delivered is the sequence `BUF[0..BUFLEN)`. -/
theorem saveDeliversTheBuffer : Obligations.SaveDeliversTheBuffer := fun s hrun =>
  ⟨rfl, fun hsink => ⟨s.bufBytes, execSave_delivers hrun hsink, State.length_bufBytes,
    fun a ha => Memory.getD_toList 0#8 0#8 s.buf _ a ha⟩, execSave_unwritable hrun⟩

/-! ### `EXTRACT` -/

theorem State.getD_drop_bufBytes {k a : Nat} (h : k + a < s.bufLen.toNat) :
    (s.bufBytes.drop k).getD a 0#8 = s.bufByte (k + a) := by
  rw [List.getD_eq_getElem?_getD, List.getElem?_drop, ← List.getD_eq_getElem?_getD]
  exact Memory.getD_toList 0#8 0#8 s.buf _ _ h

/-- Settles O53, by the check of `BUFLEN`; the payload is the file behind its header. -/
theorem extractCopiesThePayload : Obligations.ExtractCopiesThePayload := by
  intro s hrun
  refine ⟨rfl, fun hlen => ⟨(s.setPaySeq (s.bufBytes.drop Config.HDRLEN)).respond 0#128,
    State.command_checked_wrote _ _ hrun (Nat.not_lt.2 hlen), ?_, fun a ha => ?_, rfl⟩,
    State.command_checked_error _ _ hrun⟩
  · have hfits := s.bufLen.isLt
    simp only [State.respond_payLen, State.setPaySeq_payLen, List.length_drop,
      State.length_bufBytes, HDRLEN_eq, BitVec.toNat_ofNat]
    omega
  · exact (State.payByte_setPaySeq (s := s) _ a).trans
      (State.getD_drop_bufBytes (by rw [HDRLEN_eq]; omega))

/-! ### `UPDATE` -/

/-- `BUF` with the bytes behind the header replaced by the payload. -/
def State.updateFile (s : State) : State :=
  s.setBuf (s.bufBytes.take Config.HDRLEN ++ s.payBytes)

theorem execUpdate_short (hrun : s.halt = false) (hshort : s.bufLen.toNat < Config.HDRLEN) :
    execUpdate s = .next (s.raise .short) := State.command_checked_error _ _ hrun hshort

theorem execUpdate_invalidArg (hrun : s.halt = false) (hlen : Config.HDRLEN ≤ s.bufLen.toNat)
    (hpay : s.payLen.toNat ≠ s.bufLen.toNat - Config.HDRLEN) :
    execUpdate s = .next (s.raise .invalidArg) :=
  (congrArg s.command (if_neg (Nat.not_lt.2 hlen))).trans
    (State.command_checked_error _ _ hrun hpay)

theorem execUpdate_ok (hrun : s.halt = false) (hlen : Config.HDRLEN ≤ s.bufLen.toNat)
    (hpay : s.payLen.toNat = s.bufLen.toNat - Config.HDRLEN) :
    execUpdate s = .next (s.updateFile.respond 0#128) :=
  (congrArg s.command (if_neg (Nat.not_lt.2 hlen))).trans
    (State.command_checked_wrote _ _ hrun (not_not.2 hpay))

theorem State.updateFile_bufLen (hlen : Config.HDRLEN ≤ s.bufLen.toNat)
    (hpay : s.payLen.toNat = s.bufLen.toNat - Config.HDRLEN) :
    s.updateFile.bufLen = s.bufLen := by
  rw [State.updateFile, State.setBuf_bufLen, length_updatedFile hlen hpay, BitVec.ofNat_toNat,
    BitVec.setWidth_eq]

theorem State.bufBytes_updateFile (hlen : Config.HDRLEN ≤ s.bufLen.toNat)
    (hpay : s.payLen.toNat = s.bufLen.toNat - Config.HDRLEN) :
    s.updateFile.bufBytes = s.bufBytes.take Config.HDRLEN ++ s.payBytes :=
  State.bufBytes_setBuf _ (by rw [length_updatedFile hlen hpay]; exact s.bufLen.isLt)

/-- The bytes of an updated file: the header's, then the payload's; none beyond the length. -/
theorem State.bufByte_updateFile (hwithin : Memory.within s.buf s.bufLen.toNat)
    (hlen : 44 ≤ s.bufLen.toNat) (hpay : s.payLen.toNat = s.bufLen.toNat - 44) (a : Nat) :
    s.updateFile.bufByte a =
      if 44 ≤ a ∧ a < s.bufLen.toNat then s.payByte (a - 44) else s.bufByte a := by
  have htake : (s.bufBytes.take Config.HDRLEN).length = 44 := by
    rw [List.length_take, State.length_bufBytes, HDRLEN_eq]; omega
  refine (State.bufByte_setBuf _ a).trans ?_
  obtain hheader | hpayload := Nat.lt_or_ge a 44
  · rw [if_neg (by omega), List.getD_append _ _ _ _ (by omega), List.getD_eq_getElem _ _ (by omega),
      List.getElem_take]
    exact State.getElem_bufBytes a _
  · rw [List.getD_append_right _ _ _ _ (by omega), htake]
    obtain hin | hbeyond := Nat.lt_or_ge a s.bufLen.toNat
    · rw [if_pos ⟨hpayload, hin⟩]
      exact Memory.getD_toList 0#8 0#8 s.pay _ _ (by omega)
    · rw [if_neg (by omega), List.getD_eq_default _ _ (by rw [State.length_payBytes]; omega)]
      exact (Memory.read_beyond 0#8 s.buf _ a hwithin hbeyond).symm

/-- Settles O54, by the two checks in their order and the bytes of the updated file. -/
theorem updateOverwritesThePayloadInPlace : Obligations.UpdateOverwritesThePayloadInPlace := by
  intro s hrun hwithin
  refine ⟨rfl, fun hlen hpay => ⟨s.updateFile.respond 0#128, execUpdate_ok hrun hlen hpay,
    State.bufByte_updateFile hwithin hlen hpay, ?_⟩, execUpdate_short hrun,
    execUpdate_invalidArg hrun⟩
  calc s.updateFile.respond 0#128
      = { s with buf := s.updateFile.buf, bufLen := s.updateFile.bufLen,
                 responses := s.responses ++ [⟨.ok, 0#128, none⟩] } := rfl
    _ = _ := by rw [State.updateFile_bufLen hlen hpay]; rfl

/-- A completed `UPDATE` leaves the header of the file and the payload behind it. -/
theorem bufBytes_of_execUpdate (h : execUpdate u = .next v) (hv : v.halt = false) :
    v.bufBytes = u.bufBytes.take Config.HDRLEN ++ u.payBytes := by
  obtain ⟨e, he, rfl⟩ := State.command_completed h hv
  by_cases hshort : u.bufLen.toNat < Config.HDRLEN
  · rw [if_pos hshort] at he; cases he
  by_cases hpay : u.payLen.toNat = u.bufLen.toNat - Config.HDRLEN
  · rw [if_neg hshort, if_neg (not_not.2 hpay)] at he
    cases he
    exact State.bufBytes_updateFile (Nat.not_lt.1 hshort) hpay
  · rw [if_neg hshort, if_pos hpay] at he; cases he

/-! ### What a later `SAVE` delivers -/

theorem State.bufBytes_congr (hbuf : u.buf = t.buf) (hlen : u.bufLen = t.bufLen) :
    u.bufBytes = t.bufBytes := by
  rw [State.bufBytes, hbuf, hlen, State.bufBytes]

/-- Settles O52: `SAVE` delivers what the completed `LOAD` or `UPDATE` left in `BUF`. -/
theorem saveReproducesTheLoadedSource : Obligations.SaveReproducesTheLoadedSource := by
  intro s t u w bytes _ hsrc hload ht hbuf hbufLen hu
  have hsource : u.bufBytes = bytes :=
    (State.bufBytes_congr hbuf hbufLen).trans (bufBytes_of_execLoad hsrc hload ht)
  refine ⟨fun hsink => ?_, fun v hupdate hv hbufw hbufLenw hw hsink => ?_⟩
  · exact hsource ▸ execSave_delivers hu hsink
  · have hupdated : w.bufBytes = bytes.take 44 ++ u.payBytes := by
      rw [State.bufBytes_congr hbufw hbufLenw, bufBytes_of_execUpdate hupdate hv, hsource,
        HDRLEN_eq]
    exact hupdated ▸ execSave_delivers hw hsink

/-! ### `PSETLEN`, `PWR` and `PRD` -/

/-- Settles O55, by the check of the capacity; what a read gives after a change of length is
`State.payByte_setPayLen`. -/
theorem psetlenKeepsAndZeroes : Obligations.PsetlenKeepsAndZeroes := by
  intro s n hrun
  refine ⟨rfl, fun hle => ⟨(s.setPayLen n).respond 0#128,
    State.command_checked_wrote _ _ hrun (Nat.not_lt.2 hle), fun j hn hold => ?_,
    fun j _ hnew => ?_, rfl⟩, State.command_checked_error _ _ hrun⟩
  · exact (State.payByte_setPayLen n j).trans (if_pos (lt_min hn hold))
  · exact (State.payByte_setPayLen n j).trans
      (if_neg fun hlt => Nat.not_lt.2 hnew (lt_min_iff.1 hlt).2)

theorem dinByte_eq_ofNat (din : BitVec 128) : dinByte din = BitVec.ofNat 8 din.toNat :=
  BitVec.eq_of_toNat_eq (by simp [dinByte])

theorem doutByte_eq_ofNat (b : Byte) : doutByte b = BitVec.ofNat 128 b.toNat :=
  (BitVec.ofNat_toNat 128 b).symm

/-- Settles O56, by the check of the index; in canonical form a write is read at its own index
only (`State.payByte_setPay`). -/
theorem pwrStoresTheLowByte : Obligations.PwrStoresTheLowByte := by
  intro s idx hrun hwf
  refine ⟨rfl, fun hlt => ⟨(s.setPay idx.toNat (dinByte s.inputs.din)).respond 0#128,
    State.command_checked_wrote _ _ hrun (Nat.not_le.2 hlt), fun j => ?_, rfl⟩,
    State.command_checked_error _ _ hrun⟩
  exact dinByte_eq_ofNat s.inputs.din ▸ State.payByte_setPay idx.toNat j _ hwf

/-- Settles O57, by the check of the index; the state is answered as it was. -/
theorem prdAnswersTheByte : Obligations.PrdAnswersTheByte := by
  intro s idx hrun
  refine ⟨rfl, fun hlt => ?_, State.command_checked_error _ _ hrun⟩
  rw [← doutByte_eq_ofNat]
  exact (congrArg s.command (if_neg (Nat.not_le.2 hlt))).trans (State.command_answered _ hrun)

end Sys2Proof.Machine
end

section
/-! Lifting and quantizing (43_quantizer R201 to R204). A quantized sequence has the bytes of its
elements, or the one error an element can have. A lifted byte has at most 8 bits, where adding one
half and taking the floor are exact (40_complex_alu R112), so quantizing brings it back. -/

namespace Sys2Proof.Machine

variable {F : Type} {N : Num F} {signed : Bool} {s : State}

/-! ### The value of a byte -/

/-- A byte's value as a sample, by its unsigned value (43_quantizer R201). -/
theorem byteval_eq_ite (signed : Bool) (b : Byte) : byteval signed b =
    if signed = true ∧ 128 ≤ b.toNat then (b.toNat : Int) - 256 else b.toNat := by
  cases signed with
  | false => rfl
  | true =>
    simp only [byteval, BitVec.toInt_eq_toNat_cond, if_true, true_and]
    split <;> split <;> omega

theorem byteval_mem_range (signed : Bool) (b : Byte) :
    sampleLow signed ≤ byteval signed b ∧ byteval signed b ≤ sampleHigh signed := by
  have := b.isLt
  rw [byteval_eq_ite]
  cases signed with
  | false => exact ⟨by simp [sampleLow], by simp [sampleHigh]; omega⟩
  | true => simp only [sampleLow, sampleHigh, if_true, true_and]; split <;> omega

/-- A byte is the low 8 bits of its value, signed or not. -/
theorem ofInt_byteval (signed : Bool) (b : Byte) : BitVec.ofInt 8 (byteval signed b) = b := by
  cases signed with
  | false =>
    exact (BitVec.ofInt_natCast 8 b.toNat).trans
      ((BitVec.ofNat_toNat 8 b).trans (BitVec.setWidth_eq b))
  | true => exact BitVec.ofInt_toInt

/-! ### One element -/

theorem quantize_of_none {v : Cplx F} (h : N.toInt (N.ffloor (N.fadd v.re N.half)) = none) :
    quantize N signed v = .error .qRange := by
  rw [quantize, h]

theorem quantize_of_outside {v : Cplx F} {n : Int}
    (h : N.toInt (N.ffloor (N.fadd v.re N.half)) = some n)
    (hout : n < sampleLow signed ∨ sampleHigh signed < n) :
    quantize N signed v = .error .qRange := by
  rw [quantize, h]
  exact if_pos hout

theorem quantize_of_inside {v : Cplx F} {n : Int}
    (h : N.toInt (N.ffloor (N.fadd v.re N.half)) = some n)
    (hlow : sampleLow signed ≤ n) (hhigh : n ≤ sampleHigh signed) :
    quantize N signed v = .ok (BitVec.ofInt 8 n) := by
  rw [quantize, h]
  exact if_neg (by omega)

/-- `E_QRANGE` is the only error of an element. -/
theorem quantize_error_eq {v : Cplx F} {e : ErrCode} (h : quantize N signed v = .error e) :
    e = .qRange := by
  cases hn : N.toInt (N.ffloor (N.fadd v.re N.half)) with
  | none => exact (Except.error.inj ((quantize_of_none hn).symm.trans h)).symm
  | some n =>
    by_cases hout : n < sampleLow signed ∨ sampleHigh signed < n
    · exact (Except.error.inj ((quantize_of_outside hn hout).symm.trans h)).symm
    · cases (quantize_of_inside hn (by omega) (by omega)).symm.trans h

/-- One half more than a small integer has that integer as its floor: the sum and the floor are
exact. -/
theorem toInt_floor_add_half {v : Int} (hlow : -2 ^ 52 ≤ v) (hhigh : v < 2 ^ 52) :
    num.toInt (num.ffloor (num.fadd (num.ofInt v) num.half)) = some v := by
  obtain ⟨-, -, -, -, hhalf⟩ := integersAreRoundedAndSmallOnesExact
  obtain ⟨hfinite, hscaled⟩ := hhalf v hlow hhigh
  obtain ⟨-, -, hfloor⟩ := (floorIsExact _).1 hfinite
  rw [hfloor, hscaled, pow_succ (2 : Int) 1073, mul_comm _ (2 : Int),
    Int.mul_ediv_mul_of_pos_left _ _ (by positivity)]
  congr 1
  omega

/-- Settles O60, by the cases of `quantize`; the value of a byte is far within the integers whose
half step is exact. -/
theorem quantizeInvertsLifting : Obligations.QuantizeInvertsLifting := by
  refine ⟨fun signed v => ⟨quantize_of_none, fun n hn => ⟨fun hin => ?_, fun hout => ?_⟩⟩,
    fun signed b y => ?_⟩
  · have hrange : sampleLow signed ≤ n ∧ n ≤ sampleHigh signed := by
      obtain ⟨rfl, hlow, hhigh⟩ | ⟨rfl, hlow, hhigh⟩ := hin <;> exact ⟨hlow, hhigh⟩
    refine ⟨_, quantize_of_inside hn hrange.1 hrange.2, ?_⟩
    rw [BitVec.toNat_ofInt]
    omega
  · refine quantize_of_outside hn ?_
    obtain ⟨rfl, hout⟩ | ⟨rfl, hout⟩ := hout <;> exact hout
  · obtain ⟨hlow, hhigh⟩ := byteval_mem_range signed b
    have hsmall : -2 ^ 52 ≤ byteval signed b ∧ byteval signed b < 2 ^ 52 := by
      cases signed <;> simp [sampleLow, sampleHigh] at hlow hhigh <;> omega
    have hquantized := quantize_of_inside (v := ⟨num.ofInt (byteval signed b), y⟩)
      (toInt_floor_add_half hsmall.1 hsmall.2) hlow hhigh
    rwa [ofInt_byteval] at hquantized

/-! ### Sequences -/

theorem quantizeAll_map_ok {ι : Type} {x : ι → Cplx F} {byte : ι → Byte} {js : List ι}
    (h : ∀ j ∈ js, quantize N signed (x j) = .ok (byte j)) :
    quantizeAll N signed (js.map x) = .ok (js.map byte) := by
  induction js with
  | nil => rfl
  | cons j js ih =>
    rw [List.forall_mem_cons] at h
    rw [List.map_cons, quantizeAll, h.1, ih h.2]
    rfl

theorem quantizeAll_error {vs : List (Cplx F)} {v : Cplx F} {e : ErrCode} (hv : v ∈ vs)
    (h : quantize N signed v = .error e) : quantizeAll N signed vs = .error .qRange := by
  induction vs with
  | nil => cases hv
  | cons w vs ih =>
    rw [quantizeAll]
    cases hw : quantize N signed w with
    | error c => rw [quantize_error_eq hw]; rfl
    | ok b =>
      obtain rfl | hv := List.mem_cons.1 hv
      · cases hw.symm.trans h
      · rw [ih hv]; rfl

/-- The elements of a lifted sequence (43_quantizer R201). -/
theorem getD_liftBytes {bytes : List Byte} {j : Nat} (hj : j < bytes.length) (d : Cplx F) :
    (liftBytes N signed bytes).getD j d = ⟨N.ofInt (byteval signed bytes[j]), N.zero⟩ := by
  have hj' : j < (liftBytes N signed bytes).length := by rwa [liftBytes, List.length_map]
  rw [List.getD_eq_getElem _ _ hj']
  exact List.getElem_map _

/-! ### `LIFT` -/

/-- Settles O58, by the check of the capacity; the lifted sequence has one element per byte, and so
`PAYLEN` as its length. -/
theorem liftMakesRealSamples : Obligations.LiftMakesRealSamples := by
  intro s hrun
  refine ⟨rfl, fun hle => ⟨
    (s.setXSeq (liftBytes num Config.sampleSigned s.payBytes)).respond 0#128,
    State.command_checked_wrote _ _ hrun (Nat.not_lt.2 hle), ?_, fun j hj => ?_, rfl⟩,
    State.command_checked_error _ _ hrun⟩
  · rw [State.respond_xLen, State.setXSeq_xLen, liftBytes, List.length_map, State.length_payBytes,
      BitVec.ofNat_toNat, BitVec.setWidth_eq]
  · have hj' : j < s.payBytes.length := by rwa [State.length_payBytes]
    rw [← byteval_eq_ite, ← State.getElem_payBytes j hj']
    exact (State.xElem_setXSeq (s := s) _ j).trans (getD_liftBytes hj' czero)

/-! ### `QUANT` -/

theorem execQuant_index {count : BitVec 64} (hrun : s.halt = false)
    (hindex : s.xLen.toNat < count.toNat) : execQuant count s = .next (s.raise .index) :=
  State.command_checked_error _ _ hrun hindex

theorem execQuant_cap {count : BitVec 64} (hrun : s.halt = false)
    (hindex : count.toNat ≤ s.xLen.toNat) (hcap : Config.BUFMAX < count.toNat) :
    execQuant count s = .next (s.raise .cap) :=
  (congrArg s.command (if_neg (Nat.not_lt.2 hindex))).trans
    (State.command_checked_error _ _ hrun hcap)

/-- Within both checks `QUANT` is its quantizer in the frame of a command. -/
theorem execQuant_checked {count : BitVec 64} (hindex : count.toNat ≤ s.xLen.toNat)
    (hcap : count.toNat ≤ Config.BUFMAX) : execQuant count s = s.command
      ((quantizeAll num Config.sampleSigned ((List.range count.toNat).map s.xElem)).bind
        fun bytes => wrote (s.setPaySeq bytes)) :=
  congrArg s.command ((if_neg (Nat.not_lt.2 hindex)).trans (if_neg (Nat.not_lt.2 hcap)))

theorem execQuant_qRange {count : BitVec 64} (hrun : s.halt = false)
    (hindex : count.toNat ≤ s.xLen.toNat) (hcap : count.toNat ≤ Config.BUFMAX) {j : Nat}
    {e : ErrCode} (hj : j < count.toNat)
    (he : quantize num Config.sampleSigned (s.xElem j) = .error e) :
    execQuant count s = .next (s.raise .qRange) := by
  rw [execQuant_checked hindex hcap,
    quantizeAll_error (List.mem_map_of_mem (List.mem_range.2 hj)) he]
  exact State.command_error _ hrun

theorem execQuant_ok {count : BitVec 64} (hrun : s.halt = false)
    (hindex : count.toNat ≤ s.xLen.toNat) (hcap : count.toNat ≤ Config.BUFMAX)
    {byte : Nat → Byte}
    (h : ∀ j, j < count.toNat → quantize num Config.sampleSigned (s.xElem j) = .ok (byte j)) :
    execQuant count s =
      .next ((s.setPaySeq ((List.range count.toNat).map byte)).respond 0#128) := by
  rw [execQuant_checked hindex hcap,
    quantizeAll_map_ok fun j hj => h j (List.mem_range.1 hj)]
  exact State.command_wrote _ hrun

/-- Settles O59, by the checks in their order and the quantizer on the sequence of the first `count`
elements. -/
theorem quantWritesTheSampleBytes : Obligations.QuantWritesTheSampleBytes := by
  intro s count hrun
  refine ⟨rfl, execQuant_index hrun, execQuant_cap hrun, fun hindex hcap =>
    ⟨fun j e hj he => execQuant_qRange hrun hindex hcap hj he, fun byte h =>
      ⟨(s.setPaySeq ((List.range count.toNat).map byte)).respond 0#128,
        execQuant_ok hrun hindex hcap h, ?_, fun j hj => ?_, rfl⟩⟩⟩
  · rw [State.respond_payLen, State.setPaySeq_payLen, List.length_map, List.length_range,
      BitVec.ofNat_toNat, BitVec.setWidth_eq]
  · refine (State.payByte_setPaySeq (s := s) _ j).trans ?_
    rw [List.getD_eq_getElem _ _ (by simpa using hj), List.getElem_map, List.getElem_range]

end Sys2Proof.Machine
end

section
/-! The system commands and the run as a whole (44_system R216, R219). A step of any kind answers a
next state; `STATUS.HALT` follows the responses, because an error is the only way into the halted
state and no step but reset leaves it; `RDCSR` answers what `State.readCsr` reads. -/

namespace Sys2Proof.Machine

variable {s t : State} {i : Instr}

/-! ### Steps without a request -/

theorem step_of_host_nil (hs : s.host = []) : step s = .next s := by
  rw [step, State.receive_nothing hs]

theorem step_of_hardwareReset {rest : List HostMove} (hs : s.host = .hardwareReset :: rest) :
    step s = .next ({ s with host := rest } : State).resetEngine := by
  rw [step, State.receive_hardwareReset hs]

/-- Settles O7, by the host's next move: none, hardware reset, or a request, which has its one
response (`step_oneResponse`). -/
theorem everyStepHasANextState : Obligations.EveryStepHasANextState := by
  intro s
  cases hs : s.host with
  | nil => exact ⟨s, step_of_host_nil hs, fun _ => rfl, nofun⟩
  | cons move rest =>
    cases move with
    | hardwareReset =>
      refine ⟨_, step_of_hardwareReset hs, nofun, ?_⟩
      rintro _ ⟨⟩
      exact ⟨rfl, rfl, rfl⟩
    | request q =>
      obtain ⟨t, -, hstep, -⟩ := step_oneResponse hs
      exact ⟨t, hstep, nofun, nofun⟩

/-! ### `STATUS.HALT` and the responses -/

/-- The engine is not halted exactly when every response so far is `OK` (44_system R219). -/
def State.HaltFollowsResponses (s : State) : Prop := s.halt = false ↔ s.CompletedWithoutError

/-- One more response keeps the run without error exactly when it is `OK`. -/
@[simp] theorem State.completedWithoutError_answer (rsp : Rsp) (dout : BitVec 128)
    (sink : Option (List Byte)) : (s.answer rsp dout sink).CompletedWithoutError ↔
      s.CompletedWithoutError ∧ rsp = .ok := by
  simp [State.CompletedWithoutError, or_imp, forall_and]

theorem State.HaltFollowsResponses.present (h : s.HaltFollowsResponses) (q : Request)
    (rest : List HostMove) : (s.present q rest).HaltFollowsResponses := h

theorem State.HaltFollowsResponses.answer_ok (h : s.HaltFollowsResponses) (dout : BitVec 128)
    (sink : Option (List Byte)) : (s.answer .ok dout sink).HaltFollowsResponses :=
  Iff.trans h (by simp)

theorem State.haltFollowsResponses_raise (s : State) (c : ErrCode) :
    (s.raise c).HaltFollowsResponses :=
  iff_of_false (by simp) (by simp [State.raise])

theorem State.haltFollowsResponses_refuse (hhalt : s.halt = true) :
    s.refuse.HaltFollowsResponses :=
  iff_of_false (by simp [hhalt]) (by simp [State.refuse])

/-- A command's writes touch neither `HALT` nor the responses. -/
theorem Writes.haltFollowsResponses (hu : Writes s i t) (h : s.HaltFollowsResponses) :
    t.HaltFollowsResponses := by
  obtain ⟨hhalt, -, -, -⟩ := hu.keeps
  rwa [State.HaltFollowsResponses, State.CompletedWithoutError, hhalt, hu.responses]

theorem exec_haltFollowsResponses (hexec : exec i s = .next t) (hi : i ≠ .rst)
    (h : s.HaltFollowsResponses) : t.HaltFollowsResponses := by
  cases exec_leaves hexec with
  | reset hrst => exact absurd hrst hi
  | refused hhalt => exact State.haltFollowsResponses_refuse hhalt
  | raised hrun c => exact s.haltFollowsResponses_raise c
  | completed hu dout sink => exact (hu.haltFollowsResponses h).answer_ok dout sink

theorem State.haltFollowsResponses_illegalRequest (s : State) :
    s.illegalRequest.HaltFollowsResponses := by
  obtain ⟨hhalt, heq⟩ | ⟨-, heq⟩ := State.illegalRequest_cases (s := s)
  · rw [heq]; exact State.haltFollowsResponses_refuse hhalt
  · rw [heq]; exact s.haltFollowsResponses_raise _

/-- Settles O13, by what a step can do (`step_cases`), reset being excluded: a refusal and an error
leave a halted engine and a response that is not `OK`, a command that completes keeps `HALT` and
answers `OK`. -/
theorem notHaltedExactlyWhileEveryResponseIsOk :
    Obligations.NotHaltedExactlyWhileEveryResponseIsOk := by
  intro s t h hreset hstep
  change t.HaltFollowsResponses
  obtain ⟨-, heq⟩ | ⟨rest, hs, -⟩ | ⟨q, rest, i, hs, hd, heq⟩ | ⟨q, rest, e, -, -, heq⟩ :=
    step_cases s
  · cases heq.symm.trans hstep; exact h
  · exact absurd ⟨rest, .inl hs⟩ hreset
  · have hi : i ≠ .rst := by
      rintro rfl
      exact hreset ⟨rest, .inr ⟨q, hs, hd⟩⟩
    exact exec_haltFollowsResponses (heq.symm.trans hstep) hi
      (State.HaltFollowsResponses.present h q rest)
  · cases heq.symm.trans hstep; exact State.haltFollowsResponses_illegalRequest _

/-! ### The register map

`State.readCsr` by the ranges of 10_state R33, R34 and R40: five registers that always have a value,
sixteen that have one exactly after a `LOAD`, no others. -/

variable {n : BitVec 64}

/-- `STATUS` as a number: `HALT` in bit 0, `HDRV` in bit 1 (10_state R35). -/
theorem State.status_eq_ofNat (s : State) :
    s.status = BitVec.ofNat 64 (s.halt.toNat + 2 * s.hdrv.toNat) := by
  unfold State.status
  cases s.halt <;> cases s.hdrv <;> decide

theorem State.readDerived_none {w : Nat} {field : Derived → BitVec w} (h : s.derived = none) :
    s.readDerived field = .error .noHdr := by
  rw [State.readDerived, h]

theorem State.readDerived_some {w : Nat} {field : Derived → BitVec w} {d : Derived}
    (h : s.derived = some d) : s.readDerived field = .ok ((field d).setWidth 64) := by
  rw [State.readDerived, h]

theorem State.readCsr_derived_none {k : Nat} (h : s.derived = none)
    (hk : 0x10 ≤ k ∧ k ≤ 0x1C ∨ 0x20 ≤ k ∧ k ≤ 0x22) : s.readCsr k = .error .noHdr := by
  obtain ⟨hlow, hhigh⟩ | ⟨hlow, hhigh⟩ := hk
  · interval_cases k <;> exact State.readDerived_none h
  · interval_cases k <;> exact State.readDerived_none h

theorem State.readCsr_outside {k : Nat}
    (hk : ¬ (k ≤ 4 ∨ 0x10 ≤ k ∧ k ≤ 0x1C ∨ 0x20 ≤ k ∧ k ≤ 0x22)) :
    s.readCsr k = .error .illegal := by
  unfold State.readCsr
  split
  case h_22 => rfl
  all_goals omega

/-! ### `RDCSR` -/

/-- A register of at most 64 bits reaches `DOUT` with its value unchanged (30_encoding R83). -/
theorem doutWord_setWidth {w : Nat} (hw : w ≤ 64) (b : BitVec w) :
    doutWord (b.setWidth 64) = BitVec.ofNat 128 b.toNat := by
  rw [doutWord, BitVec.ofNat_toNat, BitVec.setWidth_setWidth fun h => by omega]

theorem exec_rdcsr_ok {v : BitVec 64} (h : s.readCsr n.toNat = .ok v) :
    exec (.rdcsr n) s = .next (s.respond (doutWord v)) := by
  rw [exec, execRdcsr, h]
  exact State.readCommand_ok _

theorem exec_rdcsr_error {c : ErrCode} (h : s.readCsr n.toNat = .error c) :
    exec (.rdcsr n) s = .next (if s.halt then s.refuse else s.raise c) := by
  rw [exec, execRdcsr, h]
  exact State.readCommand_error _

theorem exec_rdcsr_register {w : Nat} {b : BitVec w} (h : s.readCsr n.toNat = .ok (b.setWidth 64))
    (hw : w ≤ 64) : exec (.rdcsr n) s = .next (s.respond (BitVec.ofNat 128 b.toNat)) := by
  rw [exec_rdcsr_ok h, doutWord_setWidth hw]

/-- Settles O19: the registers of the map row by row, the numbers without a value or outside the map
by their ranges. -/
theorem rdcsrReadsTheRegisterMap : Obligations.RdcsrReadsTheRegisterMap := by
  refine fun s n => ⟨rfl, fun v hv => ?_, fun d hd v hv => ?_,
    fun hd hn => exec_rdcsr_error (State.readCsr_derived_none hd hn),
    fun hn => exec_rdcsr_error (State.readCsr_outside hn)⟩
  · simp only [List.mem_cons, Prod.mk.injEq, List.not_mem_nil, or_false] at hv
    obtain ⟨rfl, rfl⟩ | ⟨rfl, rfl⟩ | ⟨rfl, rfl⟩ | ⟨rfl, rfl⟩ | ⟨rfl, rfl⟩ := hv
    · exact exec_rdcsr_ok (congrArg Except.ok s.status_eq_ofNat)
    all_goals exact exec_rdcsr_ok rfl
  · simp only [List.mem_cons, Prod.mk.injEq, List.not_mem_nil, or_false] at hv
    rcases hv with ⟨rfl, rfl⟩ | ⟨rfl, rfl⟩ | ⟨rfl, rfl⟩ | ⟨rfl, rfl⟩ | ⟨rfl, rfl⟩ | ⟨rfl, rfl⟩ |
      ⟨rfl, rfl⟩ | ⟨rfl, rfl⟩ | ⟨rfl, rfl⟩ | ⟨rfl, rfl⟩ | ⟨rfl, rfl⟩ | ⟨rfl, rfl⟩ | ⟨rfl, rfl⟩ |
      ⟨rfl, rfl⟩ | ⟨rfl, rfl⟩ | ⟨rfl, rfl⟩ <;>
    exact exec_rdcsr_register (State.readDerived_some hd) (by decide)

end Sys2Proof.Machine
end

section
/-! Errors and the halted state (60_exceptions R227 to R231). A command on a running engine raises
an error or completes (`exec_running_cases`), and the error is in its row of the table, because each of
its checks is (`exec_command_raisesOnly`). A halted engine refuses every command but `RST` and an
`RDCSR` that has a value (`exec_halted_cases`), so no other step changes it. -/

namespace Sys2Proof.Machine

/-- An outcome that, if it is an error, is one of those listed. -/
def RaisesOnly {α : Type} (cs : List ErrCode) (x : Except ErrCode α) : Prop :=
  ∀ c, x = .error c → c ∈ cs

variable {s t : State} {i : Instr} {cs : List ErrCode} {c : ErrCode}

/-! ### A running engine -/

/-- A command on a running engine raises an error or completes. -/
theorem exec_running_cases (hrun : s.halt = false) (h : exec i s = .next t) :
    (∃ c, t = s.raise c) ∨
    (t.halt = false ∧ ∃ d k, t.responses = s.responses ++ [⟨.ok, d, k⟩]) := by
  cases exec_leaves h with
  | reset hi => exact .inr ⟨rfl, _, _, rfl⟩
  | refused hhalt => cases hrun.symm.trans hhalt
  | raised _ c => exact .inl ⟨c, rfl⟩
  | completed hu dout sink =>
    obtain ⟨hhalt, -, -, -⟩ := hu.keeps
    exact .inr ⟨hhalt.trans hrun, dout, sink, by rw [State.answer_responses, hu.responses]⟩

/-- Settles O9: of the two outcomes of `exec_running_cases`, `HALT` tells which one it is. -/
theorem errorsArePrecise : Obligations.ErrorsArePrecise := by
  intro i s t hrun h
  obtain ⟨c, rfl⟩ | ⟨hhalt, hok⟩ := exec_running_cases hrun h
  · exact ⟨fun _ => ⟨c, rfl⟩, nofun⟩
  · exact ⟨fun ht => (by cases hhalt.symm.trans ht), fun _ => hok⟩

/-! ### Outcomes by the errors they raise -/

theorem raisesOnly_ok {α : Type} (a : α) : RaisesOnly cs (.ok a) := nofun

theorem raisesOnly_error {α : Type} (hc : c ∈ cs) : RaisesOnly (α := α) cs (.error c) := by
  rintro _ ⟨⟩
  exact hc

theorem raisesOnly_check {α : Type} {p : Prop} [Decidable p] {x : Except ErrCode α}
    (hx : RaisesOnly cs x) (hc : c ∈ cs := by simp [errorsOf]) :
    RaisesOnly cs (if p then .error c else x) := by
  by_cases hp : p
  · rw [if_pos hp]; exact raisesOnly_error hc
  · rw [if_neg hp]; exact hx

theorem raisesOnly_bind {α β : Type} {x : Except ErrCode α} {f : α → Except ErrCode β}
    (hx : RaisesOnly cs x) (hf : ∀ a, RaisesOnly cs (f a)) : RaisesOnly cs (x.bind f) := by
  cases x with
  | error c => exact raisesOnly_error (hx c rfl)
  | ok a => exact hf a

theorem raisesOnly_map {α β : Type} {x : Except ErrCode α} {f : α → β} (hx : RaisesOnly cs x) :
    RaisesOnly cs (x.map f) := by
  cases x with
  | error c => exact raisesOnly_error (hx c rfl)
  | ok a => exact raisesOnly_ok _

/-! ### The computations that can raise -/

theorem duration_raisesOnly (h : Header) : RaisesOnly (errorsOf .load) (duration h) :=
  raisesOnly_check (raisesOnly_ok _)

theorem deriveFile_raisesOnly (bytes : List Byte) :
    RaisesOnly (errorsOf .load) (deriveFile bytes) :=
  raisesOnly_check (raisesOnly_check (raisesOnly_map (duration_raisesOnly _)))

theorem quantizeAll_raisesOnly {F : Type} (N : Num F) (signed : Bool) (hc : .qRange ∈ cs)
    (vs : List (Cplx F)) : RaisesOnly cs (quantizeAll N signed vs) := by
  induction vs with
  | nil => exact raisesOnly_ok _
  | cons v vs ih =>
    exact raisesOnly_bind (fun c h => quantize_error_eq h ▸ hc) fun b => raisesOnly_map ih

theorem State.readDerived_raisesOnly {w : Nat} (field : Derived → BitVec w) (hc : .noHdr ∈ cs) :
    RaisesOnly cs (s.readDerived field) := by
  cases hd : s.derived with
  | none => rw [State.readDerived_none hd]; exact raisesOnly_error hc
  | some d => rw [State.readDerived_some hd]; exact raisesOnly_ok _

/-- `CSR[k]` by the ranges of the register map. -/
theorem State.readCsr_raisesOnly (s : State) (n : BitVec 64) (k : Nat) :
    RaisesOnly (errorsOf (.rdcsr n)) (s.readCsr k) := by
  by_cases hk : k ≤ 4 ∨ 0x10 ≤ k ∧ k ≤ 0x1C ∨ 0x20 ≤ k ∧ k ≤ 0x22
  · obtain hlow | ⟨hlow, hhigh⟩ | ⟨hlow, hhigh⟩ := hk
    · interval_cases k <;> exact raisesOnly_ok _
    · interval_cases k <;> exact State.readDerived_raisesOnly _ (by simp [errorsOf])
    · interval_cases k <;> exact State.readDerived_raisesOnly _ (by simp [errorsOf])
  · rw [State.readCsr_outside hk]
    exact raisesOnly_error (by simp [errorsOf])

/-! ### Every command -/

/-- Every command but `RST` and `RDCSR` runs in the frame `State.command`, on an outcome that raises
only errors of the command's row (60_exceptions R231). -/
theorem exec_command_raisesOnly (i : Instr) (s : State) (hrst : i ≠ .rst)
    (hrdcsr : ∀ n, i ≠ .rdcsr n) :
    ∃ r, exec i s = s.command r ∧ RaisesOnly (errorsOf i) r := by
  cases i with
  | rst => exact absurd rfl hrst
  | rdcsr n => exact absurd rfl (hrdcsr n)
  | zwr | zrd | cadd | cmul | cdivr | twid | pad | fft | ifft => exact ⟨_, rfl, raisesOnly_ok _⟩
  | zld | zst | xwr | xrd | ztail | pwr | prd => exact ⟨_, rfl, raisesOnly_check (raisesOnly_ok _)⟩
  | xsetlen | psetlen | lift | extract => exact ⟨_, rfl, raisesOnly_check (raisesOnly_ok _)⟩
  | update => exact ⟨_, rfl, raisesOnly_check (raisesOnly_check (raisesOnly_ok _))⟩
  | load =>
    refine ⟨_, rfl, ?_⟩
    cases s.inputs.source with
    | absent => exact raisesOnly_error (by simp [errorsOf])
    | present bytes => exact raisesOnly_bind (deriveFile_raisesOnly bytes) fun _ => raisesOnly_ok _
  | save =>
    refine ⟨_, rfl, ?_⟩
    by_cases hsink : s.inputs.sinkOk
    · rw [if_pos hsink]; exact raisesOnly_ok _
    · rw [if_neg hsink]; exact raisesOnly_error (by simp [errorsOf])
  | quant count =>
    exact ⟨_, rfl, raisesOnly_check (raisesOnly_check (raisesOnly_bind
      (quantizeAll_raisesOnly _ _ (by simp [errorsOf]) _) fun _ => raisesOnly_ok _))⟩

/-- A completed command's last response tells it from an error. -/
theorem State.answer_ok_ne_raise (u : State) (dout : BitVec 128) (sink : Option (List Byte)) :
    u.answer .ok dout sink ≠ s.raise c := fun h => by
  simpa using congrArg State.responses h

theorem State.command_raises {r : Except ErrCode Effect} (hrun : s.halt = false)
    (hr : RaisesOnly cs r) (h : s.command r = .next (s.raise c)) :
    ∃ e ∈ cs, s.raise c = s.raise e := by
  obtain ⟨hhalt, -⟩ | ⟨-, e, -, heq⟩ | ⟨-, e, he, heq⟩ := State.command_cases h
  · cases hrun.symm.trans hhalt
  · exact absurd heq.symm (State.answer_ok_ne_raise _ _ _)
  · exact ⟨e, hr e he, heq⟩

theorem exec_rdcsr_raises {n : BitVec 64} (hrun : s.halt = false)
    (h : exec (.rdcsr n) s = .next (s.raise c)) :
    ∃ e ∈ errorsOf (.rdcsr n), s.raise c = s.raise e := by
  cases hv : s.readCsr n.toNat with
  | ok v =>
    exact absurd (Host.Outcome.next.inj ((exec_rdcsr_ok hv).symm.trans h))
      (State.answer_ok_ne_raise _ _ _)
  | error e =>
    have hexec := exec_rdcsr_error hv
    rw [hrun] at hexec
    exact ⟨e, s.readCsr_raisesOnly n _ e hv, Host.Outcome.next.inj (h.symm.trans hexec)⟩

/-- Settles O10: a halted next state is an error raised (`exec_running_cases`), and the frame the
command runs in raises only errors of the command's row; `RST` raises none. -/
theorem commandsRaiseOnlyTheirErrors : Obligations.CommandsRaiseOnlyTheirErrors := by
  intro i s t hrun h ht
  obtain ⟨c, rfl⟩ | ⟨hhalt, -⟩ := exec_running_cases hrun h
  · by_cases hrst : i = .rst
    · subst hrst
      exact absurd (Host.Outcome.next.inj h) (State.answer_ok_ne_raise _ _ _)
    · by_cases hrdcsr : ∃ n, i = .rdcsr n
      · obtain ⟨n, rfl⟩ := hrdcsr
        exact exec_rdcsr_raises hrun h
      · obtain ⟨r, hexec, hr⟩ := exec_command_raisesOnly i s hrst (not_exists.1 hrdcsr)
        exact State.command_raises hrun hr (hexec.symm.trans h)
  · cases hhalt.symm.trans ht

/-! ### A halted engine -/

theorem exec_halted_refuses (hhalt : s.halt = true) (hrst : i ≠ .rst)
    (hrdcsr : ∀ n, i ≠ .rdcsr n) : exec i s = .next s.refuse := by
  obtain ⟨r, hexec, -⟩ := exec_command_raisesOnly i s hrst hrdcsr
  rw [hexec, State.command_halted r hhalt]

theorem exec_rdcsr_halted_error {n : BitVec 64} (hhalt : s.halt = true)
    (h : s.readCsr n.toNat = .error c) : exec (.rdcsr n) s = .next s.refuse := by
  rw [exec_rdcsr_error h, if_pos hhalt]

theorem State.illegalRequest_halted (hhalt : s.halt = true) : s.illegalRequest = s.refuse :=
  if_pos hhalt

/-- Everything a command other than `RST` does on a halted engine. -/
theorem exec_halted_cases (hhalt : s.halt = true) (hrst : i ≠ .rst) :
    exec i s = .next s.refuse ∨ ∃ dout, exec i s = .next (s.respond dout) := by
  by_cases hrdcsr : ∃ n, i = .rdcsr n
  · obtain ⟨n, rfl⟩ := hrdcsr
    cases hv : s.readCsr n.toNat with
    | ok v => exact .inr ⟨_, exec_rdcsr_ok hv⟩
    | error c => exact .inl (exec_rdcsr_halted_error hhalt hv)
  · exact .inl (exec_halted_refuses hhalt hrst (not_exists.1 hrdcsr))

/-- Settles O11, by the frames of a command on a halted engine; a request that is not well-formed is
refused by `stepAnswersAnIllegalRequest`. -/
theorem haltedEngineRefusesTheRest : Obligations.HaltedEngineRefusesTheRest := by
  intro s hhalt
  refine ⟨⟨_, rfl, s.sameEngine_resetEngine.respond _⟩, fun n v hv => exec_rdcsr_ok hv,
    fun n c hc => exec_rdcsr_halted_error hhalt hc,
    fun i hrst hrdcsr => exec_halted_refuses hhalt hrst hrdcsr, fun q rest hs hwf => ?_⟩
  obtain ⟨-, hrefused⟩ := stepAnswersAnIllegalRequest s q rest hs hwf
  exact hrefused hhalt

/-! ### The exits from the halted state -/

theorem State.resetComes_of_hardwareReset {rest : List HostMove}
    (hs : s.host = .hardwareReset :: rest) : s.resetComes := ⟨rest, .inl hs⟩

theorem State.not_resetComes_of_nil (hs : s.host = []) : ¬ s.resetComes := by
  simp [State.resetComes, hs]

theorem State.resetComes_iff_of_request {q : Request} {rest : List HostMove}
    (hs : s.host = .request q :: rest) : s.resetComes ↔ decode q.cmd q.arg = .ok .rst := by
  simp [State.resetComes, hs]

theorem State.SameEngine.refuse (h : s.SameEngine t) : s.SameEngine t.refuse := { h with }

theorem State.SameEngine.present (s : State) (q : Request) (rest : List HostMove) :
    s.SameEngine (s.present q rest) := { State.SameEngine.refl s with }

/-- Settles O12, by what a step can do (`step_cases`): a move that is no reset is a command or an
illegal request that a halted engine refuses, or an `RDCSR` that only answers. -/
theorem onlyResetLeavesTheHaltedState : Obligations.OnlyResetLeavesTheHaltedState := by
  intro s t hhalt hstep
  obtain ⟨hs, heq⟩ | ⟨rest, hs, heq⟩ | ⟨q, rest, i, hs, hd, heq⟩ | ⟨q, rest, e, hs, hd, heq⟩ :=
    step_cases s <;> rw [heq] at hstep
  · cases hstep
    exact ⟨fun hreset => absurd hreset (State.not_resetComes_of_nil hs),
      fun _ => State.SameEngine.refl s⟩
  · cases hstep
    exact ⟨fun _ => State.sameEngine_resetEngine _,
      fun hno => absurd (State.resetComes_of_hardwareReset hs) hno⟩
  · have hreset : s.resetComes ↔ i = .rst := by
      rw [State.resetComes_iff_of_request hs, hd, Except.ok.injEq]
    rw [hreset]
    have hpresent := State.SameEngine.present s q rest
    constructor
    · rintro rfl
      cases hstep
      exact (State.sameEngine_resetEngine _).respond _
    · intro hrst
      obtain hexec | ⟨dout, hexec⟩ := exec_halted_cases (s := s.present q rest) hhalt hrst
      · cases hexec.symm.trans hstep; exact hpresent.refuse
      · cases hexec.symm.trans hstep; exact hpresent.respond dout
  · cases hstep
    rw [State.resetComes_iff_of_request hs, hd,
      State.illegalRequest_halted (s := s.present q rest) hhalt]
    exact ⟨nofun, fun _ => (State.SameEngine.present s q rest).refuse⟩

end Sys2Proof.Machine
end

section
/-! The encoding vectors V-E1 to V-E12 (95_test_vectors.md). A word the spec lists for a command is
that command's encoding, so O1 decodes it; a rejected word fails the first of the decoder's checks
that its fields do not pass. -/

namespace Sys2Proof

variable {cmd : BitVec 32} {arg : BitVec 64}

/-- A request that encodes a command decodes to it: the converse of `encode_of_decode`. -/
theorem decode_of_encode {i : Instr} (h : encode i = (cmd, arg)) : decode cmd arg = .ok i := by
  have hi := decodeOfEncodeIsTheCommand i
  rwa [h] at hi

theorem decode_of_reserved_ne_zero (h : fieldReserved cmd ≠ 0) :
    decode cmd arg = .error .reservedBits := if_pos h

/-- The opcode is looked up only in a word whose reserved bits are zero. -/
theorem decode_eq_of_decodeOp {r : Except DecodeError Instr} (hreserved : fieldReserved cmd = 0)
    (hop : decodeOp (fieldOp cmd) (fieldZd cmd) (fieldZa cmd) (fieldZb cmd) arg = r) :
    decode cmd arg = r :=
  (if_neg (not_not.2 hreserved)).trans hop

/-- Settles O3: V-E1 to V-E5 are encodings, V-E9 and V-E12 have a reserved bit set, and the others
are rejected by `decodeOp`: no row of the map has the opcode, or its row leaves a nonzero field
unused. -/
theorem specWordsDecodeAsListed : Obligations.SpecWordsDecodeAsListed := by
  have ve1 : encode .fft = (0x00000024#32, 0#64) := by decide
  have ve2 : encode (.cmul 3 2 1) = (0x00001B15#32, 0#64) := by decide
  have ve3 : encode (.cadd 3 3 3) = (0x00003F14#32, 0#64) := by decide
  have ve4 : encode (.twid 2 1#32 2#32) = (0x00000217#32, 0x0000000200000001#64) := by decide
  have ve5 : encode (.cdivr 1 0 4#64) = (0x00000116#32, 4#64) := by decide
  have ve9 : fieldReserved 0x00004024#32 ≠ 0 := by decide
  have ve12 : fieldReserved 0x80000001#32 ≠ 0 := by decide
  exact ⟨decode_of_encode ve1, decode_of_encode ve2, decode_of_encode ve3, decode_of_encode ve4,
    decode_of_encode ve5,
    decode_eq_of_decodeOp rfl rfl, -- V-E6: opcode 0x00 is not assigned
    decode_eq_of_decodeOp rfl rfl, -- V-E7: `FFT` with an `ARG`
    decode_eq_of_decodeOp rfl rfl, -- V-E8: `FFT` with a `zd`
    decode_of_reserved_ne_zero ve9,
    decode_eq_of_decodeOp rfl rfl, -- V-E10: opcode 0x42 is not assigned
    decode_eq_of_decodeOp rfl rfl, -- V-E11: `ZRD` with a `zd`
    decode_of_reserved_ne_zero ve12⟩

end Sys2Proof
end
